-- ==== Sys2Proof/Word.lean ====
section
/-! DEFINITION. The bit-vector types of TRB: the 32-bit command and response word (30_encoding.md R60, R61), its two
fields, the 32-bit block of the bit memory (20_memory.md R40) and the byte the generator emits (40_generator.md R81). -/

namespace Sys2Proof

/-- A command word, a response value, or FINFO: 32 bits (30_encoding.md R60, R61). -/
abbrev Word := BitVec 32

/-- The opcode field `CMD[31:28]` (30_encoding.md R60). -/
abbrev Opcode := BitVec 4

/-- The operand field `CMD[27:0]` (30_encoding.md R60). -/
abbrev Arg := BitVec 28

/-- A block of the bit memory (20_memory.md R40). -/
abbrev Block := BitVec 32

/-- A byte as `NEXTBYTE` emits it (40_generator.md R81). -/
abbrev Byte := BitVec 8

end Sys2Proof
end

