-- ==== Sys2Proof/Config.lean ====
section
/-! DEFINITION. The constants of 00_scope.md R5, each fixed in this hardware ("None is writable at run time"), and the
two bound tables of 10_state.md R23. Nothing here is a free value: nothing in TRB is a draw (60_exceptions.md R171). -/

namespace Sys2Proof.Config

/-- BIT_COUNT: the number of generated bits. -/
@[simp] abbrev bitCount : Nat := 20000

/-- BLOCK_BITS: bits in a block. -/
@[simp] abbrev blockBits : Nat := 32

/-- N_BLOCKS = BIT_COUNT / 32: blocks in the bit memory. -/
@[simp] abbrev nBlocks : Nat := 625

/-- BYTES_PER_BLOCK: recurrence steps in a block. -/
@[simp] abbrev bytesPerBlock : Nat := 4

/-- SEED_INIT: the seed at the start of construction. -/
@[simp] abbrev seedInit : BitVec 64 := 871246#64

/-- LCG_A: the multiplier. -/
@[simp] abbrev lcgA : BitVec 64 := 134775813#64

/-- LCG_C: the increment. -/
@[simp] abbrev lcgC : BitVec 64 := 1#64

/-- LCG_M = 2^32: the modulus. -/
@[simp] abbrev lcgM : BitVec 64 := 4294967296#64

/-- TAP_SHIFT: the candidate byte is bits 23:16 of the new state. -/
@[simp] abbrev tapShift : Nat := 16

/-- FOLD_SHIFT: the right shift of the fold stage; it makes the stage a no-op (40_generator.md R82). -/
@[simp] abbrev foldShift : Nat := 8

/-- FOLD_MASK: the mask of the fold stage. -/
@[simp] abbrev foldMask : Byte := 0xFF#8

/-- MONO_LO, the inclusive lower bound of the one-count. -/
@[simp] abbrev monoLo : Nat := 9654

/-- MONO_HI, the inclusive upper bound of the one-count. -/
@[simp] abbrev monoHi : Nat := 10346

/-- MAXRUN_LIMIT: the largest passing longest-run length. -/
@[simp] abbrev maxrunLimit : Nat := 36

/-- POKER_M: bits in a poker block. -/
@[simp] abbrev pokerM : Nat := 4

/-- POKER_K = BIT_COUNT / 4: the number of poker blocks. -/
@[simp] abbrev pokerK : Nat := 5000

/-- POKER_LO = 1.03 = 103 / 100, the inclusive lower bound of xi3: its numerator. -/
@[simp] abbrev pokerLoNum : Nat := 103

/-- POKER_LO = 1.03 = 103 / 100: its denominator. -/
@[simp] abbrev pokerLoDen : Nat := 100

/-- POKER_HI = 57.4 = 574 / 10, the inclusive upper bound of xi3: its numerator. -/
@[simp] abbrev pokerHiNum : Nat := 574

/-- POKER_HI = 57.4 = 574 / 10: its denominator. -/
@[simp] abbrev pokerHiDen : Nat := 10

/-- RUN_LO[1..6]; entry b − 1 is bucket b's inclusive lower bound (10_state.md R23). -/
def runLo : Vector (BitVec 12) 6 := #v[2267#12, 1079#12, 502#12, 223#12, 90#12, 90#12]

/-- RUN_HI[1..6]; entry b − 1 is bucket b's inclusive upper bound (10_state.md R23). -/
def runHi : Vector (BitVec 12) 6 := #v[2733#12, 1421#12, 748#12, 402#12, 223#12, 223#12]

end Sys2Proof.Config
end

