-- ==== Sys2Proof/Syntax.lean ====
section
/-! DEFINITION. The eight commands of TRB, one constructor per row of spec/opcode_table.json (30_encoding.md R62). The
only operand is ARG, an unsigned index used as it stands (30_encoding.md R63), so it is a natural number here; that it
fits the 28-bit field is checked in WellFormed. -/

namespace Sys2Proof

/-- A command of the host port (30_encoding.md R62). `NEXTBYTE` is internal to `GEN` and no command (R69). -/
inductive Instr where
  /-- `GEN`, opcode 0x1: construct the bit sequence (40_generator.md R80). -/
  | gen
  /-- `MONO`, opcode 0x2: the monobit test (42_monobit.md R100). -/
  | mono
  /-- `MAXRUN`, opcode 0x3: the longest-run test (43_longest_run.md R110). -/
  | maxrun
  /-- `POKER`, opcode 0x4: the poker test (44_poker.md R120). -/
  | poker
  /-- `RUNS`, opcode 0x5: the run-length-distribution test (45_run_length.md R130). -/
  | runs
  /-- `GETBIT idx`, opcode 0x6: read the bit at a logical index (41_bit_access.md R90). -/
  | getbit (idx : Nat)
  /-- `RDBLK j`, opcode 0x7: read the block at a block address (41_bit_access.md R91). -/
  | rdblk (j : Nat)
  /-- `RDREG r`, opcode 0x8: read the register with a register number (46_register_read.md R140). -/
  | rdreg (r : Nat)
  deriving DecidableEq, Repr

end Sys2Proof
end

