-- ==== Sys2Proof/WellFormed.lean ====
section
/-! DEFINITION. Which commands the 32-bit format can carry: the operand of GETBIT, RDBLK and RDREG is the unsigned 28-bit
field ARG (30_encoding.md R60, R63). A value outside its space or an unmapped register number is a legal encoding that
faults in execution (30_encoding.md R64), so it is well-formed. -/

namespace Sys2Proof

/-- The value fits ARG (30_encoding.md R60: "ARG", bits 27:0). -/
def argFits (n : Nat) : Bool := decide (n < 2 ^ 28)

/-- The command has an encoding. -/
def Instr.wellFormed : Instr → Bool
  | .gen => true
  | .mono => true
  | .maxrun => true
  | .poker => true
  | .runs => true
  | .getbit idx => argFits idx
  | .rdblk j => argFits j
  | .rdreg r => argFits r

end Sys2Proof
end

