-- ==== Sys2Proof/Decode.lean ====
section
/-! DEFINITION. Decoding of a command word, total and stateless (30_encoding.md R65), with a named reason for every word
that is no command (R64), and the encoder, from the same map (R60, R62). -/

namespace Sys2Proof

/-- Why a word is no command (30_encoding.md R64). -/
inductive IllegalReason where
  /-- R64 (a): the opcode is 0x0 or one of 0x9 to 0xF, whatever ARG is. -/
  | reservedOpcode (op : Opcode)
  /-- R64 (b): the opcode is 0x1 to 0x5 and ARG is not 0. -/
  | nonzeroArg (op : Opcode) (arg : Arg)
  deriving DecidableEq, Repr

/-- What a word decodes to (30_encoding.md R65: a command or `Illegal`). -/
inductive Decoded where
  /-- One of the eight commands. -/
  | command (i : Instr)
  /-- An illegal word, with the reason by name. -/
  | illegal (why : IllegalReason)
  deriving DecidableEq, Repr

/-- `OP = CMD[31:28]` (30_encoding.md R60). -/
def opOf (w : Word) : Opcode := w.extractLsb' 28 4

/-- `ARG = CMD[27:0]` (30_encoding.md R60). -/
def argOf (w : Word) : Arg := w.extractLsb' 0 28

/-- A command without operand: its ARG must be 0 (30_encoding.md R62, R64). -/
def decodeBare (i : Instr) (w : Word) : Decoded :=
  if argOf w = 0#28 then .command i else .illegal (.nonzeroArg (opOf w) (argOf w))

/-- The decode function of 30_encoding.md R65. -/
def decode (w : Word) : Decoded :=
  match (opOf w).toNat with
  | 0x1 => decodeBare .gen w
  | 0x2 => decodeBare .mono w
  | 0x3 => decodeBare .maxrun w
  | 0x4 => decodeBare .poker w
  | 0x5 => decodeBare .runs w
  | 0x6 => .command (.getbit (argOf w).toNat)
  | 0x7 => .command (.rdblk (argOf w).toNat)
  | 0x8 => .command (.rdreg (argOf w).toNat)
  | _ => .illegal (.reservedOpcode (opOf w))

/-- `CMD = {OP, ARG}` (30_encoding.md R60). -/
def assemble (op : Opcode) (arg : Arg) : Word := op ++ arg

/-- The opcode of each command (30_encoding.md R62). -/
def opcodeOf : Instr → Opcode
  | .gen => 0x1#4
  | .mono => 0x2#4
  | .maxrun => 0x3#4
  | .poker => 0x4#4
  | .runs => 0x5#4
  | .getbit _ => 0x6#4
  | .rdblk _ => 0x7#4
  | .rdreg _ => 0x8#4

/-- The ARG of each command: the operand, or 0 where the command has none (30_encoding.md R60). -/
def operandOf : Instr → Nat
  | .gen => 0
  | .mono => 0
  | .maxrun => 0
  | .poker => 0
  | .runs => 0
  | .getbit idx => idx
  | .rdblk j => j
  | .rdreg r => r

/-- The command word of a command (30_encoding.md R60, R62). -/
def encode (i : Instr) : Word := assemble (opcodeOf i) (BitVec.ofNat 28 (operandOf i))

/-- The command, where the word is one. -/
def Decoded.instr? : Decoded → Option Instr
  | .command i => some i
  | .illegal _ => none

/-- The word whose bits a row of spec/opcode_table.json gives: `nbits` of them, the rest 0. A command is one 32-bit
word (30_encoding.md R66), so no byte order enters. -/
def tableWord (nbits w : Nat) : Word := BitVec.ofNat 32 (w % 2 ^ nbits)

/-- What the decoder reads from an instruction numbered as spec/opcode_table.json numbers it. No command is longer
than 32 bits (30_encoding.md R66). -/
def decodeTableWord (nbits w : Nat) : Option Instr :=
  if nbits ≤ 32 then (decode (tableWord nbits w)).instr? else none

end Sys2Proof
end

