-- ==== Sys2Proof/Machine/State.lean ====
section
/-! DEFINITION. The state of TRB (10_state.md R10), the host's side of the port (30_encoding.md R60, R61,
70_reset_and_hazards.md R180), the reasons a step can stop, and the state after reset (10_state.md R30). -/

namespace Sys2Proof.Machine

/-- Why the machine stops. The spec's own faults are not here: they are NEXT states with `FAULT ≠ 0`
(60_exceptions.md R152, R171). -/
inductive Fault where
  /-- A read of a bit-memory block that nothing has written. Raised by MONO, MAXRUN, POKER, RUNS, GETBIT and RDBLK. Safe:
  no run from reset reaches it, because `VALID = 0` refuses every read until GEN has written every block
  (10_state.md R15, R16). -/
  | unwrittenBlock
  deriving DecidableEq, Repr

/-- Why an instruction has no meaning. -/
inductive Refusal where
  /-- An arm of exec that has no meaning yet; no arm uses it. Safe. -/
  | notModelled (mnemonic : String)
  deriving DecidableEq, Repr

/-- The status of a response (30_encoding.md R61); codes 6 to 15 are never produced
(93_implementation_defined.md I14). -/
inductive Status where
  | ok
  | illegalCommand
  | indexOutOfBounds
  | configAssert
  | notGenerated
  | halted
  deriving DecidableEq, Repr

/-- A fault cause (60_exceptions.md R150). -/
inductive Cause where
  | illegalCommand
  | indexOutOfBounds
  | configAssert
  | notGenerated
  deriving DecidableEq, Repr

/-- A response `(STATUS, VALUE)` (30_encoding.md R61). -/
structure Response where
  status : Status
  value : Word
  deriving DecidableEq, Repr

/-- The four tests, which own one bit each of DONE and VERDICT (10_state.md R17). -/
inductive TestUnit where
  | mono
  | maxrun
  | poker
  | runs
  deriving DecidableEq, Repr

/-- What the host does next (log entries 1 and 6). -/
inductive PortEvent where
  /-- The host presents a command word and it is accepted (30_encoding.md R60). -/
  | command (w : Word)
  /-- The reset input while the block is idle (70_reset_and_hazards.md R180). -/
  | reset
  /-- The reset input while the command is in progress: the command is lost (70_reset_and_hazards.md R180, R188). -/
  | resetDuring (w : Word)
  deriving DecidableEq, Repr

/-- The storage of BITS: (cell, byte) pairs in strictly rising order of the cell; cell 4 j + m holds the byte that
was generated m-th in block j (20_memory.md R43, R55; log entry 4). A cell not listed has no value (log entry 3). -/
abbrev Memory := List Host.Cell

/-- The whole state of TRB (10_state.md R10) and of its response signals (30_encoding.md R61), with the model's own
`port` (log entry 1). -/
structure State where
  /-- SEED, the recurrence's state (10_state.md R13). -/
  seed : BitVec 64
  /-- BLK, the packer's block accumulator (10_state.md R14). -/
  blk : BitVec 32
  /-- BITS[0..624], the bit memory (10_state.md R15). -/
  mem : Memory
  /-- VALID: the bit memory holds a completed construction (10_state.md R16). -/
  valid : Bool
  /-- FAULT, the fault latch (10_state.md R18). -/
  fault : BitVec 4
  /-- FINFO, the fault's information word (10_state.md R18). -/
  finfo : BitVec 32
  /-- DONE[3:0] (10_state.md R17). -/
  done : BitVec 4
  /-- VERDICT[3:0] (10_state.md R17). -/
  verdict : BitVec 4
  /-- ONES, the frequency counter (10_state.md R19). -/
  ones : BitVec 15
  /-- RUN1, the run counter of 1s (10_state.md R20). -/
  run1 : BitVec 15
  /-- RUN0, the run counter of 0s (10_state.md R20). -/
  run0 : BitVec 15
  /-- MAXLEN, the running maximum (10_state.md R20). -/
  maxlen : BitVec 15
  /-- NIB, the poker unit's shift register (10_state.md R21). -/
  nib : BitVec 4
  /-- HIST[0..15] (10_state.md R21). -/
  hist : Vector (BitVec 13) 16
  /-- SUMSQ (10_state.md R21). -/
  sumsq : BitVec 25
  /-- XI3N (10_state.md R21). -/
  xi3n : BitVec 29
  /-- CUR, the run of 1s in progress (10_state.md R22). -/
  cur : BitVec 15
  /-- CNT[1..6]; entry b − 1 is bucket b (10_state.md R22). -/
  cnt : Vector (BitVec 14) 6
  /-- The response signals: `none` is `rsp_valid = 0` (30_encoding.md R61). -/
  rsp : Option Response
  /-- The model's own field: what the host still has to do, in order (log entry 1). -/
  port : List PortEvent
  deriving DecidableEq, Repr

/-- The state right after reset (10_state.md R30, 70_reset_and_hazards.md R181). `seed` and `blk` are DESIGN CHOICE
(log entry 2), `mem` lists nothing (log entry 3), `port` is empty (log entry 1). -/
def State.reset : State where
  seed := 0#64
  blk := 0#32
  mem := []
  valid := false
  fault := 0#4
  finfo := 0#32
  done := 0#4
  verdict := 0#4
  ones := 0#15
  run1 := 0#15
  run0 := 0#15
  maxlen := 0#15
  nib := 0#4
  hist := Vector.replicate 16 0#13
  sumsq := 0#25
  xi3n := 0#29
  cur := 0#15
  cnt := Vector.replicate 6 0#14
  rsp := none
  port := []

/-- What a step answers. -/
abbrev Result := Host.Outcome State Fault Refusal

end Sys2Proof.Machine
end

