-- ==== Sys2Proof/Machine/Ops.lean ====
section
/-! DEFINITION. The named operations every command is written over: the primitives of the bit memory (20_memory.md R42),
the response (30_encoding.md R61), fault entry and the halted answer (60_exceptions.md R152, R153), the checks a command
shares (R151), and the reset event (70_reset_and_hazards.md R180). There is no return from a fault (R154). -/

namespace Sys2Proof.Machine

/-! ### The bit memory -/

/-- The byte in a cell, if it has a value. -/
def Memory.readByte : Memory → Nat → Option Byte
  | [], _ => none
  | (c, v) :: rest, a => if a = c then some v else Memory.readByte rest a

/-- Write one cell, keeping the strictly rising order. -/
def Memory.writeByte : Memory → Nat → Byte → Memory
  | [], a, b => [(a, b)]
  | (c, v) :: rest, a, b =>
    if a < c then (a, b) :: (c, v) :: rest
    else if a = c then (a, b) :: rest
    else (c, v) :: Memory.writeByte rest a b

/-- The cell of byte `m` of block `j` (20_memory.md R43; log entry 4). -/
def byteCell (j m : Nat) : Nat := Config.bytesPerBlock * j + m

/-- `byte_m = BITS[j][31 − 8m : 24 − 8m]` (20_memory.md R43). -/
def byteOf (v : Block) (m : Nat) : Byte := v.extractLsb' (24 - 8 * m) 8

/-- `{byte_0, byte_1, byte_2, byte_3}` (20_memory.md R43). -/
def joinBytes (b0 b1 b2 b3 : Byte) : Block := b0 ++ b1 ++ b2 ++ b3

/-- `MemRead(j, 32)` (20_memory.md R42), if the block has a value. -/
def Memory.readBlock (m : Memory) (j : Nat) : Option Block :=
  match m.readByte (byteCell j 0), m.readByte (byteCell j 1),
      m.readByte (byteCell j 2), m.readByte (byteCell j 3) with
  | some b0, some b1, some b2, some b3 => some (joinBytes b0 b1 b2 b3)
  | _, _, _, _ => none

/-- `MemWrite(j, 32, v)` (20_memory.md R42). -/
def Memory.writeBlock (m : Memory) (j : Nat) (v : Block) : Memory :=
  (((m.writeByte (byteCell j 0) (byteOf v 0)).writeByte (byteCell j 1) (byteOf v 1)).writeByte
    (byteCell j 2) (byteOf v 2)).writeByte (byteCell j 3) (byteOf v 3)

/-- The `n` blocks from block `j` on, in ascending order, if each has a value (10_state.md R12). -/
def Memory.readBlocks (m : Memory) (j : Nat) : Nat → Option (List Block)
  | 0 => some []
  | n + 1 =>
    match m.readBlock j, Memory.readBlocks m (j + 1) n with
    | some v, some vs => some (v :: vs)
    | _, _ => none

/-- The bit at position `p` of a block, position 0 least significant (20_memory.md R41, R42):
`(v >> p) & 1`. -/
def bitOf (v : Block) (p : Nat) : Bool := v.getLsbD p

/-- The 32 bits of a block in logical order (20_memory.md R41). -/
def bitsOf (v : Block) : List Bool := (List.range 32).map (bitOf v)

/-- The logical bit sequence of consecutive blocks (20_memory.md R41): bit i is bit i mod 32 of block i / 32. -/
def sequenceOf (vs : List Block) : List Bool := vs.flatMap bitsOf

/-- The sequence `s(0), ..., s(n − 1)`: a function of the index and a length, as the pure functions of 00_scope.md R8 take
them, in the form of the list the scans run over. -/
def prefixOf (s : Nat → Bool) (n : Nat) : List Bool := (List.range n).map s

/-- Every address strictly above the one before it, from `lo` on. -/
def Memory.risingFrom (lo : Nat) : Memory → Bool
  | [] => true
  | (c, _) :: rest => decide (lo ≤ c) && Memory.risingFrom (c + 1) rest

/-- The canonical form: cells strictly rising, each inside the 625 blocks (20_memory.md R40). An unlisted cell has no
value, so no entry can equal it (log entry 3). -/
def Memory.wf (m : Memory) : Bool :=
  m.risingFrom 0 && m.all fun c => decide (c.1 < Config.bytesPerBlock * Config.nBlocks)

/-! ### Responses, faults, halting -/

/-- The number of a status (30_encoding.md R61). -/
def Status.code : Status → BitVec 4
  | .ok => 0#4
  | .illegalCommand => 1#4
  | .indexOutOfBounds => 2#4
  | .configAssert => 3#4
  | .notGenerated => 4#4
  | .halted => 5#4

/-- The cause code latched into FAULT (60_exceptions.md R150). -/
def Cause.code : Cause → BitVec 4
  | .illegalCommand => 1#4
  | .indexOutOfBounds => 2#4
  | .configAssert => 3#4
  | .notGenerated => 4#4

/-- The response status of a fault: its own name (30_encoding.md R61, 60_exceptions.md R150). -/
def Cause.status : Cause → Status
  | .illegalCommand => .illegalCommand
  | .indexOutOfBounds => .indexOutOfBounds
  | .configAssert => .configAssert
  | .notGenerated => .notGenerated

/-- `respond(status, value)` (30_encoding.md R61). -/
def State.respond (s : State) (st : Status) (v : Word) : State := { s with rsp := some ⟨st, v⟩ }

/-- `raise F(info)` (60_exceptions.md R152): `FAULT <- code(F)`, `FINFO <- info`, respond, and nothing else. -/
def State.raiseFault (s : State) (c : Cause) (info : Word) : State :=
  { s with fault := c.code, finfo := info, rsp := some ⟨c.status, info⟩ }

/-- HALTED: `FAULT ≠ 0` (10_state.md R25, 60_exceptions.md R153). -/
def State.isHalted (s : State) : Bool := s.fault != 0#4

/-- The answer of a halted block: `respond(Halted, zext_32(FAULT))`, no state change (60_exceptions.md R153). -/
def State.refuseHalted (s : State) : State := s.respond .halted (s.fault.setWidth 32)

/-! ### The checks commands share (60_exceptions.md R151) -/

/-- Step 1: a halted block answers `Halted`. -/
def unlessHalted (s : State) (body : State → Result) : Result :=
  if s.isHalted then .next s.refuseHalted else body s

/-- Steps 1 and 4: halted, then `VALID` (10_state.md R16). `cmd` is the command word. -/
def checkReady (s : State) (cmd : Word) (body : State → Result) : Result :=
  unlessHalted s fun s => if s.valid then body s else .next (s.raiseFault .notGenerated cmd)

/-- Step 5: an index outside its space of `size` raises IndexOutOfBounds with `zext_32(ARG)`. -/
def checkIndex (s : State) (index size : Nat) (body : State → Result) : Result :=
  if size ≤ index then .next (s.raiseFault .indexOutOfBounds (BitVec.ofNat 32 index)) else body s

/-- Step 6: BIT_COUNT must be a multiple of POKER_M; taken as an argument (44_poker.md R121, log entry 8). -/
def checkDivisible (s : State) (bitCount : Nat) (body : State → Result) : Result :=
  if bitCount % Config.pokerM ≠ 0 then
    .next (s.raiseFault .configAssert (BitVec.ofNat 32 (bitCount % Config.pokerM)))
  else body s

/-- Read one block and go on with it. -/
def withBlock (s : State) (j : Nat) (body : Block → State) : Result :=
  match s.mem.readBlock j with
  | some v => .next (body v)
  | none => .fault .unwrittenBlock

/-- Read all 625 blocks in ascending order and go on with them (10_state.md R12). -/
def withBlocks (s : State) (body : List Block → State) : Result :=
  match s.mem.readBlocks 0 Config.nBlocks with
  | some vs => .next (body vs)
  | none => .fault .unwrittenBlock

/-! ### The port -/

/-- The host's next event is taken off the port. -/
def State.withPort (s : State) (rest : List PortEvent) : State := { s with port := rest }

/-- A word that is no command: halted, else IllegalCommand with the word (60_exceptions.md R151 steps 1 and 2). -/
def illegalWord (w : Word) (s : State) : Result :=
  unlessHalted s fun s => .next (s.raiseFault .illegalCommand w)

/-- The reset event: every piece of state takes its reset value and there is no response
(70_reset_and_hazards.md R180). What the host does afterwards stays. -/
def resetEvent (rest : List PortEvent) : State := State.reset.withPort rest

/-- No command is presented: the block stays idle and `rsp_valid` is 0 (30_encoding.md R61,
60_exceptions.md R170). -/
def State.idle (s : State) : State := { s with rsp := none }

end Sys2Proof.Machine
end

