-- ==== Sys2Proof/Machine/Flags.lean ====
section
/-! DEFINITION. The flags of TRB: the DONE and VERDICT bits (10_state.md R17) and the STATUS word (R25). There is no
carry, zero, overflow or sign flag (R17). -/

namespace Sys2Proof.Machine

/-- The bit of DONE and VERDICT that a test owns (10_state.md R17: bit 0 MONO, 1 MAXRUN, 2 POKER, 3 RUNS). -/
def TestUnit.mask : TestUnit → BitVec 4
  | .mono => 0b0001#4
  | .maxrun => 0b0010#4
  | .poker => 0b0100#4
  | .runs => 0b1000#4

/-- `VERDICT[x] <- pass;  DONE[x] <- 1`; every other bit stays (10_state.md R17). -/
def State.recordVerdict (s : State) (t : TestUnit) (pass : Bool) : State :=
  { s with
    done := s.done ||| t.mask
    verdict := if pass then s.verdict ||| t.mask else s.verdict &&& ~~~t.mask }

/-- A flag as one bit: 1 stands for true (00_scope.md R7). -/
def flagBit (b : Bool) : BitVec 1 := if b then 1#1 else 0#1

/-- A verdict or a bit as a response value: `zext_32` of it (00_scope.md R7). -/
def flagWord (b : Bool) : Word := if b then 1#32 else 0#32

/-- A test ends: its own bits, then `respond(OK, zext_32(pass))` (10_state.md R17, 30_encoding.md R61). -/
def State.finishTest (s : State) (t : TestUnit) (pass : Bool) : State :=
  (s.recordVerdict t pass).respond .ok (flagWord pass)

/-- `STATUS = {20'b0, VERDICT[3:0], DONE[3:0], 2'b00, HALTED, VALID}` (10_state.md R25). -/
def State.statusWord (s : State) : Word :=
  0#20 ++ s.verdict ++ s.done ++ 0#2 ++ flagBit s.isHalted ++ flagBit s.valid

end Sys2Proof.Machine
end

