-- ==== Sys2Proof/Machine/Operands.lean ====
section
/-! DEFINITION. The operand forms: a logical bit index split into block and position (20_memory.md R41), and a register
number (10_state.md R24) with the value each register reads as (46_register_read.md R140). -/

namespace Sys2Proof.Machine

/-- The block of a logical bit index (20_memory.md R41). -/
def blockIndex (idx : Nat) : Nat := idx / Config.blockBits

/-- The position of a logical bit index inside its block (20_memory.md R41). -/
def bitPosition (idx : Nat) : Nat := idx % Config.blockBits

/-- The readable registers (10_state.md R24). Bucket b of CNT, RUN_LO and RUN_HI is index b − 1. -/
inductive Reg where
  | status
  | fault
  | finfo
  | ones
  | maxlen
  | run1
  | run0
  | sumsq
  | xi3n
  | nib
  | cur
  | hist (v : Fin 16)
  | cnt (b : Fin 6)
  | runLo (b : Fin 6)
  | runHi (b : Fin 6)
  | bitCount
  | nBlocks
  deriving DecidableEq, Repr

/-- The register at a number below 0x10, if one is mapped there (10_state.md R24). -/
def lowReg : Nat → Option Reg
  | 0x00 => some .status
  | 0x01 => some .fault
  | 0x02 => some .finfo
  | 0x03 => some .ones
  | 0x04 => some .maxlen
  | 0x05 => some .run1
  | 0x06 => some .run0
  | 0x07 => some .sumsq
  | 0x08 => some .xi3n
  | 0x09 => some .nib
  | 0x0A => some .cur
  | _ => none

/-- The bucket 1 to 6 whose register number is `base + b`, as an index from 0 (10_state.md R24). -/
def bucketAt (base r : Nat) : Option (Fin 6) :=
  if h : base + 1 ≤ r ∧ r ≤ base + 6 then some ⟨r - (base + 1), by omega⟩ else none

/-- The register with a number, if the map of 10_state.md R24 has one. -/
def regOf (r : Nat) : Option Reg :=
  if r < 0x10 then lowReg r
  else if h : r < 0x20 then some (.hist ⟨r % 16, by omega⟩)
  else if r < 0x30 then (bucketAt 0x20 r).map .cnt
  else if r < 0x40 then (bucketAt 0x30 r).map .runLo
  else if r < 0x50 then (bucketAt 0x40 r).map .runHi
  else if r = 0x50 then some .bitCount
  else if r = 0x51 then some .nBlocks
  else none

/-- `regvalue(r)` of 46_register_read.md R140: the register zero-extended to 32 bits. -/
def State.regValue (s : State) : Reg → Word
  | .status => s.statusWord
  | .fault => s.fault.setWidth 32
  | .finfo => s.finfo
  | .ones => s.ones.setWidth 32
  | .maxlen => s.maxlen.setWidth 32
  | .run1 => s.run1.setWidth 32
  | .run0 => s.run0.setWidth 32
  | .sumsq => s.sumsq.setWidth 32
  | .xi3n => s.xi3n.setWidth 32
  | .nib => s.nib.setWidth 32
  | .cur => s.cur.setWidth 32
  | .hist v => (s.hist.get v).setWidth 32
  | .cnt b => (s.cnt.get b).setWidth 32
  | .runLo b => (Config.runLo.get b).setWidth 32
  | .runHi b => (Config.runHi.get b).setWidth 32
  | .bitCount => BitVec.ofNat 32 Config.bitCount
  | .nBlocks => BitVec.ofNat 32 Config.nBlocks

end Sys2Proof.Machine
end

