-- ==== Sys2Proof/Machine/BitAccess.lean ====
section
/-! DEFINITION. The read-out family: GETBIT (41_bit_access.md R90) and RDBLK (R91). -/

namespace Sys2Proof.Machine

/-- GETBIT idx (41_bit_access.md R90): `respond(OK, (MemRead(idx / 32, 32) >> (idx mod 32)) & 1)`. -/
def execGetbit (idx : Nat) (s : State) : Result :=
  checkReady s (encode (.getbit idx)) fun s =>
    checkIndex s idx Config.bitCount fun s =>
      withBlock s (blockIndex idx) fun v => s.respond .ok (flagWord (bitOf v (bitPosition idx)))

/-- RDBLK j (41_bit_access.md R91): `respond(OK, MemRead(j, 32))`. -/
def execRdblk (j : Nat) (s : State) : Result :=
  checkReady s (encode (.rdblk j)) fun s =>
    checkIndex s j Config.nBlocks fun s =>
      withBlock s j fun v => s.respond .ok v

end Sys2Proof.Machine
end

