-- ==== Sys2Proof/Machine/Generator.lean ====
section
/-! DEFINITION. The generator family: NEXTBYTE (40_generator.md R81) and GEN (R80). -/

namespace Sys2Proof.Machine

/-- The state update of NEXTBYTE: `SEED <- (134775813 * SEED + 1) mod 2^32`, on the 64-bit register
(40_generator.md R81, R84). -/
def nextSeed (seed : BitVec 64) : BitVec 64 := (Config.lcgA * seed + Config.lcgC) % Config.lcgM

/-- The tap: `b = (SEED >> 16) & 0xFF`, bits 23:16 (40_generator.md R81). -/
def tapByte (seed : BitVec 64) : Byte := (seed >>> Config.tapShift).setWidth 8

/-- The fold stage as coded, `(b >> 8) XOR (b & 0xFF)`: a no-op, kept (40_generator.md R82, 90_conflicts.md C1). -/
def foldByte (b : Byte) : Byte := (b >>> Config.foldShift) ^^^ (b &&& Config.foldMask)

/-- The byte NEXTBYTE returns, from the seed AFTER the update (40_generator.md R81). -/
def emitByte (seed : BitVec 64) : Byte := foldByte (tapByte seed)

/-- The registers GEN works on. -/
structure GenUnit where
  seed : BitVec 64
  blk : BitVec 32
  mem : Memory
  deriving DecidableEq, Repr

/-- One byte: NEXTBYTE, then `BLK <- ((BLK << 8) | zext_32(byte)) & 0xFFFFFFFF` (40_generator.md R80). -/
def genByte (g : GenUnit) : GenUnit :=
  let seed := nextSeed g.seed
  { g with seed := seed, blk := (g.blk <<< 8) ||| (emitByte seed).setWidth 32 }

/-- `n` bytes in a row. -/
def genBytes : Nat → GenUnit → GenUnit
  | 0, g => g
  | n + 1, g => genBytes n (genByte g)

/-- One block: `BLK <- 0`, four bytes, `MemWrite(j, 32, BLK)` (40_generator.md R80). -/
def genBlock (j : Nat) (g : GenUnit) : GenUnit :=
  let g := genBytes Config.bytesPerBlock { g with blk := 0#32 }
  { g with mem := g.mem.writeBlock j g.blk }

/-- `n` blocks from block `j` on, in ascending order; the seed runs on between blocks (40_generator.md R80). -/
def genBlocks : Nat → Nat → GenUnit → GenUnit
  | 0, _, g => g
  | n + 1, j, g => genBlocks n (j + 1) (genBlock j g)

/-- The whole construction from SEED_INIT (40_generator.md R80). BLK is cleared by each block before it is read.
Irreducible, so that the elaborator never runs the 2500 steps by itself; its law is `construct_spec`. -/
@[irreducible] def construct (blk : BitVec 32) (mem : Memory) : GenUnit :=
  genBlocks Config.nBlocks 0 { seed := Config.seedInit, blk := blk, mem := mem }

/-- The generator's registers go back into the state. -/
def State.setGenerator (s : State) (g : GenUnit) : State := { s with seed := g.seed, blk := g.blk, mem := g.mem }

/-- `VALID <- 1` (10_state.md R16). -/
def State.setValid (s : State) : State := { s with valid := true }

/-- GEN (40_generator.md R80): it never faults and needs no `VALID`. -/
def execGen (s : State) : Result :=
  unlessHalted s fun s =>
    .next (((s.setGenerator (construct s.blk s.mem)).setValid).respond .ok 0#32)

end Sys2Proof.Machine
end

