-- ==== Sys2Proof/Machine/LongestRun.lean ====
section
/-! DEFINITION. The longest-run family: MAXRUN, its two run counters and the running maximum (43_longest_run.md R110).
Counts are exact in Nat and narrowed to the registers (10_state.md R31). -/

namespace Sys2Proof.Machine

/-- The three registers of the scan. -/
structure RunScan where
  run1 : Nat
  run0 : Nat
  maxlen : Nat
  deriving DecidableEq, Repr

/-- One bit: count its value's run, fold the other run into the maximum and clear it (43_longest_run.md R110,
90_conflicts.md C2). -/
def scanRun (c : RunScan) (b : Bool) : RunScan :=
  if b then { run1 := c.run1 + 1, run0 := 0, maxlen := max c.maxlen c.run0 }
  else { run1 := 0, run0 := c.run0 + 1, maxlen := max c.maxlen c.run1 }

/-- The final fold, which resets neither counter (43_longest_run.md R110). -/
def foldTrailing (c : RunScan) : RunScan := { c with maxlen := max (max c.maxlen c.run1) c.run0 }

/-- The scan of a bit sequence, ascending, with the final fold (43_longest_run.md R110, R111). -/
def scanRuns (bits : List Bool) : RunScan :=
  foldTrailing (bits.foldl scanRun { run1 := 0, run0 := 0, maxlen := 0 })

/-- `MAXLEN <= 36` (43_longest_run.md R110). -/
def maxrunPass (n : Nat) : Bool := decide (n ≤ Config.maxrunLimit)

/-- The counters after the scan of a sequence s of length n (00_scope.md R8). -/
def runScanIn (s : Nat → Bool) (n : Nat) : RunScan := scanRuns (prefixOf s n)

/-- `maxrun(s, N)` (43_longest_run.md R111, 00_scope.md R8). -/
def maxrunIn (s : Nat → Bool) (n : Nat) : Nat := (runScanIn s n).maxlen

/-- `maxrun_pass(s, N)` (43_longest_run.md R111); the bound does not scale with N. -/
def maxrunPassIn (s : Nat → Bool) (n : Nat) : Bool := maxrunPass (maxrunIn s n)

/-- The run counters' registers. -/
def State.setRunCounters (s : State) (c : RunScan) : State :=
  { s with
    run1 := BitVec.ofNat 15 c.run1
    run0 := BitVec.ofNat 15 c.run0
    maxlen := BitVec.ofNat 15 c.maxlen }

/-- MAXRUN (43_longest_run.md R110). -/
def execMaxrun (s : State) : Result :=
  checkReady s (encode .maxrun) fun s =>
    withBlocks s fun vs =>
      let c := scanRuns (sequenceOf vs)
      (s.setRunCounters c).finishTest .maxrun (maxrunPass c.maxlen)

end Sys2Proof.Machine
end

