-- ==== Sys2Proof/Machine/Monobit.lean ====
section
/-! DEFINITION. The monobit family: MONO and its frequency counter (42_monobit.md R100). The count is exact in Nat and
narrowed to the register (10_state.md R31). The functions `…In s n` are the pure functions of 00_scope.md R8. -/

namespace Sys2Proof.Machine

/-- The number of 1 bits of a bit sequence (42_monobit.md R101). -/
def countOnes (bits : List Bool) : Nat := bits.count true

/-- `popcount(v)`: the number of 1 bits of a block (00_scope.md R7). ONES over the blocks is the sum of these
(42_monobit.md R100, `countOnes_sequenceOf`). -/
def popcount (v : Block) : Nat := countOnes (bitsOf v)

/-- `(9654 <= ONES) and (ONES <= 10346)`, both inclusive (42_monobit.md R100). -/
def monoPass (n : Nat) : Bool := decide (Config.monoLo ≤ n) && decide (n ≤ Config.monoHi)

/-- `ones(s, N)` (42_monobit.md R101, 00_scope.md R8). -/
def onesIn (s : Nat → Bool) (n : Nat) : Nat := countOnes (prefixOf s n)

/-- `mono_pass(s, N)` (42_monobit.md R101); the bounds do not scale with N. -/
def monoPassIn (s : Nat → Bool) (n : Nat) : Bool := monoPass (onesIn s n)

/-- The frequency counter's register. -/
def State.setOnes (s : State) (n : Nat) : State := { s with ones := BitVec.ofNat 15 n }

/-- MONO (42_monobit.md R100, R101). -/
def execMono (s : State) : Result :=
  checkReady s (encode .mono) fun s =>
    withBlocks s fun vs =>
      let n := countOnes (sequenceOf vs)
      (s.setOnes n).finishTest .mono (monoPass n)

end Sys2Proof.Machine
end

