-- ==== Sys2Proof/Machine/Poker.lean ====
section
/-! DEFINITION. The poker family: POKER, its 16-bucket histogram and the exact chi-square combiner (44_poker.md R120,
R123). Counts are exact in Nat and narrowed to the registers (10_state.md R31). -/

namespace Sys2Proof.Machine

/-- `NIB <- ((NIB << 1) | bit) & 0xF` (44_poker.md R120); the 4-bit register is the mask. -/
def shiftNib (nib : BitVec 4) (b : Bool) : BitVec 4 := (nib <<< 1) ||| (if b then 1#4 else 0#4)

/-- The value of one poker block: the lower index is the more significant bit (44_poker.md R120). -/
def nibOf (b0 b1 b2 b3 : Bool) : BitVec 4 := shiftNib (shiftNib (shiftNib (shiftNib 0#4 b0) b1) b2) b3

/-- The poker blocks of a sequence, aligned to index 0 and not overlapping (44_poker.md R120). -/
def pokerGroups : List Bool → List (BitVec 4)
  | b0 :: b1 :: b2 :: b3 :: rest => nibOf b0 b1 b2 b3 :: pokerGroups rest
  | _ => []

/-- `HIST[NIB] <- HIST[NIB] + 1` (44_poker.md R120). -/
def tallyNib (h : Vector Nat 16) (v : BitVec 4) : Vector Nat 16 :=
  h.set v.toNat (h[v.toNat] + 1)

/-- The histogram of a bit sequence (44_poker.md R120, R122). -/
def pokerHist (bits : List Bool) : Vector Nat 16 :=
  (pokerGroups bits).foldl tallyNib (Vector.replicate 16 0)

/-- `SUMSQ <- SUMSQ + HIST[v] * HIST[v]` over the 16 buckets (44_poker.md R120). -/
def sumSquares (h : Vector Nat 16) : Nat := h.toList.foldl (fun a n => a + n * n) 0

/-- `XI3N <- 16 * SUMSQ - k * k` (44_poker.md R120, R126). It never goes below 0 where the buckets sum to k (R124). -/
def xi3Numerator (k sumsq : Nat) : Nat := 16 * sumsq - k * k

/-- `1.03 ≤ xi3 ≤ 57.4` for `xi3 = xi3n / k`, without dividing: `(103 × k ≤ 100 × xi3n) and (10 × xi3n ≤ 574 × k)`
(44_poker.md R123, R126). For k = 5000 it is R120's `(5150 <= XI3N) and (XI3N <= 287000)` (`pokerPass_pokerK`). -/
def pokerPass (k x : Nat) : Bool :=
  decide (Config.pokerLoNum * k ≤ Config.pokerLoDen * x) && decide (Config.pokerHiDen * x ≤ Config.pokerHiNum * k)

/-- `hist(s, N)`, for `N mod 4 = 0`; for other N the command faults (44_poker.md R126, R121, 00_scope.md R8). -/
def histIn (s : Nat → Bool) (n : Nat) : Vector Nat 16 := pokerHist (prefixOf s n)

/-- `sumsq` of a sequence (44_poker.md R126). -/
def sumsqIn (s : Nat → Bool) (n : Nat) : Nat := sumSquares (histIn s n)

/-- `xi3n = 16 × sumsq − k^2` of a sequence, with `k = N / 4` (44_poker.md R126). -/
def xi3nIn (s : Nat → Bool) (n : Nat) : Nat := xi3Numerator (n / Config.pokerM) (sumsqIn s n)

/-- `poker_pass` of a sequence, with `k = N / 4`; the bounds do not scale with N (44_poker.md R126). -/
def pokerPassIn (s : Nat → Bool) (n : Nat) : Bool := pokerPass (n / Config.pokerM) (xi3nIn s n)

/-- The poker unit's registers after the scan; NIB is cleared after each tally (44_poker.md R120, R122). -/
def State.setPoker (s : State) (h : Vector Nat 16) (sumsq x : Nat) : State :=
  { s with
    nib := 0#4
    hist := h.map (BitVec.ofNat 13)
    sumsq := BitVec.ofNat 25 sumsq
    xi3n := BitVec.ofNat 29 x }

/-- POKER (44_poker.md R120); the divisibility check never fires at 20000 (R121). -/
def execPoker (s : State) : Result :=
  checkReady s (encode .poker) fun s =>
    checkDivisible s Config.bitCount fun s =>
      withBlocks s fun vs =>
        let h := pokerHist (sequenceOf vs)
        let q := sumSquares h
        let x := xi3Numerator Config.pokerK q
        (s.setPoker h q x).finishTest .poker (pokerPass Config.pokerK x)

end Sys2Proof.Machine
end

