-- ==== Sys2Proof/Machine/RegisterRead.lean ====
section
/-! DEFINITION. The system family: RDREG (46_register_read.md R140), the one command a halted block still executes. -/

namespace Sys2Proof.Machine

/-- RDREG r (46_register_read.md R140): a mapped register answers whether or not the block is halted; an unmapped
number is answered `Halted` by a halted block and raises IllegalCommand otherwise. -/
def execRdreg (r : Nat) (s : State) : Result :=
  match regOf r with
  | some reg => .next (s.respond .ok (s.regValue reg))
  | none => unlessHalted s fun s => .next (s.raiseFault .illegalCommand (encode (.rdreg r)))

end Sys2Proof.Machine
end

