-- ==== Sys2Proof/Machine/RunLength.lean ====
section
/-! DEFINITION. The run-length family: RUNS and its 6-bucket histogram of 0-terminated runs of 1s (45_run_length.md
R130). Counts are exact in Nat and narrowed to the registers (10_state.md R31). -/

namespace Sys2Proof.Machine

/-- The registers of the scan; entry b − 1 of `cnt` is bucket b. -/
structure OnesScan where
  cur : Nat
  cnt : Vector Nat 6
  deriving DecidableEq, Repr

/-- The bucket of a run of 1s, `min(CUR, 6)`, as an index from 0 (45_run_length.md R133). -/
def bucketOf (len : Nat) : Nat := min len 6 - 1

/-- `CNT[min(CUR, 6)] <- CNT[min(CUR, 6)] + 1` (45_run_length.md R130). -/
def tallyRun (cnt : Vector Nat 6) (len : Nat) : Vector Nat 6 :=
  cnt.set (bucketOf len) (cnt[bucketOf len]'(by unfold bucketOf; omega) + 1) (by unfold bucketOf; omega)

/-- One bit: a 1 lengthens the run, a 0 tallies a run of at least one 1 and clears it (45_run_length.md R130). -/
def scanOnes (c : OnesScan) (b : Bool) : OnesScan :=
  if b then { c with cur := c.cur + 1 }
  else if 1 ≤ c.cur then { cur := 0, cnt := tallyRun c.cnt c.cur }
  else { c with cur := 0 }

/-- The scan of a bit sequence, ascending; a run still open at the end is not counted (45_run_length.md R130, R131). -/
def scanOneRuns (bits : List Bool) : OnesScan :=
  bits.foldl scanOnes { cur := 0, cnt := Vector.replicate 6 0 }

/-- `RUN_LO[b] <= CNT[b] and CNT[b] <= RUN_HI[b]` (45_run_length.md R132). -/
def bucketPass (cnt : Vector Nat 6) (b : Fin 6) : Bool :=
  decide ((Config.runLo.get b).toNat ≤ cnt.get b) && decide (cnt.get b ≤ (Config.runHi.get b).toNat)

/-- The verdict: every bucket inside its own bounds (45_run_length.md R132). -/
def runsPass (cnt : Vector Nat 6) : Bool := (List.finRange 6).all (bucketPass cnt)

/-- The open run and `cnt(s, N)` after the scan of a sequence s of length n (45_run_length.md R135, 00_scope.md R8). -/
def oneRunsIn (s : Nat → Bool) (n : Nat) : OnesScan := scanOneRuns (prefixOf s n)

/-- `runs_pass(s, N)` (45_run_length.md R135); the bounds do not scale with N. -/
def runsPassIn (s : Nat → Bool) (n : Nat) : Bool := runsPass (oneRunsIn s n).cnt

/-- The run-length unit's registers. -/
def State.setOneRunCounters (s : State) (c : OnesScan) : State :=
  { s with
    cur := BitVec.ofNat 15 c.cur
    cnt := c.cnt.map (BitVec.ofNat 14) }

/-- RUNS (45_run_length.md R130). -/
def execRuns (s : State) : Result :=
  checkReady s (encode .runs) fun s =>
    withBlocks s fun vs =>
      let c := scanOneRuns (sequenceOf vs)
      (s.setOneRunCounters c).finishTest .runs (runsPass c.cnt)

end Sys2Proof.Machine
end

