-- ==== Sys2Proof/Machine/Dispatch.lean ====
section
/-! DEFINITION. exec: one arm per command (30_encoding.md R70). -/

namespace Sys2Proof.Machine

def exec (i : Instr) (s : State) : Host.Outcome State Fault Refusal :=
  match i with
  | .gen => Sys2Proof.Machine.execGen s
  | .mono => Sys2Proof.Machine.execMono s
  | .maxrun => Sys2Proof.Machine.execMaxrun s
  | .poker => Sys2Proof.Machine.execPoker s
  | .runs => Sys2Proof.Machine.execRuns s
  | .getbit idx => Sys2Proof.Machine.execGetbit idx s
  | .rdblk j => Sys2Proof.Machine.execRdblk j s
  | .rdreg r => Sys2Proof.Machine.execRdreg r s

end Sys2Proof.Machine
end

