-- ==== Sys2Proof/Machine/Step.lean ====
section
/-! DEFINITION. One step: the host's next event (30_encoding.md R60, R70, 70_reset_and_hazards.md R180). TRB fetches
nothing (10_state.md R12); a command word comes from the port. -/

namespace Sys2Proof.Machine

/-- One accepted word (30_encoding.md R70: decode, check, execute). -/
def runWord (w : Word) (s : State) : Result :=
  match decode w with
  | .command i => exec i s
  | .illegal _ => illegalWord w s

/-- One step of the machine: one event of the host, or nothing while the port is empty. -/
def step (s : State) : Host.Outcome State Fault Refusal :=
  match s.port with
  | [] => .next s.idle
  | .command w :: rest => runWord w (s.withPort rest)
  | .reset :: rest => .next (resetEvent rest)
  | .resetDuring _ :: rest => .next (resetEvent rest)

/-- The state in which the host presents a row's word next (log entry 9). -/
def State.withFetchWord (s : State) (nbits w : Nat) : State := s.withPort (.command (tableWord nbits w) :: s.port)

end Sys2Proof.Machine
end

