-- ==== Sys2Proof/Safety.lean ====
section
/-! DEFINITION. What counts as a good state and a safe run (70_reset_and_hazards.md R192, 10_state.md R10), and the terms
the statements use: the bits and runs of a sequence in the spec's own words (00_scope.md R8), the closed form of the
generated sequence (40_generator.md R85), and the invariants. -/

namespace Sys2Proof.Machine

/-! ### The state as the host may rely on it -/

/-- A good state: `FAULT = 0` (70_reset_and_hazards.md R192). -/
def State.good (s : State) : Prop := s.fault = 0#4

/-- Every block of the bit memory has a value: a completed construction (10_state.md R16). -/
def Memory.complete (m : Memory) : Prop := ∀ j, j < 625 → (m.readBlock j).isSome = true

/-- A test, GETBIT or RDBLK may run: not halted, constructed (60_exceptions.md R151). -/
def State.ready (s : State) : Prop := s.good ∧ s.valid = true ∧ s.mem.complete

/-- `BitRead(idx)` (20_memory.md R42), false where the block has no value. -/
def State.bitRead (s : State) (idx : Nat) : Bool :=
  match s.mem.readBlock (idx / 32) with
  | some v => v.getLsbD (idx % 32)
  | none => false

/-- The register numbers of the map (10_state.md R24). -/
def registerMapped (r : Nat) : Prop :=
  r ≤ 0x0A ∨ (0x10 ≤ r ∧ r ≤ 0x1F) ∨ (0x21 ≤ r ∧ r ≤ 0x26) ∨ (0x31 ≤ r ∧ r ≤ 0x36) ∨
    (0x41 ≤ r ∧ r ≤ 0x46) ∨ r = 0x50 ∨ r = 0x51

/-- The four test commands, each with the unit it belongs to (10_state.md R17). -/
inductive IsTest : Instr → TestUnit → Prop where
  | mono : IsTest .mono .mono
  | maxrun : IsTest .maxrun .maxrun
  | poker : IsTest .poker .poker
  | runs : IsTest .runs .runs

/-- A sequence of completed tests in any order and with any repetition, the last one first, from a state to a state
(70_reset_and_hazards.md R187). -/
inductive TestsRun (s : State) : List TestUnit → State → Prop where
  | nil : TestsRun s [] s
  | cons {us : List TestUnit} {i : Instr} {u : TestUnit} {t t' : State} (before : TestsRun s us t) (test : IsTest i u)
      (runs : exec i t = .next t') : TestsRun s (u :: us) t'

/-- The six commands that need `VALID` (10_state.md R16). -/
inductive NeedsValid : Instr → Prop where
  | mono : NeedsValid .mono
  | maxrun : NeedsValid .maxrun
  | poker : NeedsValid .poker
  | runs : NeedsValid .runs
  | getbit (idx : Nat) : NeedsValid (.getbit idx)
  | rdblk (j : Nat) : NeedsValid (.rdblk j)

/-! ### Runs of a sequence -/

/-- The indices `a` to `a + len − 1` are a run: a maximal subsequence of consecutive equal bits (00_scope.md R9). -/
def IsRun (bit : Nat → Bool) (n a len : Nat) : Prop :=
  1 ≤ len ∧ a + len ≤ n ∧ (∀ i, a ≤ i → i < a + len → bit i = bit a) ∧
    (a = 0 ∨ bit (a - 1) ≠ bit a) ∧ (a + len = n ∨ bit (a + len) ≠ bit a)

/-- `len` is the length of the run of bits equal to `b` that ends at the last index (43_longest_run.md R112); 0 where the
last bit is not `b`. -/
def IsTrailing (bit : Nat → Bool) (b : Bool) (n len : Nat) : Prop :=
  len ≤ n ∧ (∀ i, n - len ≤ i → i < n → bit i = b) ∧ (len = n ∨ bit (n - len - 1) ≠ b)

/-- The indices `a` to `e` are a run of 1s that a 0 ends and that falls into bucket `b` (45_run_length.md R135). -/
abbrev IsTerminatedRun (bit : Nat → Bool) (n b a e : Nat) : Prop :=
  a ≤ e ∧ e + 1 < n ∧ (∀ i ∈ Finset.Icc a e, bit i = true) ∧ bit (e + 1) = false ∧
    (a = 0 ∨ bit (a - 1) = false) ∧ min (e - a + 1) 6 = b

/-- The number of 0-terminated runs of 1s in bucket `b` (45_run_length.md R135). -/
def terminatedRuns (bit : Nat → Bool) (n b : Nat) : Nat :=
  ((Finset.range n ×ˢ Finset.range n).filter fun p => IsTerminatedRun bit n b p.1 p.2).card

/-- The number of 1 bits (42_monobit.md R101). -/
def onesUpTo (bit : Nat → Bool) (n : Nat) : Nat := ((Finset.range n).filter fun i => bit i = true).card

/-- The value of poker block `q` (44_poker.md R120). -/
def pokerValue (bit : Nat → Bool) (q : Nat) : Nat :=
  8 * (bit (4 * q)).toNat + 4 * (bit (4 * q + 1)).toNat + 2 * (bit (4 * q + 2)).toNat + (bit (4 * q + 3)).toNat

/-- The number of poker blocks among the first `k` with value `v` (44_poker.md R122, R126). -/
def pokerCount (bit : Nat → Bool) (k v : Nat) : Nat := ((Finset.range k).filter fun q => pokerValue bit q = v).card

/-! ### The generated sequence in closed form -/

/-- `s_0 = 871246`, `s_t = (134775813 × s_(t−1) + 1) mod 2^32` (40_generator.md R85). -/
def lcgState : Nat → Nat
  | 0 => 871246
  | t + 1 => (134775813 * lcgState t + 1) % 4294967296

/-- `byte_t = s_t[23:16]` (40_generator.md R85). -/
def lcgByte (t : Nat) : Nat := lcgState t / 65536 % 256

/-- Block j of the generated sequence (40_generator.md R85). -/
def refBlock (j : Nat) : Block :=
  BitVec.ofNat 32 (lcgByte (4 * j + 1) * 2 ^ 24 + lcgByte (4 * j + 2) * 2 ^ 16 + lcgByte (4 * j + 3) * 2 ^ 8 +
    lcgByte (4 * j + 4))

/-- All blocks of the generated sequence. Irreducible, so that the elaborator never computes the 2500 states by itself. -/
@[irreducible] def refBlocks : List Block := (List.range 625).map refBlock

/-! ### Invariants -/

/-- What every step keeps, from any state: the canonical memory, a construction behind VALID, and the reachable values
of 10_state.md R10. -/
structure State.Inv (s : State) : Prop where
  mem_wf : s.mem.wf = true
  complete : s.valid = true → s.mem.complete
  seed_lt : s.seed.toNat < 2 ^ 32
  fault_le : s.fault.toNat ≤ 4
  done_valid : s.valid = false → s.done = 0#4
  verdict_done : s.verdict &&& ~~~s.done = 0#4
  ones_le : s.ones.toNat ≤ 20000
  run1_le : s.run1.toNat ≤ s.maxlen.toNat
  run0_le : s.run0.toNat ≤ s.maxlen.toNat
  maxlen_le : s.maxlen.toNat ≤ 20000
  nib_zero : s.nib = 0#4
  hist_sum : (s.hist.map BitVec.toNat).sum = 0 ∨ (s.hist.map BitVec.toNat).sum = 5000
  sumsq_eq : s.sumsq.toNat = sumSquares (s.hist.map BitVec.toNat)
  sumsq_le : s.sumsq.toNat ≤ 25000000
  xi3n_eq : s.xi3n.toNat = xi3Numerator 5000 s.sumsq.toNat
  cur_le : s.cur.toNat ≤ 20000
  cnt_le : (s.cnt.map BitVec.toNat).sum ≤ 10000

/-- What the host finds after any commands: a construction is the generated sequence, and the registers and the verdict
of every test that is done are those of that sequence (10_state.md R29, 40_generator.md R83). -/
structure State.RefInv (s : State) : Prop where
  sequence : s.valid = true → ∀ j, j < 625 → s.mem.readBlock j = some (refBlock j)
  done_valid : s.done ≠ 0#4 → s.valid = true
  mono_done : s.done.getLsbD 0 = true →
    s.ones = BitVec.ofNat 15 (countOnes (sequenceOf refBlocks)) ∧ s.verdict.getLsbD 0 = monoPass (countOnes (sequenceOf refBlocks))
  maxrun_done : s.done.getLsbD 1 = true →
    s.maxlen = BitVec.ofNat 15 (scanRuns (sequenceOf refBlocks)).maxlen ∧
      s.run1 = BitVec.ofNat 15 (scanRuns (sequenceOf refBlocks)).run1 ∧
      s.run0 = BitVec.ofNat 15 (scanRuns (sequenceOf refBlocks)).run0 ∧
      s.verdict.getLsbD 1 = maxrunPass (scanRuns (sequenceOf refBlocks)).maxlen
  poker_done : s.done.getLsbD 2 = true →
    s.hist = (pokerHist (sequenceOf refBlocks)).map (BitVec.ofNat 13) ∧
      s.sumsq = BitVec.ofNat 25 (sumSquares (pokerHist (sequenceOf refBlocks))) ∧
      s.xi3n = BitVec.ofNat 29 (xi3Numerator 5000 (sumSquares (pokerHist (sequenceOf refBlocks)))) ∧
      s.verdict.getLsbD 2 = pokerPass 5000 (xi3Numerator 5000 (sumSquares (pokerHist (sequenceOf refBlocks))))
  runs_done : s.done.getLsbD 3 = true →
    s.cur = BitVec.ofNat 15 (scanOneRuns (sequenceOf refBlocks)).cur ∧
      s.cnt = (scanOneRuns (sequenceOf refBlocks)).cnt.map (BitVec.ofNat 14) ∧
      s.verdict.getLsbD 3 = runsPass (scanOneRuns (sequenceOf refBlocks)).cnt

/-! ### What the host can tell apart -/

/-- Two states the host cannot tell apart: all it can read is equal, and the bit memory is equal once constructed. SEED,
BLK and the memory behind `VALID = 0` may differ (10_state.md R28, R30). -/
structure State.SameToHost (s s' : State) : Prop where
  mem : s.valid = true → ∀ j, j < 625 → s.mem.readBlock j = s'.mem.readBlock j
  rest : s' = { s with seed := s'.seed, blk := s'.blk, mem := s'.mem }

/-- A safe run of `n` steps: every step answers a next state, and no state on the way is halted. -/
def State.safeRun : Nat → State → Prop
  | 0, s => s.good
  | n + 1, s => s.good ∧ ∃ t, step s = .next t ∧ State.safeRun n t

end Sys2Proof.Machine
end

