-- ==== Sys2Proof/Certificates/Slice0/Obligations.lean ====
section
/-! DEFINITION. The statements for the provers. Every next state is given as a record update of the state before it, so
what a command leaves unchanged is stated with what it does: every field not named is as it was. -/

open Sys2Proof Sys2Proof.Machine

/-! ### Encoding and decoding -/

/-- 30_encoding.md R60, R62, R63: decoding the word of any well-formed command gives the command back, with every
operand at every value of the 28-bit field. -/
def Obligations.DecodeOfEncodeIsTheCommand : Prop :=
  ∀ i : Instr, i.wellFormed = true → decode (encode i) = .command i

/-- 30_encoding.md R60, R62, R64: a word that decodes to a command is that command's only word. -/
def Obligations.EncodeOfDecodeIsTheWord : Prop :=
  ∀ (w : Word) (i : Instr), decode w = .command i → i.wellFormed = true ∧ encode i = w

/-- 30_encoding.md R65: the decode function, written over the word as the number `OP × 2^28 + ARG`. -/
def Obligations.DecodeFollowsTheOpcodeMap : Prop :=
  ∀ w : Word,
    let op := w.toNat / 2 ^ 28
    let arg := w.toNat % 2 ^ 28
    (op = 0x1 → arg = 0 → decode w = .command .gen) ∧
    (op = 0x2 → arg = 0 → decode w = .command .mono) ∧
    (op = 0x3 → arg = 0 → decode w = .command .maxrun) ∧
    (op = 0x4 → arg = 0 → decode w = .command .poker) ∧
    (op = 0x5 → arg = 0 → decode w = .command .runs) ∧
    (1 ≤ op → op ≤ 5 → arg ≠ 0 → ∃ why, decode w = .illegal why) ∧
    (op = 0x6 → decode w = .command (.getbit arg)) ∧
    (op = 0x7 → decode w = .command (.rdblk arg)) ∧
    (op = 0x8 → decode w = .command (.rdreg arg)) ∧
    (op = 0 ∨ 9 ≤ op → ∃ why, decode w = .illegal why)

/-- 30_encoding.md R62 and 95_test_vectors.md V9: the words of the spec's decode table. -/
def Obligations.SpecWordsDecodeAsListed : Prop :=
  decode 0x10000000#32 = .command .gen ∧ decode 0x20000000#32 = .command .mono ∧
  decode 0x30000000#32 = .command .maxrun ∧ decode 0x40000000#32 = .command .poker ∧
  decode 0x50000000#32 = .command .runs ∧ decode 0x60004E20#32 = .command (.getbit 20000) ∧
  decode 0x70000270#32 = .command (.rdblk 624) ∧ decode 0x80000050#32 = .command (.rdreg 0x50) ∧
  (decode 0x00000000#32).instr? = none ∧ (decode 0xFFFFFFFF#32).instr? = none ∧
  (decode 0x10000001#32).instr? = none ∧ (decode 0x2FFFFFFF#32).instr? = none

/-! ### The step -/

/-- 30_encoding.md R70, 60_exceptions.md R151: a step at a port whose next event is a command word that decodes to `i`
is `exec i` at the state with that event taken off the port. The port is the model's own (log entry 1). -/
def Obligations.StepRunsTheDecodedCommand : Prop :=
  ∀ (s : State) (w : Word) (rest : List PortEvent) (i : Instr),
    s.port = .command w :: rest → decode w = .command i → step s = exec i { s with port := rest }

/-- 60_exceptions.md R151 step 2, R150: a word that is no command latches IllegalCommand with the word, and the word is
the response value. The port is the model's own (log entry 1). -/
def Obligations.IllegalWordRaisesIllegalCommand : Prop :=
  ∀ (s : State) (w : Word) (rest : List PortEvent) (why : IllegalReason),
    s.port = .command w :: rest → decode w = .illegal why → s.fault = 0#4 →
      step s = .next { s with port := rest, fault := 1#4, finfo := w, rsp := some ⟨.illegalCommand, w⟩ }

/-- 60_exceptions.md R170, 30_encoding.md R61: with no command presented the block retains all state and gives no
response. That no event is on the port is the model's form of it (log entry 1). -/
def Obligations.IdleBlockRetainsAllState : Prop :=
  ∀ s : State, s.port = [] → step s = .next { s with rsp := none }

/-- 70_reset_and_hazards.md R180, R188: a reset, also one that arrives while a command runs, gives no response, takes
the command away and loads the reset values of 10_state.md R30, whatever the state was. SEED, BLK and the memory, which
R30 leaves unspecified, are not mentioned. The two reset events are the model's form of the input (log entry 6). -/
def Obligations.ResetEventLoadsTheResetValues : Prop :=
  ∀ (s : State) (rest : List PortEvent),
    (s.port = .reset :: rest ∨ ∃ w, s.port = .resetDuring w :: rest) →
      ∃ t, step s = .next t ∧ t.valid = false ∧ t.fault = 0#4 ∧ t.finfo = 0#32 ∧ t.done = 0#4 ∧ t.verdict = 0#4 ∧
        t.ones = 0#15 ∧ t.run1 = 0#15 ∧ t.run0 = 0#15 ∧ t.maxlen = 0#15 ∧ t.nib = 0#4 ∧
        (∀ v : Fin 16, t.hist.get v = 0#13) ∧ t.sumsq = 0#25 ∧ t.xi3n = 0#29 ∧ t.cur = 0#15 ∧
        (∀ b : Fin 6, t.cnt.get b = 0#14) ∧ t.rsp = none ∧ t.port = rest

/-- 10_state.md R30, 70_reset_and_hazards.md R181: the machine starts at the reset values, with no response given. -/
def Obligations.MachineStartsAtTheResetValues : Prop :=
  State.reset.valid = false ∧ State.reset.fault = 0#4 ∧ State.reset.finfo = 0#32 ∧ State.reset.done = 0#4 ∧
  State.reset.verdict = 0#4 ∧ State.reset.ones = 0#15 ∧ State.reset.run1 = 0#15 ∧ State.reset.run0 = 0#15 ∧
  State.reset.maxlen = 0#15 ∧ State.reset.nib = 0#4 ∧ (∀ v : Fin 16, State.reset.hist.get v = 0#13) ∧
  State.reset.sumsq = 0#25 ∧ State.reset.xi3n = 0#29 ∧ State.reset.cur = 0#15 ∧
  (∀ b : Fin 6, State.reset.cnt.get b = 0#14) ∧ State.reset.rsp = none

/-! ### Halting and faults -/

/-- 60_exceptions.md R153: while FAULT is not 0 every accepted word, command or not, other than RDREG of a mapped
register is answered `(Halted, zext_32(FAULT))` and changes no state at all. -/
def Obligations.HaltedBlockRefusesEveryOtherWord : Prop :=
  ∀ (s : State) (w : Word), s.fault ≠ 0#4 → (∀ r, registerMapped r → decode w ≠ .command (.rdreg r)) →
    runWord w s = .next { s with rsp := some ⟨.halted, s.fault.setWidth 32⟩ }

/-- 60_exceptions.md R153, 70_reset_and_hazards.md R191: a halted block answers every accepted word and keeps all of its
state, so FAULT and FINFO hold the first fault. -/
def Obligations.HaltedBlockAnswersAndKeepsItsState : Prop :=
  ∀ (s : State) (w : Word), s.fault ≠ 0#4 → ∃ r, runWord w s = .next { s with rsp := some r }

/-- 60_exceptions.md R154: only the reset input leaves the halted state, and it clears VALID too. The port is
the model's own (log entries 1 and 6). -/
def Obligations.OnlyResetLeavesTheHaltedState : Prop :=
  ∀ s t : State, step s = .next t → s.fault ≠ 0#4 → t.fault = 0#4 →
    (∃ rest, s.port = .reset :: rest ∨ ∃ w, s.port = .resetDuring w :: rest) ∧ t.valid = false

/-- 10_state.md R16: nothing clears VALID but reset, and nothing sets it but GEN on a block that is not halted. The port
is the model's own (log entries 1 and 6). -/
def Obligations.ValidIsSetByGenAndClearedByReset : Prop :=
  ∀ s t : State, step s = .next t →
    (s.valid = true → t.valid = false → ∃ rest, s.port = .reset :: rest ∨ ∃ w, s.port = .resetDuring w :: rest) ∧
    (s.valid = false → t.valid = true → s.fault = 0#4 ∧ ∃ w rest, s.port = .command w :: rest ∧ decode w = .command .gen)

/-- 60_exceptions.md R152, R150: a command that faults writes FAULT with a cause code 1 to 4, FINFO with the
information word and the response, whose status has the same code and whose value is the same word, and nothing else. -/
def Obligations.FaultsArePrecise : Prop :=
  ∀ (i : Instr) (s t : State), exec i s = .next t → s.fault = 0#4 → t.fault ≠ 0#4 →
    ∃ (st : Status) (info : Word),
      t = { s with fault := st.code, finfo := info, rsp := some ⟨st, info⟩ } ∧
        1 ≤ st.code.toNat ∧ st.code.toNat ≤ 4

/-- 60_exceptions.md R156: which command can raise what. -/
def Obligations.CommandsRaiseOnlyTheirFaults : Prop :=
  ∀ (i : Instr) (s t : State), exec i s = .next t → s.fault = 0#4 →
    match i with
    | .gen => t.fault = 0#4
    | .mono => t.fault = 0#4 ∨ t.fault = 4#4
    | .maxrun => t.fault = 0#4 ∨ t.fault = 4#4
    | .poker => t.fault = 0#4 ∨ t.fault = 4#4
    | .runs => t.fault = 0#4 ∨ t.fault = 4#4
    | .getbit _ => t.fault = 0#4 ∨ t.fault = 2#4 ∨ t.fault = 4#4
    | .rdblk _ => t.fault = 0#4 ∨ t.fault = 2#4 ∨ t.fault = 4#4
    | .rdreg _ => t.fault = 0#4 ∨ t.fault = 1#4

/-- 10_state.md R16, 60_exceptions.md R150, R151 step 4: while VALID is 0 the six commands that read the sequence raise
NotGenerated with the command word, whatever their index is. -/
def Obligations.ReadsBeforeGenRaiseNotGenerated : Prop :=
  ∀ (i : Instr) (s : State), NeedsValid i → s.fault = 0#4 → s.valid = false →
    exec i s = .next { s with fault := 4#4, finfo := encode i, rsp := some ⟨.notGenerated, encode i⟩ }

/-- 44_poker.md R121: the divisibility check of POKER, with BIT_COUNT as an argument, raises ConfigAssert with
`BIT_COUNT mod 4` exactly where that is not 0, and goes on otherwise. -/
def Obligations.PokerDivisibilityCheck : Prop :=
  ∀ (bitCount : Nat) (s : State) (body : State → Result),
    (bitCount % 4 ≠ 0 → checkDivisible s bitCount body = .next
      { s with fault := 3#4, finfo := BitVec.ofNat 32 (bitCount % 4), rsp := some ⟨.configAssert, BitVec.ofNat 32 (bitCount % 4)⟩ }) ∧
    (bitCount % 4 = 0 → checkDivisible s bitCount body = body s)

/-! ### The generator -/

/-- 40_generator.md R82: the fold stage is a no-op, and the byte NEXTBYTE emits is bits 23:16 of the new state. -/
def Obligations.FoldStageIsANoOp : Prop :=
  (∀ b : Byte, foldByte b = b) ∧ ∀ seed : BitVec 64, emitByte seed = seed.extractLsb' 16 8

/-- 40_generator.md R84: SEED is below 2^32 at the start and after every update, so the 64-bit register never overflows
on the product, and the update is the 32-bit multiply-add that discards the carry. -/
def Obligations.SeedUpdateNeverOverflows : Prop :=
  Config.seedInit.toNat < 2 ^ 32 ∧
  ∀ seed : BitVec 64, seed.toNat < 2 ^ 32 →
    134775813 * seed.toNat + 1 ≤ 134775813 * (2 ^ 32 - 1) + 1 ∧ 134775813 * (2 ^ 32 - 1) + 1 < 2 ^ 64 ∧
    (nextSeed seed).toNat < 2 ^ 32 ∧
    (nextSeed seed).toNat = (134775813 * seed.toNat + 1) % 2 ^ 32 ∧
    (nextSeed seed).setWidth 32 = 0x08088405#32 * seed.setWidth 32 + 1#32

/-- 40_generator.md R80: on a block that is not halted GEN completes, answers `(OK, 0)`, sets VALID, leaves SEED at the
2500th state and BLK at the last block, writes no cell outside the 625 blocks and touches nothing else. -/
def Obligations.GenCompletes : Prop :=
  ∀ s : State, s.fault = 0#4 →
    ∃ t, exec .gen s = .next t ∧
      t = { s with seed := t.seed, blk := t.blk, mem := t.mem, valid := true, rsp := some ⟨.ok, 0#32⟩ } ∧
      t.seed.toNat = lcgState 2500 ∧ t.blk = refBlock 624 ∧ t.mem.complete ∧
      ∀ a, 2500 ≤ a → t.mem.readByte a = s.mem.readByte a

/-- 40_generator.md R85: after GEN block j is `{byte_(4j+1), byte_(4j+2), byte_(4j+3), byte_(4j+4)}` and bit i is bit
`16 + q` of state `4 j + m + 1`, with `j = i / 32`, `p = i mod 32`, `m = 3 − p / 8`, `q = p mod 8`. -/
def Obligations.GenFillsTheMemoryInClosedForm : Prop :=
  ∀ s : State, s.fault = 0#4 →
    ∃ t, exec .gen s = .next t ∧
      (∀ j, j < 625 → ∃ v, t.mem.readBlock j = some v ∧
        v.toNat = lcgByte (4 * j + 1) * 2 ^ 24 + lcgByte (4 * j + 2) * 2 ^ 16 + lcgByte (4 * j + 3) * 2 ^ 8 +
          lcgByte (4 * j + 4)) ∧
      ∀ i, i < 20000 →
        t.bitRead i = (lcgState (4 * (i / 32) + (3 - i % 32 / 8) + 1)).testBit (16 + i % 32 % 8)

/-- 40_generator.md R83: every completed GEN leaves the same 625 blocks, those of R85, whatever the state before it; the
first six and the last are the spec's. -/
def Obligations.EveryGenLeavesTheSameBlocks : Prop :=
  ∀ s s' t t' : State, s.fault = 0#4 → s'.fault = 0#4 → exec .gen s = .next t → exec .gen s' = .next t' →
    (∀ j, j < 625 → t.mem.readBlock j = t'.mem.readBlock j ∧ t.mem.readBlock j = some (refBlock j)) ∧
    t.mem.readBlock 0 = some 0x86DF07CE#32 ∧ t.mem.readBlock 1 = some 0xA6F8B5E1#32 ∧
    t.mem.readBlock 2 = some 0x24D8E8AF#32 ∧ t.mem.readBlock 3 = some 0x08522C2B#32 ∧
    t.mem.readBlock 4 = some 0xF7559C08#32 ∧ t.mem.readBlock 5 = some 0x65C82C37#32 ∧
    t.mem.readBlock 624 = some 0xA2009520#32

/-- 70_reset_and_hazards.md R184, 40_generator.md R83: a second GEN changes nothing, in a canonical memory (log entry 3). -/
def Obligations.SecondGenChangesNothing : Prop :=
  ∀ s t : State, s.mem.wf = true → s.fault = 0#4 → exec .gen s = .next t → exec .gen t = .next t

/-! ### The bit memory -/

/-- 20_memory.md R41: in a complete memory the sequence has 20000 bits, bit i of it is bit `i mod 32` of block `i / 32`,
and a block is the sum of its bits times powers of two. -/
def Obligations.BitAddressing : Prop :=
  ∀ (m : Memory) (vs : List Block), m.readBlocks 0 625 = some vs →
    (sequenceOf vs).length = 20000 ∧
    (∀ i, i < 20000 → ∃ v, m.readBlock (i / 32) = some v ∧ (sequenceOf vs)[i]? = some (v.getLsbD (i % 32))) ∧
    ∀ j, j < 625 → ∃ v, m.readBlock j = some v ∧
      v.toNat = ∑ p ∈ Finset.range 32, ((sequenceOf vs).getD (32 * j + p) false).toNat * 2 ^ p

/-- 10_state.md R15, 20_memory.md R46: only GEN writes the bit memory; every other command leaves every byte as it was. -/
def Obligations.OnlyGenWritesTheBitMemory : Prop :=
  ∀ (i : Instr) (s t : State), i ≠ .gen → exec i s = .next t → ∀ a, t.mem.readByte a = s.mem.readByte a

/-! ### Read-out -/

/-- 41_bit_access.md R90: GETBIT, with its checks in order, and the worked example after GEN. -/
def Obligations.GetbitAnswersTheBit : Prop :=
  (∀ (s : State) (idx : Nat), idx < 2 ^ 28 →
    (s.fault ≠ 0#4 → exec (.getbit idx) s = .next { s with rsp := some ⟨.halted, s.fault.setWidth 32⟩ }) ∧
    (s.fault = 0#4 → s.valid = false → exec (.getbit idx) s = .next
      { s with fault := 4#4, finfo := BitVec.ofNat 32 (0x60000000 + idx), rsp := some ⟨.notGenerated, BitVec.ofNat 32 (0x60000000 + idx)⟩ }) ∧
    (s.fault = 0#4 → s.valid = true → 20000 ≤ idx → exec (.getbit idx) s = .next
      { s with fault := 2#4, finfo := BitVec.ofNat 32 idx, rsp := some ⟨.indexOutOfBounds, BitVec.ofNat 32 idx⟩ }) ∧
    (s.fault = 0#4 → s.valid = true → idx < 20000 → ∀ v, s.mem.readBlock (idx / 32) = some v →
      exec (.getbit idx) s = .next { s with rsp := some ⟨.ok, (v >>> (idx % 32)) &&& 1#32⟩ })) ∧
  ∀ s t : State, s.fault = 0#4 → exec .gen s = .next t →
    exec (.getbit 0) t = .next { t with rsp := some ⟨.ok, 0#32⟩ } ∧
    exec (.getbit 1) t = .next { t with rsp := some ⟨.ok, 1#32⟩ } ∧
    exec (.getbit 31) t = .next { t with rsp := some ⟨.ok, 1#32⟩ } ∧
    exec (.getbit 20000) t = .next
      { t with fault := 2#4, finfo := 0x00004E20#32, rsp := some ⟨.indexOutOfBounds, 0x00004E20#32⟩ }

/-- 41_bit_access.md R91: RDBLK, with its checks in order, and the worked example after GEN. -/
def Obligations.RdblkAnswersTheBlock : Prop :=
  (∀ (s : State) (j : Nat), j < 2 ^ 28 →
    (s.fault ≠ 0#4 → exec (.rdblk j) s = .next { s with rsp := some ⟨.halted, s.fault.setWidth 32⟩ }) ∧
    (s.fault = 0#4 → s.valid = false → exec (.rdblk j) s = .next
      { s with fault := 4#4, finfo := BitVec.ofNat 32 (0x70000000 + j), rsp := some ⟨.notGenerated, BitVec.ofNat 32 (0x70000000 + j)⟩ }) ∧
    (s.fault = 0#4 → s.valid = true → 625 ≤ j → exec (.rdblk j) s = .next
      { s with fault := 2#4, finfo := BitVec.ofNat 32 j, rsp := some ⟨.indexOutOfBounds, BitVec.ofNat 32 j⟩ }) ∧
    (s.fault = 0#4 → s.valid = true → j < 625 → ∀ v, s.mem.readBlock j = some v →
      exec (.rdblk j) s = .next { s with rsp := some ⟨.ok, v⟩ })) ∧
  ∀ s t : State, s.fault = 0#4 → exec .gen s = .next t →
    exec (.rdblk 0) t = .next { t with rsp := some ⟨.ok, 0x86DF07CE#32⟩ } ∧
    exec (.rdblk 624) t = .next { t with rsp := some ⟨.ok, 0xA2009520#32⟩ }

/-- 41_bit_access.md R92, 20_memory.md R44: on a constructed block both reads succeed and agree, bit p of the block's
answer with the answer for bit `32 j + p`; neither changes anything but the response. -/
def Obligations.BlockAndBitReadsAgree : Prop :=
  ∀ (s : State) (j p : Nat), s.ready → j < 625 → p < 32 →
    ∃ v b : Word, exec (.rdblk j) s = .next { s with rsp := some ⟨.ok, v⟩ } ∧
      exec (.getbit (32 * j + p)) s = .next { s with rsp := some ⟨.ok, b⟩ } ∧ b.toNat = (v.getLsbD p).toNat

/-- 46_register_read.md R140, 10_state.md R24: RDREG of a mapped register answers its value zero-extended, halted or
not, constructed or not, and changes nothing but the response. -/
def Obligations.RdregReadsTheRegisterMap : Prop :=
  ∀ s : State,
    exec (.rdreg 0x01) s = .next { s with rsp := some ⟨.ok, s.fault.setWidth 32⟩ } ∧
    exec (.rdreg 0x02) s = .next { s with rsp := some ⟨.ok, s.finfo⟩ } ∧
    exec (.rdreg 0x03) s = .next { s with rsp := some ⟨.ok, s.ones.setWidth 32⟩ } ∧
    exec (.rdreg 0x04) s = .next { s with rsp := some ⟨.ok, s.maxlen.setWidth 32⟩ } ∧
    exec (.rdreg 0x05) s = .next { s with rsp := some ⟨.ok, s.run1.setWidth 32⟩ } ∧
    exec (.rdreg 0x06) s = .next { s with rsp := some ⟨.ok, s.run0.setWidth 32⟩ } ∧
    exec (.rdreg 0x07) s = .next { s with rsp := some ⟨.ok, s.sumsq.setWidth 32⟩ } ∧
    exec (.rdreg 0x08) s = .next { s with rsp := some ⟨.ok, s.xi3n.setWidth 32⟩ } ∧
    exec (.rdreg 0x09) s = .next { s with rsp := some ⟨.ok, s.nib.setWidth 32⟩ } ∧
    exec (.rdreg 0x0A) s = .next { s with rsp := some ⟨.ok, s.cur.setWidth 32⟩ } ∧
    (∀ v : Fin 16, exec (.rdreg (0x10 + v.val)) s = .next { s with rsp := some ⟨.ok, (s.hist.get v).setWidth 32⟩ }) ∧
    (∀ b : Fin 6, exec (.rdreg (0x21 + b.val)) s = .next { s with rsp := some ⟨.ok, (s.cnt.get b).setWidth 32⟩ }) ∧
    (∀ b : Fin 6, exec (.rdreg (0x31 + b.val)) s = .next { s with rsp := some ⟨.ok, (#v[2267#32, 1079#32, 502#32, 223#32, 90#32, 90#32]).get b⟩ }) ∧
    (∀ b : Fin 6, exec (.rdreg (0x41 + b.val)) s = .next { s with rsp := some ⟨.ok, (#v[2733#32, 1421#32, 748#32, 402#32, 223#32, 223#32]).get b⟩ }) ∧
    exec (.rdreg 0x50) s = .next { s with rsp := some ⟨.ok, 20000#32⟩ } ∧
    exec (.rdreg 0x51) s = .next { s with rsp := some ⟨.ok, 625#32⟩ }

/-- 10_state.md R25: the fields of STATUS, read by RDREG 0x00. -/
def Obligations.StatusWordLayout : Prop :=
  ∀ s : State, ∃ v : Word, exec (.rdreg 0x00) s = .next { s with rsp := some ⟨.ok, v⟩ } ∧
    v.toNat = s.verdict.toNat * 256 + s.done.toNat * 16 + (if s.fault = 0#4 then 0 else 2) + (if s.valid then 1 else 0) ∧
    (∀ k, k < 4 → v.getLsbD (4 + k) = s.done.getLsbD k ∧ v.getLsbD (8 + k) = s.verdict.getLsbD k) ∧
    v.getLsbD 0 = s.valid ∧ v.getLsbD 1 = decide (s.fault ≠ 0#4)

/-- 46_register_read.md R140, 60_exceptions.md R150, R151: RDREG of every other number raises IllegalCommand with the
command word, and answers `Halted` on a halted block. -/
def Obligations.RdregOfAnUnmappedNumber : Prop :=
  ∀ (s : State) (r : Nat), r < 2 ^ 28 → ¬ registerMapped r →
    (s.fault = 0#4 → exec (.rdreg r) s = .next
      { s with fault := 1#4, finfo := BitVec.ofNat 32 (0x80000000 + r), rsp := some ⟨.illegalCommand, BitVec.ofNat 32 (0x80000000 + r)⟩ }) ∧
    (s.fault ≠ 0#4 → exec (.rdreg r) s = .next { s with rsp := some ⟨.halted, s.fault.setWidth 32⟩ })

/-! ### The tests -/

/-- 42_monobit.md R100, R101: MONO counts the 1 bits of the sequence, which are the population counts of the blocks
summed; the verdict is `9654 ≤ ONES ≤ 10346`, both
inclusive; it writes ONES and its own DONE and VERDICT bits. -/
def Obligations.MonoCountsTheOneBits : Prop :=
  ∀ s : State, s.ready →
    let n := onesUpTo s.bitRead 20000
    let pass := 9654 ≤ n ∧ n ≤ 10346
    (∀ vs, s.mem.readBlocks 0 625 = some vs → n = (vs.map popcount).sum) ∧
    ∃ t, exec .mono s = .next t ∧ t.ones.toNat = n ∧
      (pass → t = { s with
        ones := t.ones, done := s.done ||| 1#4, verdict := s.verdict ||| 1#4, rsp := some ⟨.ok, 1#32⟩ }) ∧
      (¬ pass → t = { s with
        ones := t.ones, done := s.done ||| 1#4, verdict := s.verdict &&& 14#4, rsp := some ⟨.ok, 0#32⟩ })

/-- 43_longest_run.md R110, R111: MAXRUN finds the length of the longest run of either value; the verdict is
`MAXLEN ≤ 36`; it writes RUN1, RUN0, MAXLEN and its own DONE and VERDICT bits. -/
def Obligations.MaxrunFindsTheLongestRun : Prop :=
  ∀ s : State, s.ready →
    ∃ t, exec .maxrun s = .next t ∧
      (∃ a, IsRun s.bitRead 20000 a t.maxlen.toNat) ∧
      (∀ a len, IsRun s.bitRead 20000 a len → len ≤ t.maxlen.toNat) ∧
      (t.maxlen.toNat ≤ 36 → t = { s with
        run1 := t.run1, run0 := t.run0, maxlen := t.maxlen, done := s.done ||| 2#4, verdict := s.verdict ||| 2#4,
        rsp := some ⟨.ok, 1#32⟩ }) ∧
      (36 < t.maxlen.toNat → t = { s with
        run1 := t.run1, run0 := t.run0, maxlen := t.maxlen, done := s.done ||| 2#4, verdict := s.verdict &&& 13#4,
        rsp := some ⟨.ok, 0#32⟩ })

/-- 10_state.md R20, 43_longest_run.md R112: after MAXRUN, RUN1 and RUN0 hold the lengths of the 1-run and the 0-run at
the last bit; exactly one of them is not 0. -/
def Obligations.MaxrunKeepsTheTrailingRun : Prop :=
  ∀ s t : State, s.ready → exec .maxrun s = .next t →
    IsTrailing s.bitRead true 20000 t.run1.toNat ∧ IsTrailing s.bitRead false 20000 t.run0.toNat ∧
      (t.run1 = 0#15 ↔ t.run0 ≠ 0#15)

/-- 44_poker.md R120, R122, R123: POKER's histogram, the sum of its squares, the exact numerator, which never underflows,
and the verdict `5150 ≤ XI3N ≤ 287000`; NIB is 0 and its own DONE and VERDICT bits are written. -/
def Obligations.PokerComputesTheChiSquare : Prop :=
  ∀ s : State, s.ready →
    let sq := ∑ v ∈ Finset.range 16, pokerCount s.bitRead 5000 v ^ 2
    let pass := 5150 + 25000000 ≤ 16 * sq ∧ 16 * sq ≤ 287000 + 25000000
    ∃ t, exec .poker s = .next t ∧
      (∀ v : Fin 16, (t.hist.get v).toNat = pokerCount s.bitRead 5000 v) ∧ t.sumsq.toNat = sq ∧
      t.xi3n.toNat + 25000000 = 16 * sq ∧
      (pass → t = { s with
        nib := 0#4, hist := t.hist, sumsq := t.sumsq, xi3n := t.xi3n, done := s.done ||| 4#4,
        verdict := s.verdict ||| 4#4, rsp := some ⟨.ok, 1#32⟩ }) ∧
      (¬ pass → t = { s with
        nib := 0#4, hist := t.hist, sumsq := t.sumsq, xi3n := t.xi3n, done := s.done ||| 4#4,
        verdict := s.verdict &&& 11#4, rsp := some ⟨.ok, 0#32⟩ })

/-- 44_poker.md R122, R124 (c): after POKER the 16 buckets sum to 5000, SUMSQ is even and XI3N is a multiple of 32. -/
def Obligations.PokerBucketsSumTo5000 : Prop :=
  ∀ s t : State, s.ready → exec .poker s = .next t →
    ∑ v : Fin 16, (t.hist.get v).toNat = 5000 ∧ t.sumsq.toNat % 2 = 0 ∧ t.xi3n.toNat % 32 = 0

/-- 44_poker.md R123: for every histogram of 5000 poker blocks the integer combiner is exact, and its comparison is the
source's real inequality `1.03 ≤ xi3 ≤ 57.4` with `xi3 = (16 / 5000) S − 5000`, in each of the forms of the rule. -/
def Obligations.PokerVerdictIsTheRealInequality : Prop :=
  ∀ h : Vector Nat 16, h.sum = 5000 →
    let sq := sumSquares h
    let x := xi3Numerator 5000 sq
    let xi3 : ℚ := 16 / 5000 * (sq : ℚ) - 5000
    (x : ℤ) = 16 * sq - 5000 ^ 2 ∧ (x : ℚ) / 5000 = xi3 ∧
    (pokerPass 5000 x = true ↔ 103 / 100 ≤ xi3 ∧ xi3 ≤ 574 / 10) ∧
    (pokerPass 5000 x = true ↔ 103 * 5000 ≤ 100 * x ∧ 10 * x ≤ 574 * 5000) ∧
    (pokerPass 5000 x = true ↔ 5150 ≤ x ∧ x ≤ 287000) ∧
    (pokerPass 5000 x = true ↔ 25005150 ≤ 16 * sq ∧ 16 * sq ≤ 25287000) ∧
    (pokerPass 5000 x = true ↔ 1562822 ≤ sq ∧ sq ≤ 1580437)

/-- 45_run_length.md R130, R132, R133, R135: RUNS counts, for each bucket, the runs of 1s that a 0 ends, all lengths of
6 or more in bucket 6; the verdict is that every bucket is inside its own inclusive bounds; it writes CUR, CNT and its
own DONE and VERDICT bits. -/
def Obligations.RunsCountsTheTerminatedRuns : Prop :=
  ∀ s : State, s.ready →
    let n := fun b => terminatedRuns s.bitRead 20000 b
    let pass := (2267 ≤ n 1 ∧ n 1 ≤ 2733) ∧ (1079 ≤ n 2 ∧ n 2 ≤ 1421) ∧ (502 ≤ n 3 ∧ n 3 ≤ 748) ∧
      (223 ≤ n 4 ∧ n 4 ≤ 402) ∧ (90 ≤ n 5 ∧ n 5 ≤ 223) ∧ (90 ≤ n 6 ∧ n 6 ≤ 223)
    ∃ t, exec .runs s = .next t ∧ (∀ b : Fin 6, (t.cnt.get b).toNat = n (b.val + 1)) ∧
      (pass → t = { s with
        cur := t.cur, cnt := t.cnt, done := s.done ||| 8#4, verdict := s.verdict ||| 8#4, rsp := some ⟨.ok, 1#32⟩ }) ∧
      (¬ pass → t = { s with
        cur := t.cur, cnt := t.cnt, done := s.done ||| 8#4, verdict := s.verdict &&& 7#4, rsp := some ⟨.ok, 0#32⟩ })

/-- 45_run_length.md R131, 10_state.md R22: after RUNS, CUR is the length of the run of 1s still open at the last bit,
which no bucket counts. -/
def Obligations.RunsLeavesTheTrailingRunInCur : Prop :=
  ∀ s t : State, s.ready → exec .runs s = .next t → IsTrailing s.bitRead true 20000 t.cur.toNat

/-- 45_run_length.md R134: the buckets never sum to more than 10000, and the runs counted, a run of bucket 6 taken as
at least 6, with the open run hold no more 1s than the sequence has. -/
def Obligations.RunsBucketsAreBounded : Prop :=
  ∀ s t : State, s.ready → exec .runs s = .next t →
    ∑ b : Fin 6, (t.cnt.get b).toNat ≤ 10000 ∧
    (∑ b : Fin 6, (b.val + 1) * (t.cnt.get b).toNat) + t.cur.toNat ≤ onesUpTo s.bitRead 20000

/-- 10_state.md R17: a test writes its own VERDICT and DONE bits only, and sets its DONE bit when it completes. -/
def Obligations.TestsTouchOnlyTheirOwnFlags : Prop :=
  ∀ (i : Instr) (u : TestUnit) (s t : State), IsTest i u → exec i s = .next t →
    t.done &&& ~~~u.mask = s.done &&& ~~~u.mask ∧ t.verdict &&& ~~~u.mask = s.verdict &&& ~~~u.mask ∧
      (t.fault = 0#4 → t.done &&& u.mask = u.mask)

/-- 60_exceptions.md R155: a test whose statistic is out of bounds is no fault: on a constructed block every test
answers `(OK, verdict)`, latches the verdict, sets DONE and leaves FAULT 0. -/
def Obligations.StatisticalFailureIsNoFault : Prop :=
  ∀ (i : Instr) (u : TestUnit) (s : State), IsTest i u → s.ready →
    ∃ t pass, exec i s = .next t ∧ t.fault = 0#4 ∧ t.rsp = some ⟨.ok, if pass = true then 1#32 else 0#32⟩ ∧
      t.done &&& u.mask = u.mask ∧ t.verdict &&& u.mask = (if pass = true then u.mask else 0#4)

/-- 20_memory.md R50 (b), 42_monobit.md R103, 44_poker.md R128, 45_run_length.md R136: a test run again gives the same
response and the same state. -/
def Obligations.RepeatedTestChangesNothing : Prop :=
  ∀ (i : Instr) (u : TestUnit) (s t : State), IsTest i u → s.ready → exec i s = .next t → exec i t = .next t

/-- 70_reset_and_hazards.md R187: any order and any repetition of the same tests leaves the same state (but for which
response was given last), and gives each test the response it gives on its own. -/
def Obligations.TestOrderAndRepetitionDoNotMatter : Prop :=
  ∀ (s t t' : State) (us us' : List TestUnit), s.ready → TestsRun s us t → TestsRun s us' t' →
    ((∀ u, u ∈ us ↔ u ∈ us') → { t with rsp := none } = { t' with rsp := none }) ∧
    ∀ (i : Instr) (u : TestUnit) (a b : State), IsTest i u → exec i s = .next a → exec i t = .next b → b.rsp = a.rsp

/-- 46_register_read.md R143: what the registers show after the four tests, in any order and with any repetition. -/
def Obligations.StatisticsAreConsistent : Prop :=
  ∀ (s t : State) (us : List TestUnit), s.ready → TestsRun s us t → (∀ u, u ∈ us) →
    t.ones.toNat = ∑ i ∈ Finset.range 20000, (s.bitRead i).toNat ∧
    max t.run1.toNat t.run0.toNat ≤ t.maxlen.toNat ∧
    ∑ v : Fin 16, (t.hist.get v).toNat = 5000 ∧
    (t.xi3n.toNat : ℤ) = 16 * t.sumsq.toNat - 25000000 ∧
    t.cur = t.run1 ∧ IsTrailing s.bitRead true 20000 t.cur.toNat

/-! ### The reference sequence -/

/-- 42_monobit.md R100 (worked example), 95_test_vectors.md V4: on the generated sequence MONO counts 9925 and passes. -/
def Obligations.MonoOnTheGeneratedSequence : Prop :=
  ∀ s t : State, s.fault = 0#4 → exec .gen s = .next t →
    ∃ t', exec .mono t = .next t' ∧ t'.ones.toNat = 9925 ∧ t'.rsp = some ⟨.ok, 1#32⟩

/-- 43_longest_run.md R110 (worked example), 95_test_vectors.md V5: on the generated sequence MAXRUN finds 15, keeps the
trailing 1 and passes. -/
def Obligations.MaxrunOnTheGeneratedSequence : Prop :=
  ∀ s t : State, s.fault = 0#4 → exec .gen s = .next t →
    ∃ t', exec .maxrun t = .next t' ∧ t'.maxlen.toNat = 15 ∧ t'.run1.toNat = 1 ∧ t'.run0.toNat = 0 ∧
      t'.rsp = some ⟨.ok, 1#32⟩

/-- 44_poker.md R120 (worked example), 95_test_vectors.md V6: on the generated sequence POKER finds SUMSQ 1569284 and
XI3N 108544 and passes. -/
def Obligations.PokerOnTheGeneratedSequence : Prop :=
  ∀ s t : State, s.fault = 0#4 → exec .gen s = .next t →
    ∃ t', exec .poker t = .next t' ∧
      t'.hist.toList.map BitVec.toNat =
        [310, 328, 278, 279, 321, 332, 305, 297, 334, 327, 359, 306, 310, 308, 317, 289] ∧
      t'.sumsq.toNat = 1569284 ∧ t'.xi3n.toNat = 108544 ∧ t'.rsp = some ⟨.ok, 1#32⟩

/-- 45_run_length.md R130 (worked example), 95_test_vectors.md V7: on the generated sequence RUNS counts
`[2630, 1222, 636, 283, 152, 147]`, leaves the uncounted 1 in CUR and passes. -/
def Obligations.RunsOnTheGeneratedSequence : Prop :=
  ∀ s t : State, s.fault = 0#4 → exec .gen s = .next t →
    ∃ t', exec .runs t = .next t' ∧ t'.cnt.toList.map BitVec.toNat = [2630, 1222, 636, 283, 152, 147] ∧
      t'.cur.toNat = 1 ∧ t'.rsp = some ⟨.ok, 1#32⟩

/-! ### The whole machine -/

/-- The reset state meets the invariant of 10_state.md R10. That SEED is below 2^32 and the memory canonical there is the
model's choice (log entries 2 and 3). -/
def Obligations.ResetMeetsTheInvariant : Prop := State.reset.Inv

/-- 10_state.md R10, R16, R19 to R22, R26: every step keeps the canonical complete memory behind VALID and the reachable
values of every register, from any state that has them. Two clauses are the model's choice where the step is a reset:
SEED is below 2^32 because the model resets it to 0 (log entry 2), and the memory is canonical because the model empties
it (log entry 3); the spec leaves both unspecified there. -/
def Obligations.StepKeepsTheInvariant : Prop := ∀ s t : State, s.Inv → step s = .next t → t.Inv

/-- 70_reset_and_hazards.md R191, 30_encoding.md R61: from every state of the invariant a step answers a next state, and
an accepted word gets a response. The port is the model's own (log entry 1). -/
def Obligations.EveryStepAnswers : Prop :=
  ∀ s : State, s.Inv → ∃ t, step s = .next t ∧ ∀ w rest, s.port = .command w :: rest → t.rsp.isSome = true

/-- 10_state.md R29, R30: the reset state meets the reference invariant. -/
def Obligations.ResetMeetsTheReferenceInvariant : Prop := State.reset.RefInv

/-- 10_state.md R29, 40_generator.md R83, 46_register_read.md R143: every step keeps that a construction is the generated
sequence and that the results of every test that is done are those of that sequence. -/
def Obligations.StepKeepsTheReferenceInvariant : Prop := ∀ s t : State, s.RefInv → step s = .next t → t.RefInv

/-- 30_encoding.md R68, 60_exceptions.md R155: wherever the reference invariant holds, every test that is done has
passed. -/
def Obligations.NoDoneTestHasFailed : Prop :=
  ∀ s : State, s.RefInv → ∀ k, k < 4 → s.done.getLsbD k = true → s.verdict.getLsbD k = true

/-- 10_state.md R28, R30, 60_exceptions.md R171: SEED, BLK and the bit memory behind VALID = 0, which reset leaves
unspecified, are unobservable: states that differ in them only stop alike, answer alike and stay alike. -/
def Obligations.UnspecifiedStateIsUnobservable : Prop :=
  ∀ s s' : State, s.SameToHost s' →
    (∀ t, step s = .next t → ∃ t', step s' = .next t' ∧ t.SameToHost t' ∧ t.rsp = t'.rsp) ∧
    (∀ f, step s = .fault f → step s' = .fault f)

/-! ### The tests as pure functions of a sequence -/

/-- 44_poker.md R126: the poker test of a sequence of any length N that is a multiple of 4 and not 0, with `k = N / 4`:
its histogram, the sum of squares, the exact numerator, and the verdict `1.03 ≤ xi3 ≤ 57.4`, whose bounds do not scale
with N; for every other N the command's check faults. -/
def Obligations.PokerIsAPureFunction : Prop :=
  (∀ (s : Nat → Bool) (n : Nat), n % 4 = 0 → 0 < n / 4 →
    let k := n / 4
    let xi3 : ℚ := (xi3nIn s n : ℚ) / k
    (∀ v : Fin 16, (histIn s n).get v = ((Finset.range k).filter fun q =>
      8 * (s (4 * q)).toNat + 4 * (s (4 * q + 1)).toNat + 2 * (s (4 * q + 2)).toNat + (s (4 * q + 3)).toNat = v.val).card) ∧
    sumsqIn s n = ∑ v : Fin 16, (histIn s n).get v ^ 2 ∧
    (xi3nIn s n : ℤ) = 16 * (sumsqIn s n : ℤ) - (k : ℤ) ^ 2 ∧
    (pokerPassIn s n = true ↔ 103 * k ≤ 100 * xi3nIn s n ∧ 10 * xi3nIn s n ≤ 574 * k) ∧
    (pokerPassIn s n = true ↔ 103 / 100 ≤ xi3 ∧ xi3 ≤ 574 / 10)) ∧
  ∀ (n : Nat) (s : State) (body : State → Result), n % 4 ≠ 0 → checkDivisible s n body = .next
    { s with fault := 3#4, finfo := BitVec.ofNat 32 (n % 4), rsp := some ⟨.configAssert, BitVec.ofNat 32 (n % 4)⟩ }

/-- 42_monobit.md R101, 43_longest_run.md R111, 45_run_length.md R135: the other three tests of a sequence of any length
N: the count of its 1s, the length of its longest run, 0 for the empty sequence, and the runs of 1s that a 0 ends, by
bucket; the bounds of the three verdicts do not scale with N. -/
def Obligations.MonoMaxrunRunsArePureFunctions : Prop :=
  ∀ (s : Nat → Bool) (n : Nat),
    onesIn s n = ((Finset.range n).filter fun i => s i = true).card ∧
    (monoPassIn s n = true ↔ 9654 ≤ onesIn s n ∧ onesIn s n ≤ 10346) ∧
    (n = 0 → maxrunIn s n = 0) ∧
    (0 < n → ∃ a, IsRun s n a (maxrunIn s n)) ∧
    (∀ a len, IsRun s n a len → len ≤ maxrunIn s n) ∧
    (maxrunPassIn s n = true ↔ maxrunIn s n ≤ 36) ∧
    (∀ b : Fin 6, (oneRunsIn s n).cnt.get b = terminatedRuns s n (b.val + 1)) ∧
    IsTrailing s true n (oneRunsIn s n).cur ∧
    (runsPassIn s n = true ↔
      ∀ b : Fin 6, (#v[2267, 1079, 502, 223, 90, 90] : Vector Nat 6).get b ≤ terminatedRuns s n (b.val + 1) ∧
        terminatedRuns s n (b.val + 1) ≤ (#v[2733, 1421, 748, 402, 223, 223] : Vector Nat 6).get b)

/-- 00_scope.md R8: on a constructed block each test completes, and its registers and its verdict are its pure function
at `s = bit` and `N = BIT_COUNT`; it reads nothing else of the generator, and writes nothing else. -/
def Obligations.TestsInstantiateThePureFunctions : Prop :=
  ∀ s : State, s.ready →
    let bit := s.bitRead
    exec .mono s = .next { s with
      ones := BitVec.ofNat 15 (onesIn bit 20000), done := s.done ||| 1#4,
      verdict := if monoPassIn bit 20000 = true then s.verdict ||| 1#4 else s.verdict &&& 14#4,
      rsp := some ⟨.ok, if monoPassIn bit 20000 = true then 1#32 else 0#32⟩ } ∧
    exec .maxrun s = .next { s with
      run1 := BitVec.ofNat 15 (runScanIn bit 20000).run1, run0 := BitVec.ofNat 15 (runScanIn bit 20000).run0,
      maxlen := BitVec.ofNat 15 (maxrunIn bit 20000), done := s.done ||| 2#4,
      verdict := if maxrunPassIn bit 20000 = true then s.verdict ||| 2#4 else s.verdict &&& 13#4,
      rsp := some ⟨.ok, if maxrunPassIn bit 20000 = true then 1#32 else 0#32⟩ } ∧
    exec .poker s = .next { s with
      nib := 0#4, hist := (histIn bit 20000).map (BitVec.ofNat 13), sumsq := BitVec.ofNat 25 (sumsqIn bit 20000),
      xi3n := BitVec.ofNat 29 (xi3nIn bit 20000), done := s.done ||| 4#4,
      verdict := if pokerPassIn bit 20000 = true then s.verdict ||| 4#4 else s.verdict &&& 11#4,
      rsp := some ⟨.ok, if pokerPassIn bit 20000 = true then 1#32 else 0#32⟩ } ∧
    exec .runs s = .next { s with
      cur := BitVec.ofNat 15 (oneRunsIn bit 20000).cur, cnt := (oneRunsIn bit 20000).cnt.map (BitVec.ofNat 14),
      done := s.done ||| 8#4,
      verdict := if runsPassIn bit 20000 = true then s.verdict ||| 8#4 else s.verdict &&& 7#4,
      rsp := some ⟨.ok, if runsPassIn bit 20000 = true then 1#32 else 0#32⟩ }
end

