-- ==== Sys2Proof/Laws/Memory.lean ====
section
/-! SUPPORT. The laws of the bit memory: a read after a write, the frame of a write, the canonical form and that every
write keeps it, and what reading all blocks means. -/

namespace Sys2Proof.Machine

/-! ### One cell -/

@[simp] theorem Memory.readByte_nil (a : Nat) : Memory.readByte [] a = none := rfl

theorem Memory.readByte_cons (c : Nat) (v : Byte) (rest : Memory) (a : Nat) :
    Memory.readByte ((c, v) :: rest) a = if a = c then some v else Memory.readByte rest a := rfl

theorem Memory.readByte_writeByte (m : Memory) (a a' : Nat) (b : Byte) :
    (m.writeByte a b).readByte a' = if a' = a then some b else m.readByte a' := by
  induction m with
  | nil => simp [Memory.writeByte, Memory.readByte]
  | cons x rest ih =>
    obtain ⟨c, v⟩ := x
    unfold Memory.writeByte
    split
    · simp [Memory.readByte]
    · split
      · subst_vars
        simp only [Memory.readByte]
        split <;> rfl
      · simp only [Memory.readByte, ih]
        split
        · split
          · omega
          · rfl
        · rfl

@[simp] theorem Memory.readByte_writeByte_same (m : Memory) (a : Nat) (b : Byte) :
    (m.writeByte a b).readByte a = some b := by
  simp [Memory.readByte_writeByte]

theorem Memory.readByte_writeByte_other (m : Memory) {a a' : Nat} (b : Byte) (h : a' ≠ a) :
    (m.writeByte a b).readByte a' = m.readByte a' := by
  simp [Memory.readByte_writeByte, h]

/-! ### The canonical form -/

theorem Memory.risingFrom_mono {lo lo' : Nat} {m : Memory} (h : m.risingFrom lo = true) (hl : lo' ≤ lo) :
    m.risingFrom lo' = true := by
  cases m with
  | nil => rfl
  | cons x rest =>
    obtain ⟨c, v⟩ := x
    simp only [Memory.risingFrom, Bool.and_eq_true, decide_eq_true_eq] at h ⊢
    exact ⟨by omega, h.2⟩

theorem Memory.risingFrom_writeByte {lo a : Nat} {m : Memory} (b : Byte) (h : m.risingFrom lo = true) (ha : lo ≤ a) :
    (m.writeByte a b).risingFrom lo = true := by
  induction m generalizing lo with
  | nil => simpa [Memory.writeByte, Memory.risingFrom] using ha
  | cons x rest ih =>
    obtain ⟨c, v⟩ := x
    simp only [Memory.risingFrom, Bool.and_eq_true, decide_eq_true_eq] at h
    unfold Memory.writeByte
    split
    · simp only [Memory.risingFrom, Bool.and_eq_true, decide_eq_true_eq]
      exact ⟨ha, by omega, h.2⟩
    · split
      · subst_vars
        simp only [Memory.risingFrom, Bool.and_eq_true, decide_eq_true_eq]
        exact h
      · simp only [Memory.risingFrom, Bool.and_eq_true, decide_eq_true_eq]
        exact ⟨h.1, ih h.2 (by omega)⟩

theorem Memory.all_writeByte {p : Host.Cell → Bool} {m : Memory} {a : Nat} {b : Byte} (h : m.all p = true)
    (hp : p (a, b) = true) : (m.writeByte a b).all p = true := by
  induction m with
  | nil => simp [Memory.writeByte, hp]
  | cons x rest ih =>
    obtain ⟨c, v⟩ := x
    simp only [List.all_cons, Bool.and_eq_true] at h
    unfold Memory.writeByte
    split
    · simp [hp, h.1, h.2]
    · split
      · simp [hp, h.2]
      · simp [h.1, ih h.2]

/-- Every write of a cell inside the 625 blocks keeps the canonical form. -/
theorem Memory.wf_writeByte {m : Memory} {a : Nat} (b : Byte) (h : m.wf = true) (ha : a < 2500) :
    (m.writeByte a b).wf = true := by
  simp only [Memory.wf, Bool.and_eq_true] at h ⊢
  exact ⟨Memory.risingFrom_writeByte b h.1 (by omega), Memory.all_writeByte h.2 (by simpa using ha)⟩

/-- Every block write of GEN keeps the canonical form. -/
theorem Memory.wf_writeBlock {m : Memory} {j : Nat} (v : Block) (h : m.wf = true) (hj : j < 625) :
    (m.writeBlock j v).wf = true := by
  unfold Memory.writeBlock byteCell
  exact Memory.wf_writeByte _ (Memory.wf_writeByte _ (Memory.wf_writeByte _ (Memory.wf_writeByte _ h
    (by simp; omega)) (by simp; omega)) (by simp; omega)) (by simp; omega)

/-- Reset's memory has the canonical form. -/
theorem State.reset_mem_wf : State.reset.mem.wf = true := rfl

/-- A cell below the first listed one has no value. -/
theorem Memory.readByte_lt_of_risingFrom {lo a : Nat} {m : Memory} (h : m.risingFrom lo = true) (ha : a < lo) :
    m.readByte a = none := by
  induction m generalizing lo with
  | nil => rfl
  | cons x rest ih =>
    obtain ⟨c, v⟩ := x
    simp only [Memory.risingFrom, Bool.and_eq_true, decide_eq_true_eq] at h
    simp only [Memory.readByte]
    rw [if_neg (by omega)]
    exact ih h.2 (by omega)

/-- Canonical memories with the same reads are the same data. -/
theorem Memory.ext_of_risingFrom {lo : Nat} {m m' : Memory} (h : m.risingFrom lo = true)
    (h' : m'.risingFrom lo = true) (hr : ∀ a, m.readByte a = m'.readByte a) : m = m' := by
  induction m generalizing lo m' with
  | nil =>
    cases m' with
    | nil => rfl
    | cons x rest =>
      obtain ⟨c, v⟩ := x
      have := hr c
      simp [Memory.readByte] at this
  | cons x rest ih =>
    obtain ⟨c, v⟩ := x
    cases m' with
    | nil =>
      have := hr c
      simp [Memory.readByte] at this
    | cons x' rest' =>
      obtain ⟨c', v'⟩ := x'
      simp only [Memory.risingFrom, Bool.and_eq_true, decide_eq_true_eq] at h h'
      have key : c = c' := by
        by_contra hne
        rcases Nat.lt_or_gt_of_ne hne with hlt | hgt
        · have hc := hr c
          simp only [Memory.readByte, if_true, if_neg hne] at hc
          rw [Memory.readByte_lt_of_risingFrom h'.2 (by omega)] at hc
          cases hc
        · have hc := hr c'
          simp only [Memory.readByte, if_true, if_neg (Ne.symm hne)] at hc
          rw [Memory.readByte_lt_of_risingFrom h.2 (by omega)] at hc
          cases hc
      subst key
      have hv : v = v' := by
        have hc := hr c
        simpa [Memory.readByte] using hc
      subst hv
      have : rest = rest' := by
        apply ih h.2 h'.2
        intro a
        by_cases ha : a = c
        · subst ha
          rw [Memory.readByte_lt_of_risingFrom h.2 (by omega), Memory.readByte_lt_of_risingFrom h'.2 (by omega)]
        · have hc := hr a
          simpa [Memory.readByte, ha] using hc
      rw [this]

theorem Memory.ext_of_wf {m m' : Memory} (h : m.wf = true) (h' : m'.wf = true)
    (hr : ∀ a, m.readByte a = m'.readByte a) : m = m' := by
  simp only [Memory.wf, Bool.and_eq_true] at h h'
  exact Memory.ext_of_risingFrom h.1 h'.1 hr

/-- A canonical memory lists no cell outside the 625 blocks. -/
theorem Memory.readByte_ge_of_wf {m : Memory} (h : m.wf = true) {a : Nat} (ha : 2500 ≤ a) : m.readByte a = none := by
  simp only [Memory.wf, Bool.and_eq_true] at h
  have hall := h.2
  clear h
  induction m with
  | nil => rfl
  | cons x rest ih =>
    obtain ⟨c, v⟩ := x
    simp only [List.all_cons, Bool.and_eq_true, decide_eq_true_eq] at hall
    simp only [Memory.readByte]
    have hc := hall.1
    simp at hc
    rw [if_neg (by omega)]
    exact ih hall.2

/-! ### Blocks -/

theorem joinBytes_byteOf (v : Block) : joinBytes (byteOf v 0) (byteOf v 1) (byteOf v 2) (byteOf v 3) = v := by
  unfold joinBytes byteOf
  ext i hi
  simp only [BitVec.getElem_append, BitVec.getElem_extractLsb']
  split
  · simp [BitVec.getLsbD_eq_getElem hi]
  · split
    · rw [← BitVec.getLsbD_eq_getElem hi]; congr 1; omega
    · split
      · rw [← BitVec.getLsbD_eq_getElem hi]; congr 1; omega
      · rw [← BitVec.getLsbD_eq_getElem hi]; congr 1; omega

/-- A block as a number in its bytes (20_memory.md R43). -/
theorem joinBytes_toNat (b0 b1 b2 b3 : Byte) :
    (joinBytes b0 b1 b2 b3).toNat = ((b0.toNat * 256 + b1.toNat) * 256 + b2.toNat) * 256 + b3.toNat := by
  have glue : ∀ (n : Nat) (b : Byte), n <<< 8 ||| b.toNat = n * 256 + b.toNat := by
    intro n b
    rw [Nat.shiftLeft_eq, Nat.mul_comm, ← Nat.two_pow_add_eq_or_of_lt b.isLt, Nat.mul_comm]
  simp only [joinBytes, BitVec.toNat_append, glue]

/-- A block determines its bytes. -/
theorem joinBytes_inj {b0 b1 b2 b3 c0 c1 c2 c3 : Byte} (h : joinBytes b0 b1 b2 b3 = joinBytes c0 c1 c2 c3) :
    b0 = c0 ∧ b1 = c1 ∧ b2 = c2 ∧ b3 = c3 := by
  have hn := congrArg BitVec.toNat h
  rw [joinBytes_toNat, joinBytes_toNat] at hn
  have := b1.isLt; have := b2.isLt; have := b3.isLt
  have := c1.isLt; have := c2.isLt; have := c3.isLt
  refine ⟨?_, ?_, ?_, ?_⟩ <;> apply BitVec.eq_of_toNat_eq <;> omega

/-- `MemRead` after `MemWrite` of the same block. -/
@[simp] theorem Memory.readBlock_writeBlock_same (m : Memory) (j : Nat) (v : Block) :
    (m.writeBlock j v).readBlock j = some v := by
  simp [Memory.readBlock, Memory.writeBlock, Memory.readByte_writeByte, byteCell, joinBytes_byteOf]

/-- `MemWrite` leaves every cell outside its own block alone. -/
theorem Memory.readByte_writeBlock_other (m : Memory) {j a : Nat} (v : Block) (h : a < 4 * j ∨ 4 * j + 4 ≤ a) :
    (m.writeBlock j v).readByte a = m.readByte a := by
  unfold Memory.writeBlock byteCell
  simp only [Memory.readByte_writeByte, Config.bytesPerBlock]
  rw [if_neg (by omega), if_neg (by omega), if_neg (by omega), if_neg (by omega)]

/-- `MemWrite` leaves every other block alone. -/
theorem Memory.readBlock_writeBlock_other (m : Memory) {j k : Nat} (v : Block) (h : k ≠ j) :
    (m.writeBlock j v).readBlock k = m.readBlock k := by
  unfold Memory.readBlock byteCell
  simp only [Config.bytesPerBlock]
  rw [Memory.readByte_writeBlock_other, Memory.readByte_writeBlock_other, Memory.readByte_writeBlock_other,
    Memory.readByte_writeBlock_other] <;> omega

/-- The bytes of a block that has a value. -/
theorem Memory.readBlock_eq_some {m : Memory} {j : Nat} {v : Block} :
    m.readBlock j = some v ↔
      ∃ b0 b1 b2 b3, m.readByte (4 * j) = some b0 ∧ m.readByte (4 * j + 1) = some b1 ∧
        m.readByte (4 * j + 2) = some b2 ∧ m.readByte (4 * j + 3) = some b3 ∧ joinBytes b0 b1 b2 b3 = v := by
  unfold Memory.readBlock byteCell
  simp only [Config.bytesPerBlock, Nat.add_zero]
  constructor
  · intro h
    split at h
    · next b0 b1 b2 b3 h0 h1 h2 h3 => exact ⟨b0, b1, b2, b3, h0, h1, h2, h3, Option.some.inj h⟩
    · cases h
  · rintro ⟨b0, b1, b2, b3, h0, h1, h2, h3, rfl⟩
    rw [h0, h1, h2, h3]

/-- Where a block has the same value in two memories, its bytes have. -/
theorem Memory.readByte_eq_of_readBlock {m m' : Memory} {a : Nat} {v : Block} (h : m.readBlock (a / 4) = some v)
    (h' : m'.readBlock (a / 4) = some v) : m.readByte a = m'.readByte a := by
  obtain ⟨b0, b1, b2, b3, e0, e1, e2, e3, e⟩ := Memory.readBlock_eq_some.mp h
  obtain ⟨c0, c1, c2, c3, f0, f1, f2, f3, f⟩ := Memory.readBlock_eq_some.mp h'
  obtain ⟨rfl, rfl, rfl, rfl⟩ := joinBytes_inj (e.trans f.symm)
  have : a = 4 * (a / 4) ∨ a = 4 * (a / 4) + 1 ∨ a = 4 * (a / 4) + 2 ∨ a = 4 * (a / 4) + 3 := by omega
  rcases this with h | h | h | h <;> rw [h]
  · rw [e0, f0]
  · rw [e1, f1]
  · rw [e2, f2]
  · rw [e3, f3]

/-- A block read depends on the block's own cells only. -/
theorem Memory.readBlock_congr {m m' : Memory} {j : Nat} (h : ∀ a, 4 * j ≤ a → a < 4 * j + 4 → m.readByte a = m'.readByte a) :
    m.readBlock j = m'.readBlock j := by
  unfold Memory.readBlock byteCell
  simp only [Config.bytesPerBlock]
  rw [h (4 * j + 0) (by omega) (by omega), h (4 * j + 1) (by omega) (by omega), h (4 * j + 2) (by omega) (by omega),
    h (4 * j + 3) (by omega) (by omega)]

/-! ### All blocks -/

theorem Memory.readBlocks_eq_some {m : Memory} {j n : Nat} {vs : List Block} :
    m.readBlocks j n = some vs ↔ vs.length = n ∧ ∀ k, k < n → m.readBlock (j + k) = vs[k]? := by
  induction n generalizing j vs with
  | zero =>
    simp only [Memory.readBlocks, Option.some.injEq]
    constructor
    · rintro rfl
      exact ⟨rfl, by intro k hk; omega⟩
    · rintro ⟨h, -⟩
      exact (List.length_eq_zero_iff.mp h).symm
  | succ n ih =>
    simp only [Memory.readBlocks]
    constructor
    · intro h
      split at h
      · next v ws hv hw =>
        cases h
        obtain ⟨hl, hk⟩ := ih.mp hw
        refine ⟨by simp [hl], ?_⟩
        intro k hk'
        cases k with
        | zero => simpa using hv
        | succ k =>
          have := hk k (by omega)
          rw [show j + (k + 1) = j + 1 + k by omega, this]
          simp
      · cases h
    · rintro ⟨hl, hk⟩
      cases vs with
      | nil => simp at hl
      | cons v ws =>
        have h0 : m.readBlock j = some v := by simpa using hk 0 (by omega)
        have hw : m.readBlocks (j + 1) n = some ws := by
          refine ih.mpr ⟨by simpa using hl, ?_⟩
          intro k hk'
          have := hk (k + 1) (by omega)
          rw [show j + 1 + k = j + (k + 1) by omega, this]
          simp
        rw [h0, hw]

/-- Reading all blocks depends on the block reads only. -/
theorem Memory.readBlocks_congr {m m' : Memory} {j n : Nat} (h : ∀ k, k < n → m.readBlock (j + k) = m'.readBlock (j + k)) :
    m.readBlocks j n = m'.readBlocks j n := by
  induction n generalizing j with
  | zero => rfl
  | succ n ih =>
    simp only [Memory.readBlocks]
    rw [show m.readBlock j = m'.readBlock j from h 0 (by omega),
      ih (by intro k hk; have := h (k + 1) (by omega); rwa [show j + 1 + k = j + (k + 1) by omega])]

/-- All blocks can be read where each has a value. -/
theorem Memory.readBlocks_isSome {m : Memory} {j n : Nat} (h : ∀ k, k < n → (m.readBlock (j + k)).isSome = true) :
    (m.readBlocks j n).isSome = true := by
  induction n generalizing j with
  | zero => rfl
  | succ n ih =>
    have h0 : (m.readBlock j).isSome = true := h 0 (by omega)
    have h1 : (m.readBlocks (j + 1) n).isSome = true :=
      ih (by intro k hk; have := h (k + 1) (by omega); rwa [show j + 1 + k = j + (k + 1) by omega])
    obtain ⟨v, hv⟩ := Option.isSome_iff_exists.mp h0
    obtain ⟨vs, hvs⟩ := Option.isSome_iff_exists.mp h1
    simp [Memory.readBlocks, hv, hvs]

@[simp] theorem bitsOf_length (v : Block) : (bitsOf v).length = 32 := by simp [bitsOf]

theorem sequenceOf_length (vs : List Block) : (sequenceOf vs).length = 32 * vs.length := by
  induction vs with
  | nil => rfl
  | cons v vs ih =>
    have : sequenceOf (v :: vs) = bitsOf v ++ sequenceOf vs := rfl
    rw [this, List.length_append, ih]
    simp
    omega

/-- Bit i of the sequence is bit i mod 32 of block i / 32 (20_memory.md R41). -/
theorem sequenceOf_getElem? (vs : List Block) (i : Nat) :
    (sequenceOf vs)[i]? = vs[i / 32]?.map fun v => bitOf v (i % 32) := by
  induction vs generalizing i with
  | nil => simp [sequenceOf]
  | cons v vs ih =>
    have hs : sequenceOf (v :: vs) = bitsOf v ++ sequenceOf vs := rfl
    rw [hs]
    by_cases hi : i < 32
    · rw [List.getElem?_append_left (by simpa using hi), Nat.div_eq_of_lt hi, Nat.mod_eq_of_lt hi]
      simp [bitsOf, List.getElem?_range hi]
    · rw [List.getElem?_append_right (by simp; omega), ih]
      obtain ⟨k, rfl⟩ : ∃ k, i = k + 32 := ⟨i - 32, by omega⟩
      simp

end Sys2Proof.Machine
end

