-- ==== Sys2Proof/Laws/State.lean ====
section
/-! SUPPORT. One lemma per field per update of State, each true by rfl, so that no proof unfolds a record
update. The parentheses in (rfl) keep simp from leaving the rewriting to the kernel's own unfolding, which would run a
whole scan or construction to compare two states. -/

namespace Sys2Proof.Machine

/-! ### respond -/

@[simp] theorem State.respond_seed (s : State) (st : Status) (v : Word) : (s.respond st v).seed = s.seed := (rfl)
@[simp] theorem State.respond_blk (s : State) (st : Status) (v : Word) : (s.respond st v).blk = s.blk := (rfl)
@[simp] theorem State.respond_mem (s : State) (st : Status) (v : Word) : (s.respond st v).mem = s.mem := (rfl)
@[simp] theorem State.respond_valid (s : State) (st : Status) (v : Word) : (s.respond st v).valid = s.valid := (rfl)
@[simp] theorem State.respond_fault (s : State) (st : Status) (v : Word) : (s.respond st v).fault = s.fault := (rfl)
@[simp] theorem State.respond_finfo (s : State) (st : Status) (v : Word) : (s.respond st v).finfo = s.finfo := (rfl)
@[simp] theorem State.respond_done (s : State) (st : Status) (v : Word) : (s.respond st v).done = s.done := (rfl)
@[simp] theorem State.respond_verdict (s : State) (st : Status) (v : Word) : (s.respond st v).verdict = s.verdict := (rfl)
@[simp] theorem State.respond_ones (s : State) (st : Status) (v : Word) : (s.respond st v).ones = s.ones := (rfl)
@[simp] theorem State.respond_run1 (s : State) (st : Status) (v : Word) : (s.respond st v).run1 = s.run1 := (rfl)
@[simp] theorem State.respond_run0 (s : State) (st : Status) (v : Word) : (s.respond st v).run0 = s.run0 := (rfl)
@[simp] theorem State.respond_maxlen (s : State) (st : Status) (v : Word) : (s.respond st v).maxlen = s.maxlen := (rfl)
@[simp] theorem State.respond_nib (s : State) (st : Status) (v : Word) : (s.respond st v).nib = s.nib := (rfl)
@[simp] theorem State.respond_hist (s : State) (st : Status) (v : Word) : (s.respond st v).hist = s.hist := (rfl)
@[simp] theorem State.respond_sumsq (s : State) (st : Status) (v : Word) : (s.respond st v).sumsq = s.sumsq := (rfl)
@[simp] theorem State.respond_xi3n (s : State) (st : Status) (v : Word) : (s.respond st v).xi3n = s.xi3n := (rfl)
@[simp] theorem State.respond_cur (s : State) (st : Status) (v : Word) : (s.respond st v).cur = s.cur := (rfl)
@[simp] theorem State.respond_cnt (s : State) (st : Status) (v : Word) : (s.respond st v).cnt = s.cnt := (rfl)
@[simp] theorem State.respond_rsp (s : State) (st : Status) (v : Word) : (s.respond st v).rsp = some ⟨st, v⟩ := (rfl)
@[simp] theorem State.respond_port (s : State) (st : Status) (v : Word) : (s.respond st v).port = s.port := (rfl)

/-! ### raiseFault -/

@[simp] theorem State.raiseFault_seed (s : State) (c : Cause) (info : Word) : (s.raiseFault c info).seed = s.seed := (rfl)
@[simp] theorem State.raiseFault_blk (s : State) (c : Cause) (info : Word) : (s.raiseFault c info).blk = s.blk := (rfl)
@[simp] theorem State.raiseFault_mem (s : State) (c : Cause) (info : Word) : (s.raiseFault c info).mem = s.mem := (rfl)
@[simp] theorem State.raiseFault_valid (s : State) (c : Cause) (info : Word) : (s.raiseFault c info).valid = s.valid := (rfl)
@[simp] theorem State.raiseFault_fault (s : State) (c : Cause) (info : Word) : (s.raiseFault c info).fault = c.code := (rfl)
@[simp] theorem State.raiseFault_finfo (s : State) (c : Cause) (info : Word) : (s.raiseFault c info).finfo = info := (rfl)
@[simp] theorem State.raiseFault_done (s : State) (c : Cause) (info : Word) : (s.raiseFault c info).done = s.done := (rfl)
@[simp] theorem State.raiseFault_verdict (s : State) (c : Cause) (info : Word) : (s.raiseFault c info).verdict = s.verdict := (rfl)
@[simp] theorem State.raiseFault_ones (s : State) (c : Cause) (info : Word) : (s.raiseFault c info).ones = s.ones := (rfl)
@[simp] theorem State.raiseFault_run1 (s : State) (c : Cause) (info : Word) : (s.raiseFault c info).run1 = s.run1 := (rfl)
@[simp] theorem State.raiseFault_run0 (s : State) (c : Cause) (info : Word) : (s.raiseFault c info).run0 = s.run0 := (rfl)
@[simp] theorem State.raiseFault_maxlen (s : State) (c : Cause) (info : Word) : (s.raiseFault c info).maxlen = s.maxlen := (rfl)
@[simp] theorem State.raiseFault_nib (s : State) (c : Cause) (info : Word) : (s.raiseFault c info).nib = s.nib := (rfl)
@[simp] theorem State.raiseFault_hist (s : State) (c : Cause) (info : Word) : (s.raiseFault c info).hist = s.hist := (rfl)
@[simp] theorem State.raiseFault_sumsq (s : State) (c : Cause) (info : Word) : (s.raiseFault c info).sumsq = s.sumsq := (rfl)
@[simp] theorem State.raiseFault_xi3n (s : State) (c : Cause) (info : Word) : (s.raiseFault c info).xi3n = s.xi3n := (rfl)
@[simp] theorem State.raiseFault_cur (s : State) (c : Cause) (info : Word) : (s.raiseFault c info).cur = s.cur := (rfl)
@[simp] theorem State.raiseFault_cnt (s : State) (c : Cause) (info : Word) : (s.raiseFault c info).cnt = s.cnt := (rfl)
@[simp] theorem State.raiseFault_rsp (s : State) (c : Cause) (info : Word) : (s.raiseFault c info).rsp = some ⟨c.status, info⟩ := (rfl)
@[simp] theorem State.raiseFault_port (s : State) (c : Cause) (info : Word) : (s.raiseFault c info).port = s.port := (rfl)

/-! ### refuseHalted -/

@[simp] theorem State.refuseHalted_seed (s : State) : (s.refuseHalted).seed = s.seed := (rfl)
@[simp] theorem State.refuseHalted_blk (s : State) : (s.refuseHalted).blk = s.blk := (rfl)
@[simp] theorem State.refuseHalted_mem (s : State) : (s.refuseHalted).mem = s.mem := (rfl)
@[simp] theorem State.refuseHalted_valid (s : State) : (s.refuseHalted).valid = s.valid := (rfl)
@[simp] theorem State.refuseHalted_fault (s : State) : (s.refuseHalted).fault = s.fault := (rfl)
@[simp] theorem State.refuseHalted_finfo (s : State) : (s.refuseHalted).finfo = s.finfo := (rfl)
@[simp] theorem State.refuseHalted_done (s : State) : (s.refuseHalted).done = s.done := (rfl)
@[simp] theorem State.refuseHalted_verdict (s : State) : (s.refuseHalted).verdict = s.verdict := (rfl)
@[simp] theorem State.refuseHalted_ones (s : State) : (s.refuseHalted).ones = s.ones := (rfl)
@[simp] theorem State.refuseHalted_run1 (s : State) : (s.refuseHalted).run1 = s.run1 := (rfl)
@[simp] theorem State.refuseHalted_run0 (s : State) : (s.refuseHalted).run0 = s.run0 := (rfl)
@[simp] theorem State.refuseHalted_maxlen (s : State) : (s.refuseHalted).maxlen = s.maxlen := (rfl)
@[simp] theorem State.refuseHalted_nib (s : State) : (s.refuseHalted).nib = s.nib := (rfl)
@[simp] theorem State.refuseHalted_hist (s : State) : (s.refuseHalted).hist = s.hist := (rfl)
@[simp] theorem State.refuseHalted_sumsq (s : State) : (s.refuseHalted).sumsq = s.sumsq := (rfl)
@[simp] theorem State.refuseHalted_xi3n (s : State) : (s.refuseHalted).xi3n = s.xi3n := (rfl)
@[simp] theorem State.refuseHalted_cur (s : State) : (s.refuseHalted).cur = s.cur := (rfl)
@[simp] theorem State.refuseHalted_cnt (s : State) : (s.refuseHalted).cnt = s.cnt := (rfl)
@[simp] theorem State.refuseHalted_rsp (s : State) : (s.refuseHalted).rsp = some ⟨.halted, s.fault.setWidth 32⟩ := (rfl)
@[simp] theorem State.refuseHalted_port (s : State) : (s.refuseHalted).port = s.port := (rfl)

/-! ### withPort -/

@[simp] theorem State.withPort_seed (s : State) (rest : List PortEvent) : (s.withPort rest).seed = s.seed := (rfl)
@[simp] theorem State.withPort_blk (s : State) (rest : List PortEvent) : (s.withPort rest).blk = s.blk := (rfl)
@[simp] theorem State.withPort_mem (s : State) (rest : List PortEvent) : (s.withPort rest).mem = s.mem := (rfl)
@[simp] theorem State.withPort_valid (s : State) (rest : List PortEvent) : (s.withPort rest).valid = s.valid := (rfl)
@[simp] theorem State.withPort_fault (s : State) (rest : List PortEvent) : (s.withPort rest).fault = s.fault := (rfl)
@[simp] theorem State.withPort_finfo (s : State) (rest : List PortEvent) : (s.withPort rest).finfo = s.finfo := (rfl)
@[simp] theorem State.withPort_done (s : State) (rest : List PortEvent) : (s.withPort rest).done = s.done := (rfl)
@[simp] theorem State.withPort_verdict (s : State) (rest : List PortEvent) : (s.withPort rest).verdict = s.verdict := (rfl)
@[simp] theorem State.withPort_ones (s : State) (rest : List PortEvent) : (s.withPort rest).ones = s.ones := (rfl)
@[simp] theorem State.withPort_run1 (s : State) (rest : List PortEvent) : (s.withPort rest).run1 = s.run1 := (rfl)
@[simp] theorem State.withPort_run0 (s : State) (rest : List PortEvent) : (s.withPort rest).run0 = s.run0 := (rfl)
@[simp] theorem State.withPort_maxlen (s : State) (rest : List PortEvent) : (s.withPort rest).maxlen = s.maxlen := (rfl)
@[simp] theorem State.withPort_nib (s : State) (rest : List PortEvent) : (s.withPort rest).nib = s.nib := (rfl)
@[simp] theorem State.withPort_hist (s : State) (rest : List PortEvent) : (s.withPort rest).hist = s.hist := (rfl)
@[simp] theorem State.withPort_sumsq (s : State) (rest : List PortEvent) : (s.withPort rest).sumsq = s.sumsq := (rfl)
@[simp] theorem State.withPort_xi3n (s : State) (rest : List PortEvent) : (s.withPort rest).xi3n = s.xi3n := (rfl)
@[simp] theorem State.withPort_cur (s : State) (rest : List PortEvent) : (s.withPort rest).cur = s.cur := (rfl)
@[simp] theorem State.withPort_cnt (s : State) (rest : List PortEvent) : (s.withPort rest).cnt = s.cnt := (rfl)
@[simp] theorem State.withPort_rsp (s : State) (rest : List PortEvent) : (s.withPort rest).rsp = s.rsp := (rfl)
@[simp] theorem State.withPort_port (s : State) (rest : List PortEvent) : (s.withPort rest).port = rest := (rfl)

/-! ### idle -/

@[simp] theorem State.idle_seed (s : State) : (s.idle).seed = s.seed := (rfl)
@[simp] theorem State.idle_blk (s : State) : (s.idle).blk = s.blk := (rfl)
@[simp] theorem State.idle_mem (s : State) : (s.idle).mem = s.mem := (rfl)
@[simp] theorem State.idle_valid (s : State) : (s.idle).valid = s.valid := (rfl)
@[simp] theorem State.idle_fault (s : State) : (s.idle).fault = s.fault := (rfl)
@[simp] theorem State.idle_finfo (s : State) : (s.idle).finfo = s.finfo := (rfl)
@[simp] theorem State.idle_done (s : State) : (s.idle).done = s.done := (rfl)
@[simp] theorem State.idle_verdict (s : State) : (s.idle).verdict = s.verdict := (rfl)
@[simp] theorem State.idle_ones (s : State) : (s.idle).ones = s.ones := (rfl)
@[simp] theorem State.idle_run1 (s : State) : (s.idle).run1 = s.run1 := (rfl)
@[simp] theorem State.idle_run0 (s : State) : (s.idle).run0 = s.run0 := (rfl)
@[simp] theorem State.idle_maxlen (s : State) : (s.idle).maxlen = s.maxlen := (rfl)
@[simp] theorem State.idle_nib (s : State) : (s.idle).nib = s.nib := (rfl)
@[simp] theorem State.idle_hist (s : State) : (s.idle).hist = s.hist := (rfl)
@[simp] theorem State.idle_sumsq (s : State) : (s.idle).sumsq = s.sumsq := (rfl)
@[simp] theorem State.idle_xi3n (s : State) : (s.idle).xi3n = s.xi3n := (rfl)
@[simp] theorem State.idle_cur (s : State) : (s.idle).cur = s.cur := (rfl)
@[simp] theorem State.idle_cnt (s : State) : (s.idle).cnt = s.cnt := (rfl)
@[simp] theorem State.idle_rsp (s : State) : (s.idle).rsp = none := (rfl)
@[simp] theorem State.idle_port (s : State) : (s.idle).port = s.port := (rfl)

/-! ### recordVerdict -/

@[simp] theorem State.recordVerdict_seed (s : State) (t : TestUnit) (p : Bool) : (s.recordVerdict t p).seed = s.seed := (rfl)
@[simp] theorem State.recordVerdict_blk (s : State) (t : TestUnit) (p : Bool) : (s.recordVerdict t p).blk = s.blk := (rfl)
@[simp] theorem State.recordVerdict_mem (s : State) (t : TestUnit) (p : Bool) : (s.recordVerdict t p).mem = s.mem := (rfl)
@[simp] theorem State.recordVerdict_valid (s : State) (t : TestUnit) (p : Bool) : (s.recordVerdict t p).valid = s.valid := (rfl)
@[simp] theorem State.recordVerdict_fault (s : State) (t : TestUnit) (p : Bool) : (s.recordVerdict t p).fault = s.fault := (rfl)
@[simp] theorem State.recordVerdict_finfo (s : State) (t : TestUnit) (p : Bool) : (s.recordVerdict t p).finfo = s.finfo := (rfl)
@[simp] theorem State.recordVerdict_done (s : State) (t : TestUnit) (p : Bool) : (s.recordVerdict t p).done = s.done ||| t.mask := (rfl)
@[simp] theorem State.recordVerdict_verdict (s : State) (t : TestUnit) (p : Bool) : (s.recordVerdict t p).verdict = if p then s.verdict ||| t.mask else s.verdict &&& ~~~t.mask := (rfl)
@[simp] theorem State.recordVerdict_ones (s : State) (t : TestUnit) (p : Bool) : (s.recordVerdict t p).ones = s.ones := (rfl)
@[simp] theorem State.recordVerdict_run1 (s : State) (t : TestUnit) (p : Bool) : (s.recordVerdict t p).run1 = s.run1 := (rfl)
@[simp] theorem State.recordVerdict_run0 (s : State) (t : TestUnit) (p : Bool) : (s.recordVerdict t p).run0 = s.run0 := (rfl)
@[simp] theorem State.recordVerdict_maxlen (s : State) (t : TestUnit) (p : Bool) : (s.recordVerdict t p).maxlen = s.maxlen := (rfl)
@[simp] theorem State.recordVerdict_nib (s : State) (t : TestUnit) (p : Bool) : (s.recordVerdict t p).nib = s.nib := (rfl)
@[simp] theorem State.recordVerdict_hist (s : State) (t : TestUnit) (p : Bool) : (s.recordVerdict t p).hist = s.hist := (rfl)
@[simp] theorem State.recordVerdict_sumsq (s : State) (t : TestUnit) (p : Bool) : (s.recordVerdict t p).sumsq = s.sumsq := (rfl)
@[simp] theorem State.recordVerdict_xi3n (s : State) (t : TestUnit) (p : Bool) : (s.recordVerdict t p).xi3n = s.xi3n := (rfl)
@[simp] theorem State.recordVerdict_cur (s : State) (t : TestUnit) (p : Bool) : (s.recordVerdict t p).cur = s.cur := (rfl)
@[simp] theorem State.recordVerdict_cnt (s : State) (t : TestUnit) (p : Bool) : (s.recordVerdict t p).cnt = s.cnt := (rfl)
@[simp] theorem State.recordVerdict_rsp (s : State) (t : TestUnit) (p : Bool) : (s.recordVerdict t p).rsp = s.rsp := (rfl)
@[simp] theorem State.recordVerdict_port (s : State) (t : TestUnit) (p : Bool) : (s.recordVerdict t p).port = s.port := (rfl)

/-! ### finishTest -/

@[simp] theorem State.finishTest_seed (s : State) (t : TestUnit) (p : Bool) : (s.finishTest t p).seed = s.seed := (rfl)
@[simp] theorem State.finishTest_blk (s : State) (t : TestUnit) (p : Bool) : (s.finishTest t p).blk = s.blk := (rfl)
@[simp] theorem State.finishTest_mem (s : State) (t : TestUnit) (p : Bool) : (s.finishTest t p).mem = s.mem := (rfl)
@[simp] theorem State.finishTest_valid (s : State) (t : TestUnit) (p : Bool) : (s.finishTest t p).valid = s.valid := (rfl)
@[simp] theorem State.finishTest_fault (s : State) (t : TestUnit) (p : Bool) : (s.finishTest t p).fault = s.fault := (rfl)
@[simp] theorem State.finishTest_finfo (s : State) (t : TestUnit) (p : Bool) : (s.finishTest t p).finfo = s.finfo := (rfl)
@[simp] theorem State.finishTest_done (s : State) (t : TestUnit) (p : Bool) : (s.finishTest t p).done = s.done ||| t.mask := (rfl)
@[simp] theorem State.finishTest_verdict (s : State) (t : TestUnit) (p : Bool) : (s.finishTest t p).verdict = if p then s.verdict ||| t.mask else s.verdict &&& ~~~t.mask := (rfl)
@[simp] theorem State.finishTest_ones (s : State) (t : TestUnit) (p : Bool) : (s.finishTest t p).ones = s.ones := (rfl)
@[simp] theorem State.finishTest_run1 (s : State) (t : TestUnit) (p : Bool) : (s.finishTest t p).run1 = s.run1 := (rfl)
@[simp] theorem State.finishTest_run0 (s : State) (t : TestUnit) (p : Bool) : (s.finishTest t p).run0 = s.run0 := (rfl)
@[simp] theorem State.finishTest_maxlen (s : State) (t : TestUnit) (p : Bool) : (s.finishTest t p).maxlen = s.maxlen := (rfl)
@[simp] theorem State.finishTest_nib (s : State) (t : TestUnit) (p : Bool) : (s.finishTest t p).nib = s.nib := (rfl)
@[simp] theorem State.finishTest_hist (s : State) (t : TestUnit) (p : Bool) : (s.finishTest t p).hist = s.hist := (rfl)
@[simp] theorem State.finishTest_sumsq (s : State) (t : TestUnit) (p : Bool) : (s.finishTest t p).sumsq = s.sumsq := (rfl)
@[simp] theorem State.finishTest_xi3n (s : State) (t : TestUnit) (p : Bool) : (s.finishTest t p).xi3n = s.xi3n := (rfl)
@[simp] theorem State.finishTest_cur (s : State) (t : TestUnit) (p : Bool) : (s.finishTest t p).cur = s.cur := (rfl)
@[simp] theorem State.finishTest_cnt (s : State) (t : TestUnit) (p : Bool) : (s.finishTest t p).cnt = s.cnt := (rfl)
@[simp] theorem State.finishTest_rsp (s : State) (t : TestUnit) (p : Bool) : (s.finishTest t p).rsp = some ⟨.ok, flagWord p⟩ := (rfl)
@[simp] theorem State.finishTest_port (s : State) (t : TestUnit) (p : Bool) : (s.finishTest t p).port = s.port := (rfl)

/-! ### setGenerator -/

@[simp] theorem State.setGenerator_seed (s : State) (g : GenUnit) : (s.setGenerator g).seed = g.seed := (rfl)
@[simp] theorem State.setGenerator_blk (s : State) (g : GenUnit) : (s.setGenerator g).blk = g.blk := (rfl)
@[simp] theorem State.setGenerator_mem (s : State) (g : GenUnit) : (s.setGenerator g).mem = g.mem := (rfl)
@[simp] theorem State.setGenerator_valid (s : State) (g : GenUnit) : (s.setGenerator g).valid = s.valid := (rfl)
@[simp] theorem State.setGenerator_fault (s : State) (g : GenUnit) : (s.setGenerator g).fault = s.fault := (rfl)
@[simp] theorem State.setGenerator_finfo (s : State) (g : GenUnit) : (s.setGenerator g).finfo = s.finfo := (rfl)
@[simp] theorem State.setGenerator_done (s : State) (g : GenUnit) : (s.setGenerator g).done = s.done := (rfl)
@[simp] theorem State.setGenerator_verdict (s : State) (g : GenUnit) : (s.setGenerator g).verdict = s.verdict := (rfl)
@[simp] theorem State.setGenerator_ones (s : State) (g : GenUnit) : (s.setGenerator g).ones = s.ones := (rfl)
@[simp] theorem State.setGenerator_run1 (s : State) (g : GenUnit) : (s.setGenerator g).run1 = s.run1 := (rfl)
@[simp] theorem State.setGenerator_run0 (s : State) (g : GenUnit) : (s.setGenerator g).run0 = s.run0 := (rfl)
@[simp] theorem State.setGenerator_maxlen (s : State) (g : GenUnit) : (s.setGenerator g).maxlen = s.maxlen := (rfl)
@[simp] theorem State.setGenerator_nib (s : State) (g : GenUnit) : (s.setGenerator g).nib = s.nib := (rfl)
@[simp] theorem State.setGenerator_hist (s : State) (g : GenUnit) : (s.setGenerator g).hist = s.hist := (rfl)
@[simp] theorem State.setGenerator_sumsq (s : State) (g : GenUnit) : (s.setGenerator g).sumsq = s.sumsq := (rfl)
@[simp] theorem State.setGenerator_xi3n (s : State) (g : GenUnit) : (s.setGenerator g).xi3n = s.xi3n := (rfl)
@[simp] theorem State.setGenerator_cur (s : State) (g : GenUnit) : (s.setGenerator g).cur = s.cur := (rfl)
@[simp] theorem State.setGenerator_cnt (s : State) (g : GenUnit) : (s.setGenerator g).cnt = s.cnt := (rfl)
@[simp] theorem State.setGenerator_rsp (s : State) (g : GenUnit) : (s.setGenerator g).rsp = s.rsp := (rfl)
@[simp] theorem State.setGenerator_port (s : State) (g : GenUnit) : (s.setGenerator g).port = s.port := (rfl)

/-! ### setValid -/

@[simp] theorem State.setValid_seed (s : State) : (s.setValid).seed = s.seed := (rfl)
@[simp] theorem State.setValid_blk (s : State) : (s.setValid).blk = s.blk := (rfl)
@[simp] theorem State.setValid_mem (s : State) : (s.setValid).mem = s.mem := (rfl)
@[simp] theorem State.setValid_valid (s : State) : (s.setValid).valid = true := (rfl)
@[simp] theorem State.setValid_fault (s : State) : (s.setValid).fault = s.fault := (rfl)
@[simp] theorem State.setValid_finfo (s : State) : (s.setValid).finfo = s.finfo := (rfl)
@[simp] theorem State.setValid_done (s : State) : (s.setValid).done = s.done := (rfl)
@[simp] theorem State.setValid_verdict (s : State) : (s.setValid).verdict = s.verdict := (rfl)
@[simp] theorem State.setValid_ones (s : State) : (s.setValid).ones = s.ones := (rfl)
@[simp] theorem State.setValid_run1 (s : State) : (s.setValid).run1 = s.run1 := (rfl)
@[simp] theorem State.setValid_run0 (s : State) : (s.setValid).run0 = s.run0 := (rfl)
@[simp] theorem State.setValid_maxlen (s : State) : (s.setValid).maxlen = s.maxlen := (rfl)
@[simp] theorem State.setValid_nib (s : State) : (s.setValid).nib = s.nib := (rfl)
@[simp] theorem State.setValid_hist (s : State) : (s.setValid).hist = s.hist := (rfl)
@[simp] theorem State.setValid_sumsq (s : State) : (s.setValid).sumsq = s.sumsq := (rfl)
@[simp] theorem State.setValid_xi3n (s : State) : (s.setValid).xi3n = s.xi3n := (rfl)
@[simp] theorem State.setValid_cur (s : State) : (s.setValid).cur = s.cur := (rfl)
@[simp] theorem State.setValid_cnt (s : State) : (s.setValid).cnt = s.cnt := (rfl)
@[simp] theorem State.setValid_rsp (s : State) : (s.setValid).rsp = s.rsp := (rfl)
@[simp] theorem State.setValid_port (s : State) : (s.setValid).port = s.port := (rfl)

/-! ### setOnes -/

@[simp] theorem State.setOnes_seed (s : State) (n : Nat) : (s.setOnes n).seed = s.seed := (rfl)
@[simp] theorem State.setOnes_blk (s : State) (n : Nat) : (s.setOnes n).blk = s.blk := (rfl)
@[simp] theorem State.setOnes_mem (s : State) (n : Nat) : (s.setOnes n).mem = s.mem := (rfl)
@[simp] theorem State.setOnes_valid (s : State) (n : Nat) : (s.setOnes n).valid = s.valid := (rfl)
@[simp] theorem State.setOnes_fault (s : State) (n : Nat) : (s.setOnes n).fault = s.fault := (rfl)
@[simp] theorem State.setOnes_finfo (s : State) (n : Nat) : (s.setOnes n).finfo = s.finfo := (rfl)
@[simp] theorem State.setOnes_done (s : State) (n : Nat) : (s.setOnes n).done = s.done := (rfl)
@[simp] theorem State.setOnes_verdict (s : State) (n : Nat) : (s.setOnes n).verdict = s.verdict := (rfl)
@[simp] theorem State.setOnes_ones (s : State) (n : Nat) : (s.setOnes n).ones = BitVec.ofNat 15 n := (rfl)
@[simp] theorem State.setOnes_run1 (s : State) (n : Nat) : (s.setOnes n).run1 = s.run1 := (rfl)
@[simp] theorem State.setOnes_run0 (s : State) (n : Nat) : (s.setOnes n).run0 = s.run0 := (rfl)
@[simp] theorem State.setOnes_maxlen (s : State) (n : Nat) : (s.setOnes n).maxlen = s.maxlen := (rfl)
@[simp] theorem State.setOnes_nib (s : State) (n : Nat) : (s.setOnes n).nib = s.nib := (rfl)
@[simp] theorem State.setOnes_hist (s : State) (n : Nat) : (s.setOnes n).hist = s.hist := (rfl)
@[simp] theorem State.setOnes_sumsq (s : State) (n : Nat) : (s.setOnes n).sumsq = s.sumsq := (rfl)
@[simp] theorem State.setOnes_xi3n (s : State) (n : Nat) : (s.setOnes n).xi3n = s.xi3n := (rfl)
@[simp] theorem State.setOnes_cur (s : State) (n : Nat) : (s.setOnes n).cur = s.cur := (rfl)
@[simp] theorem State.setOnes_cnt (s : State) (n : Nat) : (s.setOnes n).cnt = s.cnt := (rfl)
@[simp] theorem State.setOnes_rsp (s : State) (n : Nat) : (s.setOnes n).rsp = s.rsp := (rfl)
@[simp] theorem State.setOnes_port (s : State) (n : Nat) : (s.setOnes n).port = s.port := (rfl)

/-! ### setRunCounters -/

@[simp] theorem State.setRunCounters_seed (s : State) (c : RunScan) : (s.setRunCounters c).seed = s.seed := (rfl)
@[simp] theorem State.setRunCounters_blk (s : State) (c : RunScan) : (s.setRunCounters c).blk = s.blk := (rfl)
@[simp] theorem State.setRunCounters_mem (s : State) (c : RunScan) : (s.setRunCounters c).mem = s.mem := (rfl)
@[simp] theorem State.setRunCounters_valid (s : State) (c : RunScan) : (s.setRunCounters c).valid = s.valid := (rfl)
@[simp] theorem State.setRunCounters_fault (s : State) (c : RunScan) : (s.setRunCounters c).fault = s.fault := (rfl)
@[simp] theorem State.setRunCounters_finfo (s : State) (c : RunScan) : (s.setRunCounters c).finfo = s.finfo := (rfl)
@[simp] theorem State.setRunCounters_done (s : State) (c : RunScan) : (s.setRunCounters c).done = s.done := (rfl)
@[simp] theorem State.setRunCounters_verdict (s : State) (c : RunScan) : (s.setRunCounters c).verdict = s.verdict := (rfl)
@[simp] theorem State.setRunCounters_ones (s : State) (c : RunScan) : (s.setRunCounters c).ones = s.ones := (rfl)
@[simp] theorem State.setRunCounters_run1 (s : State) (c : RunScan) : (s.setRunCounters c).run1 = BitVec.ofNat 15 c.run1 := (rfl)
@[simp] theorem State.setRunCounters_run0 (s : State) (c : RunScan) : (s.setRunCounters c).run0 = BitVec.ofNat 15 c.run0 := (rfl)
@[simp] theorem State.setRunCounters_maxlen (s : State) (c : RunScan) : (s.setRunCounters c).maxlen = BitVec.ofNat 15 c.maxlen := (rfl)
@[simp] theorem State.setRunCounters_nib (s : State) (c : RunScan) : (s.setRunCounters c).nib = s.nib := (rfl)
@[simp] theorem State.setRunCounters_hist (s : State) (c : RunScan) : (s.setRunCounters c).hist = s.hist := (rfl)
@[simp] theorem State.setRunCounters_sumsq (s : State) (c : RunScan) : (s.setRunCounters c).sumsq = s.sumsq := (rfl)
@[simp] theorem State.setRunCounters_xi3n (s : State) (c : RunScan) : (s.setRunCounters c).xi3n = s.xi3n := (rfl)
@[simp] theorem State.setRunCounters_cur (s : State) (c : RunScan) : (s.setRunCounters c).cur = s.cur := (rfl)
@[simp] theorem State.setRunCounters_cnt (s : State) (c : RunScan) : (s.setRunCounters c).cnt = s.cnt := (rfl)
@[simp] theorem State.setRunCounters_rsp (s : State) (c : RunScan) : (s.setRunCounters c).rsp = s.rsp := (rfl)
@[simp] theorem State.setRunCounters_port (s : State) (c : RunScan) : (s.setRunCounters c).port = s.port := (rfl)

/-! ### setPoker -/

@[simp] theorem State.setPoker_seed (s : State) (h : Vector Nat 16) (q x : Nat) : (s.setPoker h q x).seed = s.seed := (rfl)
@[simp] theorem State.setPoker_blk (s : State) (h : Vector Nat 16) (q x : Nat) : (s.setPoker h q x).blk = s.blk := (rfl)
@[simp] theorem State.setPoker_mem (s : State) (h : Vector Nat 16) (q x : Nat) : (s.setPoker h q x).mem = s.mem := (rfl)
@[simp] theorem State.setPoker_valid (s : State) (h : Vector Nat 16) (q x : Nat) : (s.setPoker h q x).valid = s.valid := (rfl)
@[simp] theorem State.setPoker_fault (s : State) (h : Vector Nat 16) (q x : Nat) : (s.setPoker h q x).fault = s.fault := (rfl)
@[simp] theorem State.setPoker_finfo (s : State) (h : Vector Nat 16) (q x : Nat) : (s.setPoker h q x).finfo = s.finfo := (rfl)
@[simp] theorem State.setPoker_done (s : State) (h : Vector Nat 16) (q x : Nat) : (s.setPoker h q x).done = s.done := (rfl)
@[simp] theorem State.setPoker_verdict (s : State) (h : Vector Nat 16) (q x : Nat) : (s.setPoker h q x).verdict = s.verdict := (rfl)
@[simp] theorem State.setPoker_ones (s : State) (h : Vector Nat 16) (q x : Nat) : (s.setPoker h q x).ones = s.ones := (rfl)
@[simp] theorem State.setPoker_run1 (s : State) (h : Vector Nat 16) (q x : Nat) : (s.setPoker h q x).run1 = s.run1 := (rfl)
@[simp] theorem State.setPoker_run0 (s : State) (h : Vector Nat 16) (q x : Nat) : (s.setPoker h q x).run0 = s.run0 := (rfl)
@[simp] theorem State.setPoker_maxlen (s : State) (h : Vector Nat 16) (q x : Nat) : (s.setPoker h q x).maxlen = s.maxlen := (rfl)
@[simp] theorem State.setPoker_nib (s : State) (h : Vector Nat 16) (q x : Nat) : (s.setPoker h q x).nib = 0#4 := (rfl)
@[simp] theorem State.setPoker_hist (s : State) (h : Vector Nat 16) (q x : Nat) : (s.setPoker h q x).hist = h.map (BitVec.ofNat 13) := (rfl)
@[simp] theorem State.setPoker_sumsq (s : State) (h : Vector Nat 16) (q x : Nat) : (s.setPoker h q x).sumsq = BitVec.ofNat 25 q := (rfl)
@[simp] theorem State.setPoker_xi3n (s : State) (h : Vector Nat 16) (q x : Nat) : (s.setPoker h q x).xi3n = BitVec.ofNat 29 x := (rfl)
@[simp] theorem State.setPoker_cur (s : State) (h : Vector Nat 16) (q x : Nat) : (s.setPoker h q x).cur = s.cur := (rfl)
@[simp] theorem State.setPoker_cnt (s : State) (h : Vector Nat 16) (q x : Nat) : (s.setPoker h q x).cnt = s.cnt := (rfl)
@[simp] theorem State.setPoker_rsp (s : State) (h : Vector Nat 16) (q x : Nat) : (s.setPoker h q x).rsp = s.rsp := (rfl)
@[simp] theorem State.setPoker_port (s : State) (h : Vector Nat 16) (q x : Nat) : (s.setPoker h q x).port = s.port := (rfl)

/-! ### setOneRunCounters -/

@[simp] theorem State.setOneRunCounters_seed (s : State) (c : OnesScan) : (s.setOneRunCounters c).seed = s.seed := (rfl)
@[simp] theorem State.setOneRunCounters_blk (s : State) (c : OnesScan) : (s.setOneRunCounters c).blk = s.blk := (rfl)
@[simp] theorem State.setOneRunCounters_mem (s : State) (c : OnesScan) : (s.setOneRunCounters c).mem = s.mem := (rfl)
@[simp] theorem State.setOneRunCounters_valid (s : State) (c : OnesScan) : (s.setOneRunCounters c).valid = s.valid := (rfl)
@[simp] theorem State.setOneRunCounters_fault (s : State) (c : OnesScan) : (s.setOneRunCounters c).fault = s.fault := (rfl)
@[simp] theorem State.setOneRunCounters_finfo (s : State) (c : OnesScan) : (s.setOneRunCounters c).finfo = s.finfo := (rfl)
@[simp] theorem State.setOneRunCounters_done (s : State) (c : OnesScan) : (s.setOneRunCounters c).done = s.done := (rfl)
@[simp] theorem State.setOneRunCounters_verdict (s : State) (c : OnesScan) : (s.setOneRunCounters c).verdict = s.verdict := (rfl)
@[simp] theorem State.setOneRunCounters_ones (s : State) (c : OnesScan) : (s.setOneRunCounters c).ones = s.ones := (rfl)
@[simp] theorem State.setOneRunCounters_run1 (s : State) (c : OnesScan) : (s.setOneRunCounters c).run1 = s.run1 := (rfl)
@[simp] theorem State.setOneRunCounters_run0 (s : State) (c : OnesScan) : (s.setOneRunCounters c).run0 = s.run0 := (rfl)
@[simp] theorem State.setOneRunCounters_maxlen (s : State) (c : OnesScan) : (s.setOneRunCounters c).maxlen = s.maxlen := (rfl)
@[simp] theorem State.setOneRunCounters_nib (s : State) (c : OnesScan) : (s.setOneRunCounters c).nib = s.nib := (rfl)
@[simp] theorem State.setOneRunCounters_hist (s : State) (c : OnesScan) : (s.setOneRunCounters c).hist = s.hist := (rfl)
@[simp] theorem State.setOneRunCounters_sumsq (s : State) (c : OnesScan) : (s.setOneRunCounters c).sumsq = s.sumsq := (rfl)
@[simp] theorem State.setOneRunCounters_xi3n (s : State) (c : OnesScan) : (s.setOneRunCounters c).xi3n = s.xi3n := (rfl)
@[simp] theorem State.setOneRunCounters_cur (s : State) (c : OnesScan) : (s.setOneRunCounters c).cur = BitVec.ofNat 15 c.cur := (rfl)
@[simp] theorem State.setOneRunCounters_cnt (s : State) (c : OnesScan) : (s.setOneRunCounters c).cnt = c.cnt.map (BitVec.ofNat 14) := (rfl)
@[simp] theorem State.setOneRunCounters_rsp (s : State) (c : OnesScan) : (s.setOneRunCounters c).rsp = s.rsp := (rfl)
@[simp] theorem State.setOneRunCounters_port (s : State) (c : OnesScan) : (s.setOneRunCounters c).port = s.port := (rfl)

end Sys2Proof.Machine
end

