-- ==== Sys2Proof/Laws/Effects.lean ====
section
/-! SUPPORT. The state after each completed command, under a name, with one lemma per field. The names are irreducible:
the elaborator never runs a scan by itself (a subtraction from a symbolic sum of squares would be unfolded 25000000
times); use the field lemmas. -/

namespace Sys2Proof.Machine

/-- GEN's effect. -/
@[irreducible] def State.afterGen (s : State) : State :=
  ((s.setGenerator (construct s.blk s.mem)).setValid).respond .ok 0#32

/-- MONO's effect on a sequence of blocks. -/
@[irreducible] def State.afterMono (s : State) (vs : List Block) : State :=
  (s.setOnes (countOnes (sequenceOf vs))).finishTest .mono (monoPass (countOnes (sequenceOf vs)))

/-- MAXRUN's effect on a sequence of blocks. -/
@[irreducible] def State.afterMaxrun (s : State) (vs : List Block) : State :=
  (s.setRunCounters (scanRuns (sequenceOf vs))).finishTest .maxrun (maxrunPass (scanRuns (sequenceOf vs)).maxlen)

/-- POKER's effect on a sequence of blocks. -/
@[irreducible] def State.afterPoker (s : State) (vs : List Block) : State :=
  (s.setPoker (pokerHist (sequenceOf vs)) (sumSquares (pokerHist (sequenceOf vs)))
    (xi3Numerator 5000 (sumSquares (pokerHist (sequenceOf vs))))).finishTest .poker
      (pokerPass 5000 (xi3Numerator 5000 (sumSquares (pokerHist (sequenceOf vs)))))

/-- RUNS's effect on a sequence of blocks. -/
@[irreducible] def State.afterRuns (s : State) (vs : List Block) : State :=
  (s.setOneRunCounters (scanOneRuns (sequenceOf vs))).finishTest .runs (runsPass (scanOneRuns (sequenceOf vs)).cnt)

/-- The effect of the test of a unit. -/
def State.afterTest (s : State) (u : TestUnit) (vs : List Block) : State :=
  match u with
  | .mono => s.afterMono vs
  | .maxrun => s.afterMaxrun vs
  | .poker => s.afterPoker vs
  | .runs => s.afterRuns vs

/-- The verdict of the test of a unit. -/
def TestUnit.pass (u : TestUnit) (vs : List Block) : Bool :=
  match u with
  | .mono => monoPass (countOnes (sequenceOf vs))
  | .maxrun => maxrunPass (scanRuns (sequenceOf vs)).maxlen
  | .poker => pokerPass 5000 (xi3Numerator 5000 (sumSquares (pokerHist (sequenceOf vs))))
  | .runs => runsPass (scanOneRuns (sequenceOf vs)).cnt

@[simp] theorem State.afterTest_mono (s : State) (vs : List Block) : s.afterTest .mono vs = s.afterMono vs := rfl
@[simp] theorem State.afterTest_maxrun (s : State) (vs : List Block) : s.afterTest .maxrun vs = s.afterMaxrun vs := rfl
@[simp] theorem State.afterTest_poker (s : State) (vs : List Block) : s.afterTest .poker vs = s.afterPoker vs := rfl
@[simp] theorem State.afterTest_runs (s : State) (vs : List Block) : s.afterTest .runs vs = s.afterRuns vs := rfl

/-! ### GEN -/

@[simp] theorem State.afterGen_seed (s : State) : s.afterGen.seed = (construct s.blk s.mem).seed := by
  simp only [State.afterGen, State.respond_seed, State.setValid_seed, State.setGenerator_seed]
@[simp] theorem State.afterGen_blk (s : State) : s.afterGen.blk = (construct s.blk s.mem).blk := by
  simp only [State.afterGen, State.respond_blk, State.setValid_blk, State.setGenerator_blk]
@[simp] theorem State.afterGen_mem (s : State) : s.afterGen.mem = (construct s.blk s.mem).mem := by
  simp only [State.afterGen, State.respond_mem, State.setValid_mem, State.setGenerator_mem]
@[simp] theorem State.afterGen_valid (s : State) : s.afterGen.valid = true := by
  simp only [State.afterGen, State.respond_valid, State.setValid_valid]
@[simp] theorem State.afterGen_fault (s : State) : s.afterGen.fault = s.fault := by
  simp only [State.afterGen, State.respond_fault, State.setValid_fault, State.setGenerator_fault]
@[simp] theorem State.afterGen_finfo (s : State) : s.afterGen.finfo = s.finfo := by
  simp only [State.afterGen, State.respond_finfo, State.setValid_finfo, State.setGenerator_finfo]
@[simp] theorem State.afterGen_done (s : State) : s.afterGen.done = s.done := by
  simp only [State.afterGen, State.respond_done, State.setValid_done, State.setGenerator_done]
@[simp] theorem State.afterGen_verdict (s : State) : s.afterGen.verdict = s.verdict := by
  simp only [State.afterGen, State.respond_verdict, State.setValid_verdict, State.setGenerator_verdict]
@[simp] theorem State.afterGen_ones (s : State) : s.afterGen.ones = s.ones := by
  simp only [State.afterGen, State.respond_ones, State.setValid_ones, State.setGenerator_ones]
@[simp] theorem State.afterGen_run1 (s : State) : s.afterGen.run1 = s.run1 := by
  simp only [State.afterGen, State.respond_run1, State.setValid_run1, State.setGenerator_run1]
@[simp] theorem State.afterGen_run0 (s : State) : s.afterGen.run0 = s.run0 := by
  simp only [State.afterGen, State.respond_run0, State.setValid_run0, State.setGenerator_run0]
@[simp] theorem State.afterGen_maxlen (s : State) : s.afterGen.maxlen = s.maxlen := by
  simp only [State.afterGen, State.respond_maxlen, State.setValid_maxlen, State.setGenerator_maxlen]
@[simp] theorem State.afterGen_nib (s : State) : s.afterGen.nib = s.nib := by
  simp only [State.afterGen, State.respond_nib, State.setValid_nib, State.setGenerator_nib]
@[simp] theorem State.afterGen_hist (s : State) : s.afterGen.hist = s.hist := by
  simp only [State.afterGen, State.respond_hist, State.setValid_hist, State.setGenerator_hist]
@[simp] theorem State.afterGen_sumsq (s : State) : s.afterGen.sumsq = s.sumsq := by
  simp only [State.afterGen, State.respond_sumsq, State.setValid_sumsq, State.setGenerator_sumsq]
@[simp] theorem State.afterGen_xi3n (s : State) : s.afterGen.xi3n = s.xi3n := by
  simp only [State.afterGen, State.respond_xi3n, State.setValid_xi3n, State.setGenerator_xi3n]
@[simp] theorem State.afterGen_cur (s : State) : s.afterGen.cur = s.cur := by
  simp only [State.afterGen, State.respond_cur, State.setValid_cur, State.setGenerator_cur]
@[simp] theorem State.afterGen_cnt (s : State) : s.afterGen.cnt = s.cnt := by
  simp only [State.afterGen, State.respond_cnt, State.setValid_cnt, State.setGenerator_cnt]
@[simp] theorem State.afterGen_rsp (s : State) : s.afterGen.rsp = some ⟨.ok, 0#32⟩ := by
  simp only [State.afterGen, State.respond_rsp]
@[simp] theorem State.afterGen_port (s : State) : s.afterGen.port = s.port := by
  simp only [State.afterGen, State.respond_port, State.setValid_port, State.setGenerator_port]

/-! ### MONO -/

@[simp] theorem State.afterMono_seed (s : State) (vs : List Block) : (s.afterMono vs).seed = s.seed := by
  simp only [State.afterMono, State.finishTest_seed, State.setOnes_seed]
@[simp] theorem State.afterMono_blk (s : State) (vs : List Block) : (s.afterMono vs).blk = s.blk := by
  simp only [State.afterMono, State.finishTest_blk, State.setOnes_blk]
@[simp] theorem State.afterMono_mem (s : State) (vs : List Block) : (s.afterMono vs).mem = s.mem := by
  simp only [State.afterMono, State.finishTest_mem, State.setOnes_mem]
@[simp] theorem State.afterMono_valid (s : State) (vs : List Block) : (s.afterMono vs).valid =
    s.valid := by
  simp only [State.afterMono, State.finishTest_valid, State.setOnes_valid]
@[simp] theorem State.afterMono_fault (s : State) (vs : List Block) : (s.afterMono vs).fault =
    s.fault := by
  simp only [State.afterMono, State.finishTest_fault, State.setOnes_fault]
@[simp] theorem State.afterMono_finfo (s : State) (vs : List Block) : (s.afterMono vs).finfo =
    s.finfo := by
  simp only [State.afterMono, State.finishTest_finfo, State.setOnes_finfo]
@[simp] theorem State.afterMono_done (s : State) (vs : List Block) : (s.afterMono vs).done =
    s.done ||| TestUnit.mask .mono := by
  simp only [State.afterMono, State.finishTest_done, State.setOnes_done]
@[simp] theorem State.afterMono_verdict (s : State) (vs : List Block) : (s.afterMono vs).verdict =
    if monoPass (countOnes (sequenceOf vs)) then s.verdict ||| TestUnit.mask .mono else s.verdict &&& ~~~(TestUnit.mask .mono) := by
  simp only [State.afterMono, State.finishTest_verdict, State.setOnes_verdict]
@[simp] theorem State.afterMono_ones (s : State) (vs : List Block) : (s.afterMono vs).ones =
    BitVec.ofNat 15 (countOnes (sequenceOf vs)) := by
  simp only [State.afterMono, State.finishTest_ones, State.setOnes_ones]
@[simp] theorem State.afterMono_run1 (s : State) (vs : List Block) : (s.afterMono vs).run1 = s.run1 := by
  simp only [State.afterMono, State.finishTest_run1, State.setOnes_run1]
@[simp] theorem State.afterMono_run0 (s : State) (vs : List Block) : (s.afterMono vs).run0 = s.run0 := by
  simp only [State.afterMono, State.finishTest_run0, State.setOnes_run0]
@[simp] theorem State.afterMono_maxlen (s : State) (vs : List Block) : (s.afterMono vs).maxlen =
    s.maxlen := by
  simp only [State.afterMono, State.finishTest_maxlen, State.setOnes_maxlen]
@[simp] theorem State.afterMono_nib (s : State) (vs : List Block) : (s.afterMono vs).nib = s.nib := by
  simp only [State.afterMono, State.finishTest_nib, State.setOnes_nib]
@[simp] theorem State.afterMono_hist (s : State) (vs : List Block) : (s.afterMono vs).hist = s.hist := by
  simp only [State.afterMono, State.finishTest_hist, State.setOnes_hist]
@[simp] theorem State.afterMono_sumsq (s : State) (vs : List Block) : (s.afterMono vs).sumsq =
    s.sumsq := by
  simp only [State.afterMono, State.finishTest_sumsq, State.setOnes_sumsq]
@[simp] theorem State.afterMono_xi3n (s : State) (vs : List Block) : (s.afterMono vs).xi3n = s.xi3n := by
  simp only [State.afterMono, State.finishTest_xi3n, State.setOnes_xi3n]
@[simp] theorem State.afterMono_cur (s : State) (vs : List Block) : (s.afterMono vs).cur = s.cur := by
  simp only [State.afterMono, State.finishTest_cur, State.setOnes_cur]
@[simp] theorem State.afterMono_cnt (s : State) (vs : List Block) : (s.afterMono vs).cnt = s.cnt := by
  simp only [State.afterMono, State.finishTest_cnt, State.setOnes_cnt]
@[simp] theorem State.afterMono_rsp (s : State) (vs : List Block) : (s.afterMono vs).rsp =
    some ⟨.ok, flagWord (monoPass (countOnes (sequenceOf vs)))⟩ := by
  simp only [State.afterMono, State.finishTest_rsp]
@[simp] theorem State.afterMono_port (s : State) (vs : List Block) : (s.afterMono vs).port = s.port := by
  simp only [State.afterMono, State.finishTest_port, State.setOnes_port]

/-! ### MAXRUN -/

@[simp] theorem State.afterMaxrun_seed (s : State) (vs : List Block) : (s.afterMaxrun vs).seed =
    s.seed := by
  simp only [State.afterMaxrun, State.finishTest_seed, State.setRunCounters_seed]
@[simp] theorem State.afterMaxrun_blk (s : State) (vs : List Block) : (s.afterMaxrun vs).blk = s.blk := by
  simp only [State.afterMaxrun, State.finishTest_blk, State.setRunCounters_blk]
@[simp] theorem State.afterMaxrun_mem (s : State) (vs : List Block) : (s.afterMaxrun vs).mem = s.mem := by
  simp only [State.afterMaxrun, State.finishTest_mem, State.setRunCounters_mem]
@[simp] theorem State.afterMaxrun_valid (s : State) (vs : List Block) : (s.afterMaxrun vs).valid =
    s.valid := by
  simp only [State.afterMaxrun, State.finishTest_valid, State.setRunCounters_valid]
@[simp] theorem State.afterMaxrun_fault (s : State) (vs : List Block) : (s.afterMaxrun vs).fault =
    s.fault := by
  simp only [State.afterMaxrun, State.finishTest_fault, State.setRunCounters_fault]
@[simp] theorem State.afterMaxrun_finfo (s : State) (vs : List Block) : (s.afterMaxrun vs).finfo =
    s.finfo := by
  simp only [State.afterMaxrun, State.finishTest_finfo, State.setRunCounters_finfo]
@[simp] theorem State.afterMaxrun_done (s : State) (vs : List Block) : (s.afterMaxrun vs).done =
    s.done ||| TestUnit.mask .maxrun := by
  simp only [State.afterMaxrun, State.finishTest_done, State.setRunCounters_done]
@[simp] theorem State.afterMaxrun_verdict (s : State) (vs : List Block) : (s.afterMaxrun vs).verdict =
    if maxrunPass (scanRuns (sequenceOf vs)).maxlen then s.verdict ||| TestUnit.mask .maxrun else s.verdict &&& ~~~(TestUnit.mask .maxrun) := by
  simp only [State.afterMaxrun, State.finishTest_verdict, State.setRunCounters_verdict]
@[simp] theorem State.afterMaxrun_ones (s : State) (vs : List Block) : (s.afterMaxrun vs).ones =
    s.ones := by
  simp only [State.afterMaxrun, State.finishTest_ones, State.setRunCounters_ones]
@[simp] theorem State.afterMaxrun_run1 (s : State) (vs : List Block) : (s.afterMaxrun vs).run1 =
    BitVec.ofNat 15 (scanRuns (sequenceOf vs)).run1 := by
  simp only [State.afterMaxrun, State.finishTest_run1, State.setRunCounters_run1]
@[simp] theorem State.afterMaxrun_run0 (s : State) (vs : List Block) : (s.afterMaxrun vs).run0 =
    BitVec.ofNat 15 (scanRuns (sequenceOf vs)).run0 := by
  simp only [State.afterMaxrun, State.finishTest_run0, State.setRunCounters_run0]
@[simp] theorem State.afterMaxrun_maxlen (s : State) (vs : List Block) : (s.afterMaxrun vs).maxlen =
    BitVec.ofNat 15 (scanRuns (sequenceOf vs)).maxlen := by
  simp only [State.afterMaxrun, State.finishTest_maxlen, State.setRunCounters_maxlen]
@[simp] theorem State.afterMaxrun_nib (s : State) (vs : List Block) : (s.afterMaxrun vs).nib = s.nib := by
  simp only [State.afterMaxrun, State.finishTest_nib, State.setRunCounters_nib]
@[simp] theorem State.afterMaxrun_hist (s : State) (vs : List Block) : (s.afterMaxrun vs).hist =
    s.hist := by
  simp only [State.afterMaxrun, State.finishTest_hist, State.setRunCounters_hist]
@[simp] theorem State.afterMaxrun_sumsq (s : State) (vs : List Block) : (s.afterMaxrun vs).sumsq =
    s.sumsq := by
  simp only [State.afterMaxrun, State.finishTest_sumsq, State.setRunCounters_sumsq]
@[simp] theorem State.afterMaxrun_xi3n (s : State) (vs : List Block) : (s.afterMaxrun vs).xi3n =
    s.xi3n := by
  simp only [State.afterMaxrun, State.finishTest_xi3n, State.setRunCounters_xi3n]
@[simp] theorem State.afterMaxrun_cur (s : State) (vs : List Block) : (s.afterMaxrun vs).cur = s.cur := by
  simp only [State.afterMaxrun, State.finishTest_cur, State.setRunCounters_cur]
@[simp] theorem State.afterMaxrun_cnt (s : State) (vs : List Block) : (s.afterMaxrun vs).cnt = s.cnt := by
  simp only [State.afterMaxrun, State.finishTest_cnt, State.setRunCounters_cnt]
@[simp] theorem State.afterMaxrun_rsp (s : State) (vs : List Block) : (s.afterMaxrun vs).rsp =
    some ⟨.ok, flagWord (maxrunPass (scanRuns (sequenceOf vs)).maxlen)⟩ := by
  simp only [State.afterMaxrun, State.finishTest_rsp]
@[simp] theorem State.afterMaxrun_port (s : State) (vs : List Block) : (s.afterMaxrun vs).port =
    s.port := by
  simp only [State.afterMaxrun, State.finishTest_port, State.setRunCounters_port]

/-! ### POKER -/

@[simp] theorem State.afterPoker_seed (s : State) (vs : List Block) : (s.afterPoker vs).seed =
    s.seed := by
  simp only [State.afterPoker, State.finishTest_seed, State.setPoker_seed]
@[simp] theorem State.afterPoker_blk (s : State) (vs : List Block) : (s.afterPoker vs).blk = s.blk := by
  simp only [State.afterPoker, State.finishTest_blk, State.setPoker_blk]
@[simp] theorem State.afterPoker_mem (s : State) (vs : List Block) : (s.afterPoker vs).mem = s.mem := by
  simp only [State.afterPoker, State.finishTest_mem, State.setPoker_mem]
@[simp] theorem State.afterPoker_valid (s : State) (vs : List Block) : (s.afterPoker vs).valid =
    s.valid := by
  simp only [State.afterPoker, State.finishTest_valid, State.setPoker_valid]
@[simp] theorem State.afterPoker_fault (s : State) (vs : List Block) : (s.afterPoker vs).fault =
    s.fault := by
  simp only [State.afterPoker, State.finishTest_fault, State.setPoker_fault]
@[simp] theorem State.afterPoker_finfo (s : State) (vs : List Block) : (s.afterPoker vs).finfo =
    s.finfo := by
  simp only [State.afterPoker, State.finishTest_finfo, State.setPoker_finfo]
@[simp] theorem State.afterPoker_done (s : State) (vs : List Block) : (s.afterPoker vs).done =
    s.done ||| TestUnit.mask .poker := by
  simp only [State.afterPoker, State.finishTest_done, State.setPoker_done]
@[simp] theorem State.afterPoker_verdict (s : State) (vs : List Block) : (s.afterPoker vs).verdict =
    if pokerPass 5000 (xi3Numerator 5000 (sumSquares (pokerHist (sequenceOf vs)))) then s.verdict ||| TestUnit.mask .poker else s.verdict &&& ~~~(TestUnit.mask .poker) := by
  simp only [State.afterPoker, State.finishTest_verdict, State.setPoker_verdict]
@[simp] theorem State.afterPoker_ones (s : State) (vs : List Block) : (s.afterPoker vs).ones =
    s.ones := by
  simp only [State.afterPoker, State.finishTest_ones, State.setPoker_ones]
@[simp] theorem State.afterPoker_run1 (s : State) (vs : List Block) : (s.afterPoker vs).run1 =
    s.run1 := by
  simp only [State.afterPoker, State.finishTest_run1, State.setPoker_run1]
@[simp] theorem State.afterPoker_run0 (s : State) (vs : List Block) : (s.afterPoker vs).run0 =
    s.run0 := by
  simp only [State.afterPoker, State.finishTest_run0, State.setPoker_run0]
@[simp] theorem State.afterPoker_maxlen (s : State) (vs : List Block) : (s.afterPoker vs).maxlen =
    s.maxlen := by
  simp only [State.afterPoker, State.finishTest_maxlen, State.setPoker_maxlen]
@[simp] theorem State.afterPoker_nib (s : State) (vs : List Block) : (s.afterPoker vs).nib = 0#4 := by
  simp only [State.afterPoker, State.finishTest_nib, State.setPoker_nib]
@[simp] theorem State.afterPoker_hist (s : State) (vs : List Block) : (s.afterPoker vs).hist =
    (pokerHist (sequenceOf vs)).map (BitVec.ofNat 13) := by
  simp only [State.afterPoker, State.finishTest_hist, State.setPoker_hist]
@[simp] theorem State.afterPoker_sumsq (s : State) (vs : List Block) : (s.afterPoker vs).sumsq =
    BitVec.ofNat 25 (sumSquares (pokerHist (sequenceOf vs))) := by
  simp only [State.afterPoker, State.finishTest_sumsq, State.setPoker_sumsq]
@[simp] theorem State.afterPoker_xi3n (s : State) (vs : List Block) : (s.afterPoker vs).xi3n =
    BitVec.ofNat 29 (xi3Numerator 5000 (sumSquares (pokerHist (sequenceOf vs)))) := by
  simp only [State.afterPoker, State.finishTest_xi3n, State.setPoker_xi3n]
@[simp] theorem State.afterPoker_cur (s : State) (vs : List Block) : (s.afterPoker vs).cur = s.cur := by
  simp only [State.afterPoker, State.finishTest_cur, State.setPoker_cur]
@[simp] theorem State.afterPoker_cnt (s : State) (vs : List Block) : (s.afterPoker vs).cnt = s.cnt := by
  simp only [State.afterPoker, State.finishTest_cnt, State.setPoker_cnt]
@[simp] theorem State.afterPoker_rsp (s : State) (vs : List Block) : (s.afterPoker vs).rsp =
    some ⟨.ok, flagWord (pokerPass 5000 (xi3Numerator 5000 (sumSquares (pokerHist (sequenceOf vs)))))⟩ := by
  simp only [State.afterPoker, State.finishTest_rsp]
@[simp] theorem State.afterPoker_port (s : State) (vs : List Block) : (s.afterPoker vs).port =
    s.port := by
  simp only [State.afterPoker, State.finishTest_port, State.setPoker_port]

/-! ### RUNS -/

@[simp] theorem State.afterRuns_seed (s : State) (vs : List Block) : (s.afterRuns vs).seed = s.seed := by
  simp only [State.afterRuns, State.finishTest_seed, State.setOneRunCounters_seed]
@[simp] theorem State.afterRuns_blk (s : State) (vs : List Block) : (s.afterRuns vs).blk = s.blk := by
  simp only [State.afterRuns, State.finishTest_blk, State.setOneRunCounters_blk]
@[simp] theorem State.afterRuns_mem (s : State) (vs : List Block) : (s.afterRuns vs).mem = s.mem := by
  simp only [State.afterRuns, State.finishTest_mem, State.setOneRunCounters_mem]
@[simp] theorem State.afterRuns_valid (s : State) (vs : List Block) : (s.afterRuns vs).valid =
    s.valid := by
  simp only [State.afterRuns, State.finishTest_valid, State.setOneRunCounters_valid]
@[simp] theorem State.afterRuns_fault (s : State) (vs : List Block) : (s.afterRuns vs).fault =
    s.fault := by
  simp only [State.afterRuns, State.finishTest_fault, State.setOneRunCounters_fault]
@[simp] theorem State.afterRuns_finfo (s : State) (vs : List Block) : (s.afterRuns vs).finfo =
    s.finfo := by
  simp only [State.afterRuns, State.finishTest_finfo, State.setOneRunCounters_finfo]
@[simp] theorem State.afterRuns_done (s : State) (vs : List Block) : (s.afterRuns vs).done =
    s.done ||| TestUnit.mask .runs := by
  simp only [State.afterRuns, State.finishTest_done, State.setOneRunCounters_done]
@[simp] theorem State.afterRuns_verdict (s : State) (vs : List Block) : (s.afterRuns vs).verdict =
    if runsPass (scanOneRuns (sequenceOf vs)).cnt then s.verdict ||| TestUnit.mask .runs else s.verdict &&& ~~~(TestUnit.mask .runs) := by
  simp only [State.afterRuns, State.finishTest_verdict, State.setOneRunCounters_verdict]
@[simp] theorem State.afterRuns_ones (s : State) (vs : List Block) : (s.afterRuns vs).ones = s.ones := by
  simp only [State.afterRuns, State.finishTest_ones, State.setOneRunCounters_ones]
@[simp] theorem State.afterRuns_run1 (s : State) (vs : List Block) : (s.afterRuns vs).run1 = s.run1 := by
  simp only [State.afterRuns, State.finishTest_run1, State.setOneRunCounters_run1]
@[simp] theorem State.afterRuns_run0 (s : State) (vs : List Block) : (s.afterRuns vs).run0 = s.run0 := by
  simp only [State.afterRuns, State.finishTest_run0, State.setOneRunCounters_run0]
@[simp] theorem State.afterRuns_maxlen (s : State) (vs : List Block) : (s.afterRuns vs).maxlen =
    s.maxlen := by
  simp only [State.afterRuns, State.finishTest_maxlen, State.setOneRunCounters_maxlen]
@[simp] theorem State.afterRuns_nib (s : State) (vs : List Block) : (s.afterRuns vs).nib = s.nib := by
  simp only [State.afterRuns, State.finishTest_nib, State.setOneRunCounters_nib]
@[simp] theorem State.afterRuns_hist (s : State) (vs : List Block) : (s.afterRuns vs).hist = s.hist := by
  simp only [State.afterRuns, State.finishTest_hist, State.setOneRunCounters_hist]
@[simp] theorem State.afterRuns_sumsq (s : State) (vs : List Block) : (s.afterRuns vs).sumsq =
    s.sumsq := by
  simp only [State.afterRuns, State.finishTest_sumsq, State.setOneRunCounters_sumsq]
@[simp] theorem State.afterRuns_xi3n (s : State) (vs : List Block) : (s.afterRuns vs).xi3n = s.xi3n := by
  simp only [State.afterRuns, State.finishTest_xi3n, State.setOneRunCounters_xi3n]
@[simp] theorem State.afterRuns_cur (s : State) (vs : List Block) : (s.afterRuns vs).cur =
    BitVec.ofNat 15 (scanOneRuns (sequenceOf vs)).cur := by
  simp only [State.afterRuns, State.finishTest_cur, State.setOneRunCounters_cur]
@[simp] theorem State.afterRuns_cnt (s : State) (vs : List Block) : (s.afterRuns vs).cnt =
    (scanOneRuns (sequenceOf vs)).cnt.map (BitVec.ofNat 14) := by
  simp only [State.afterRuns, State.finishTest_cnt, State.setOneRunCounters_cnt]
@[simp] theorem State.afterRuns_rsp (s : State) (vs : List Block) : (s.afterRuns vs).rsp =
    some ⟨.ok, flagWord (runsPass (scanOneRuns (sequenceOf vs)).cnt)⟩ := by
  simp only [State.afterRuns, State.finishTest_rsp]
@[simp] theorem State.afterRuns_port (s : State) (vs : List Block) : (s.afterRuns vs).port = s.port := by
  simp only [State.afterRuns, State.finishTest_port, State.setOneRunCounters_port]

/-! ### Every test -/

theorem State.afterTest_seed (s : State) (u : TestUnit) (vs : List Block) :
    (s.afterTest u vs).seed = s.seed := by
  cases u
  · exact State.afterMono_seed s vs
  · exact State.afterMaxrun_seed s vs
  · exact State.afterPoker_seed s vs
  · exact State.afterRuns_seed s vs

theorem State.afterTest_blk (s : State) (u : TestUnit) (vs : List Block) :
    (s.afterTest u vs).blk = s.blk := by
  cases u
  · exact State.afterMono_blk s vs
  · exact State.afterMaxrun_blk s vs
  · exact State.afterPoker_blk s vs
  · exact State.afterRuns_blk s vs

theorem State.afterTest_mem (s : State) (u : TestUnit) (vs : List Block) :
    (s.afterTest u vs).mem = s.mem := by
  cases u
  · exact State.afterMono_mem s vs
  · exact State.afterMaxrun_mem s vs
  · exact State.afterPoker_mem s vs
  · exact State.afterRuns_mem s vs

theorem State.afterTest_valid (s : State) (u : TestUnit) (vs : List Block) :
    (s.afterTest u vs).valid = s.valid := by
  cases u
  · exact State.afterMono_valid s vs
  · exact State.afterMaxrun_valid s vs
  · exact State.afterPoker_valid s vs
  · exact State.afterRuns_valid s vs

theorem State.afterTest_fault (s : State) (u : TestUnit) (vs : List Block) :
    (s.afterTest u vs).fault = s.fault := by
  cases u
  · exact State.afterMono_fault s vs
  · exact State.afterMaxrun_fault s vs
  · exact State.afterPoker_fault s vs
  · exact State.afterRuns_fault s vs

theorem State.afterTest_finfo (s : State) (u : TestUnit) (vs : List Block) :
    (s.afterTest u vs).finfo = s.finfo := by
  cases u
  · exact State.afterMono_finfo s vs
  · exact State.afterMaxrun_finfo s vs
  · exact State.afterPoker_finfo s vs
  · exact State.afterRuns_finfo s vs

theorem State.afterTest_done (s : State) (u : TestUnit) (vs : List Block) :
    (s.afterTest u vs).done = s.done ||| u.mask := by
  cases u
  · exact State.afterMono_done s vs
  · exact State.afterMaxrun_done s vs
  · exact State.afterPoker_done s vs
  · exact State.afterRuns_done s vs

theorem State.afterTest_verdict (s : State) (u : TestUnit) (vs : List Block) :
    (s.afterTest u vs).verdict = if u.pass vs then s.verdict ||| u.mask else s.verdict &&& ~~~u.mask := by
  cases u
  · exact State.afterMono_verdict s vs
  · exact State.afterMaxrun_verdict s vs
  · exact State.afterPoker_verdict s vs
  · exact State.afterRuns_verdict s vs

theorem State.afterTest_rsp (s : State) (u : TestUnit) (vs : List Block) :
    (s.afterTest u vs).rsp = some ⟨.ok, flagWord (u.pass vs)⟩ := by
  cases u
  · exact State.afterMono_rsp s vs
  · exact State.afterMaxrun_rsp s vs
  · exact State.afterPoker_rsp s vs
  · exact State.afterRuns_rsp s vs

theorem State.afterTest_port (s : State) (u : TestUnit) (vs : List Block) :
    (s.afterTest u vs).port = s.port := by
  cases u
  · exact State.afterMono_port s vs
  · exact State.afterMaxrun_port s vs
  · exact State.afterPoker_port s vs
  · exact State.afterRuns_port s vs

/-- Two states with equal fields are equal. -/
theorem State.ext_fields {s t : State} (h1 : s.seed = t.seed) (h2 : s.blk = t.blk) (h3 : s.mem = t.mem)
    (h4 : s.valid = t.valid) (h5 : s.fault = t.fault) (h6 : s.finfo = t.finfo) (h7 : s.done = t.done)
    (h8 : s.verdict = t.verdict) (h9 : s.ones = t.ones) (h10 : s.run1 = t.run1) (h11 : s.run0 = t.run0)
    (h12 : s.maxlen = t.maxlen) (h13 : s.nib = t.nib) (h14 : s.hist = t.hist) (h15 : s.sumsq = t.sumsq)
    (h16 : s.xi3n = t.xi3n) (h17 : s.cur = t.cur) (h18 : s.cnt = t.cnt) (h19 : s.rsp = t.rsp)
    (h20 : s.port = t.port) : s = t := by
  cases s
  cases t
  simp only at *
  subst h1 h2 h3 h4 h5 h6 h7 h8 h9 h10 h11 h12 h13 h14 h15 h16 h17 h18 h19 h20
  rfl

end Sys2Proof.Machine
end

