-- ==== Sys2Proof/Laws/Ops.lean ====
section
/-! SUPPORT. What each shared operation and each command can do, said once: the value under its conditions, and the
inversion (if it answers a next state, then one of these). Later proofs cite these and do not unfold the operations. -/

namespace Sys2Proof.Machine

/-! ### The shared checks -/

theorem State.isHalted_eq_false {s : State} : s.isHalted = false ↔ s.fault = 0#4 := by
  simp [State.isHalted]

theorem State.isHalted_eq_true {s : State} : s.isHalted = true ↔ s.fault ≠ 0#4 := by
  simp [State.isHalted]

theorem unlessHalted_of_good {s : State} (body : State → Result) (h : s.fault = 0#4) :
    unlessHalted s body = body s := by
  simp [unlessHalted, State.isHalted_eq_false.mpr h]

theorem unlessHalted_of_halted {s : State} (body : State → Result) (h : s.fault ≠ 0#4) :
    unlessHalted s body = .next s.refuseHalted := by
  simp [unlessHalted, State.isHalted_eq_true.mpr h]

theorem unlessHalted_next {s t : State} {body : State → Result} (h : unlessHalted s body = .next t) :
    (s.fault ≠ 0#4 ∧ t = s.refuseHalted) ∨ (s.fault = 0#4 ∧ body s = .next t) := by
  by_cases hf : s.fault = 0#4
  · exact .inr ⟨hf, by rwa [unlessHalted_of_good body hf] at h⟩
  · rw [unlessHalted_of_halted body hf] at h
    cases h
    exact .inl ⟨hf, rfl⟩

theorem checkReady_of_halted {s : State} (cmd : Word) (body : State → Result) (h : s.fault ≠ 0#4) :
    checkReady s cmd body = .next s.refuseHalted := unlessHalted_of_halted _ h

theorem checkReady_of_invalid {s : State} (cmd : Word) (body : State → Result) (h : s.fault = 0#4)
    (hv : s.valid = false) : checkReady s cmd body = .next (s.raiseFault .notGenerated cmd) := by
  simp [checkReady, unlessHalted_of_good _ h, hv]

theorem checkReady_of_valid {s : State} (cmd : Word) (body : State → Result) (h : s.fault = 0#4)
    (hv : s.valid = true) : checkReady s cmd body = body s := by
  simp [checkReady, unlessHalted_of_good _ h, hv]

theorem checkReady_next {s t : State} {cmd : Word} {body : State → Result} (h : checkReady s cmd body = .next t) :
    (s.fault ≠ 0#4 ∧ t = s.refuseHalted) ∨
    (s.fault = 0#4 ∧ s.valid = false ∧ t = s.raiseFault .notGenerated cmd) ∨
    (s.fault = 0#4 ∧ s.valid = true ∧ body s = .next t) := by
  rcases unlessHalted_next h with h | ⟨hf, h⟩
  · exact .inl h
  · cases hv : s.valid
    · simp only [hv, Bool.false_eq_true, if_false, Host.Outcome.next.injEq] at h
      exact .inr (.inl ⟨hf, rfl, h.symm⟩)
    · simp only [hv, if_true] at h
      exact .inr (.inr ⟨hf, rfl, h⟩)

theorem checkIndex_of_lt {s : State} {index size : Nat} (body : State → Result) (h : index < size) :
    checkIndex s index size body = body s := by
  simp [checkIndex, Nat.not_le.mpr h]

theorem checkIndex_of_ge {s : State} {index size : Nat} (body : State → Result) (h : size ≤ index) :
    checkIndex s index size body = .next (s.raiseFault .indexOutOfBounds (BitVec.ofNat 32 index)) := by
  simp [checkIndex, h]

theorem checkIndex_next {s t : State} {index size : Nat} {body : State → Result}
    (h : checkIndex s index size body = .next t) :
    (size ≤ index ∧ t = s.raiseFault .indexOutOfBounds (BitVec.ofNat 32 index)) ∨ (index < size ∧ body s = .next t) := by
  by_cases hi : size ≤ index
  · rw [checkIndex_of_ge body hi] at h
    cases h
    exact .inl ⟨hi, rfl⟩
  · exact .inr ⟨by omega, by rwa [checkIndex_of_lt body (by omega)] at h⟩

/-- 20000 is a multiple of 4, so POKER's check never fires (44_poker.md R121). -/
theorem checkDivisible_bitCount (s : State) (body : State → Result) :
    checkDivisible s Config.bitCount body = body s := rfl

theorem withBlock_of_some {s : State} {j : Nat} {v : Block} (body : Block → State) (h : s.mem.readBlock j = some v) :
    withBlock s j body = .next (body v) := by
  simp [withBlock, h]

theorem withBlock_of_none {s : State} {j : Nat} (body : Block → State) (h : s.mem.readBlock j = none) :
    withBlock s j body = .fault .unwrittenBlock := by
  simp [withBlock, h]

theorem withBlock_next {s t : State} {j : Nat} {body : Block → State} (h : withBlock s j body = .next t) :
    ∃ v, s.mem.readBlock j = some v ∧ t = body v := by
  cases hv : s.mem.readBlock j with
  | none => rw [withBlock_of_none body hv] at h; cases h
  | some v =>
    rw [withBlock_of_some body hv] at h
    cases h
    exact ⟨v, rfl, rfl⟩

theorem withBlocks_of_some {s : State} {vs : List Block} (body : List Block → State)
    (h : s.mem.readBlocks 0 625 = some vs) : withBlocks s body = .next (body vs) := by
  simp [withBlocks, h]

theorem withBlocks_of_none {s : State} (body : List Block → State) (h : s.mem.readBlocks 0 625 = none) :
    withBlocks s body = .fault .unwrittenBlock := by
  simp [withBlocks, h]

theorem withBlocks_next {s t : State} {body : List Block → State} (h : withBlocks s body = .next t) :
    ∃ vs, s.mem.readBlocks 0 625 = some vs ∧ t = body vs := by
  cases hv : s.mem.readBlocks 0 625 with
  | none => rw [withBlocks_of_none body hv] at h; cases h
  | some vs =>
    rw [withBlocks_of_some body hv] at h
    cases h
    exact ⟨vs, rfl, rfl⟩

/-! ### The commands -/

theorem exec_gen (s : State) : exec .gen s = unlessHalted s fun s => .next s.afterGen := by
  unfold State.afterGen
  rfl

theorem exec_mono (s : State) :
    exec .mono s = checkReady s (encode .mono) fun s => withBlocks s s.afterMono := by
  unfold State.afterMono
  rfl

theorem exec_maxrun (s : State) :
    exec .maxrun s = checkReady s (encode .maxrun) fun s => withBlocks s s.afterMaxrun := by
  unfold State.afterMaxrun
  rfl

theorem exec_poker (s : State) :
    exec .poker s = checkReady s (encode .poker) fun s => withBlocks s s.afterPoker := by
  unfold State.afterPoker
  rfl

theorem exec_runs (s : State) :
    exec .runs s = checkReady s (encode .runs) fun s => withBlocks s s.afterRuns := by
  unfold State.afterRuns
  rfl

/-- Every test: the checks, then its unit's effect on the blocks. -/
theorem exec_test {i : Instr} {u : TestUnit} (hi : IsTest i u) (s : State) :
    exec i s = checkReady s (encode i) fun s => withBlocks s fun vs => s.afterTest u vs := by
  cases hi
  · exact exec_mono s
  · exact exec_maxrun s
  · exact exec_poker s
  · exact exec_runs s

theorem exec_getbit (idx : Nat) (s : State) :
    exec (.getbit idx) s = checkReady s (encode (.getbit idx)) fun s => checkIndex s idx 20000 fun s =>
      withBlock s (idx / 32) fun v => s.respond .ok (flagWord (bitOf v (idx % 32))) := rfl

theorem exec_rdblk (j : Nat) (s : State) :
    exec (.rdblk j) s = checkReady s (encode (.rdblk j)) fun s => checkIndex s j 625 fun s =>
      withBlock s j fun v => s.respond .ok v := rfl

theorem exec_gen_of_good {s : State} (h : s.fault = 0#4) : exec .gen s = .next s.afterGen := by
  rw [exec_gen, unlessHalted_of_good _ h]

theorem exec_gen_next {s t : State} (h : exec .gen s = .next t) :
    (s.fault ≠ 0#4 ∧ t = s.refuseHalted) ∨ (s.fault = 0#4 ∧ t = s.afterGen) := by
  rw [exec_gen] at h
  rcases unlessHalted_next h with h | ⟨hf, h⟩
  · exact .inl h
  · exact .inr ⟨hf, (Host.Outcome.next.inj h).symm⟩

/-- A test on a constructed block. -/
theorem exec_test_of_blocks {i : Instr} {u : TestUnit} {s : State} {vs : List Block} (hi : IsTest i u)
    (hf : s.fault = 0#4) (hv : s.valid = true) (hb : s.mem.readBlocks 0 625 = some vs) :
    exec i s = .next (s.afterTest u vs) := by
  rw [exec_test hi, checkReady_of_valid _ _ hf hv, withBlocks_of_some _ hb]

/-- What a test can do. -/
theorem exec_test_next {i : Instr} {u : TestUnit} {s t : State} (hi : IsTest i u) (h : exec i s = .next t) :
    (s.fault ≠ 0#4 ∧ t = s.refuseHalted) ∨
    (s.fault = 0#4 ∧ s.valid = false ∧ t = s.raiseFault .notGenerated (encode i)) ∨
    (s.fault = 0#4 ∧ s.valid = true ∧ ∃ vs, s.mem.readBlocks 0 625 = some vs ∧ t = s.afterTest u vs) := by
  rw [exec_test hi] at h
  rcases checkReady_next h with h | h | ⟨hf, hv, h⟩
  · exact .inl h
  · exact .inr (.inl h)
  · exact .inr (.inr ⟨hf, hv, withBlocks_next h⟩)

theorem exec_getbit_next {idx : Nat} {s t : State} (h : exec (.getbit idx) s = .next t) :
    (s.fault ≠ 0#4 ∧ t = s.refuseHalted) ∨
    (s.fault = 0#4 ∧ s.valid = false ∧ t = s.raiseFault .notGenerated (encode (.getbit idx))) ∨
    (s.fault = 0#4 ∧ s.valid = true ∧ 20000 ≤ idx ∧ t = s.raiseFault .indexOutOfBounds (BitVec.ofNat 32 idx)) ∨
    (s.fault = 0#4 ∧ s.valid = true ∧ idx < 20000 ∧ ∃ v, s.mem.readBlock (idx / 32) = some v ∧
      t = s.respond .ok (flagWord (bitOf v (idx % 32)))) := by
  rw [exec_getbit] at h
  rcases checkReady_next h with h | h | ⟨hf, hv, h⟩
  · exact .inl h
  · exact .inr (.inl h)
  · rcases checkIndex_next h with ⟨hi, h⟩ | ⟨hi, h⟩
    · exact .inr (.inr (.inl ⟨hf, hv, hi, h⟩))
    · exact .inr (.inr (.inr ⟨hf, hv, hi, withBlock_next h⟩))

theorem exec_rdblk_next {j : Nat} {s t : State} (h : exec (.rdblk j) s = .next t) :
    (s.fault ≠ 0#4 ∧ t = s.refuseHalted) ∨
    (s.fault = 0#4 ∧ s.valid = false ∧ t = s.raiseFault .notGenerated (encode (.rdblk j))) ∨
    (s.fault = 0#4 ∧ s.valid = true ∧ 625 ≤ j ∧ t = s.raiseFault .indexOutOfBounds (BitVec.ofNat 32 j)) ∨
    (s.fault = 0#4 ∧ s.valid = true ∧ j < 625 ∧ ∃ v, s.mem.readBlock j = some v ∧ t = s.respond .ok v) := by
  rw [exec_rdblk] at h
  rcases checkReady_next h with h | h | ⟨hf, hv, h⟩
  · exact .inl h
  · exact .inr (.inl h)
  · rcases checkIndex_next h with ⟨hi, h⟩ | ⟨hi, h⟩
    · exact .inr (.inr (.inl ⟨hf, hv, hi, h⟩))
    · exact .inr (.inr (.inr ⟨hf, hv, hi, withBlock_next h⟩))

theorem exec_rdreg_of_mapped {r : Nat} {reg : Reg} (s : State) (h : regOf r = some reg) :
    exec (.rdreg r) s = .next (s.respond .ok (s.regValue reg)) := by
  simp [exec, execRdreg, h]

theorem exec_rdreg_of_unmapped {r : Nat} (s : State) (h : regOf r = none) :
    exec (.rdreg r) s = unlessHalted s fun s => .next (s.raiseFault .illegalCommand (encode (.rdreg r))) := by
  simp [exec, execRdreg, h]

theorem exec_rdreg_next {r : Nat} {s t : State} (h : exec (.rdreg r) s = .next t) :
    (∃ reg, regOf r = some reg ∧ t = s.respond .ok (s.regValue reg)) ∨
    (regOf r = none ∧ s.fault ≠ 0#4 ∧ t = s.refuseHalted) ∨
    (regOf r = none ∧ s.fault = 0#4 ∧ t = s.raiseFault .illegalCommand (encode (.rdreg r))) := by
  cases hr : regOf r with
  | some reg =>
    rw [exec_rdreg_of_mapped s hr] at h
    cases h
    exact .inl ⟨reg, rfl, rfl⟩
  | none =>
    rw [exec_rdreg_of_unmapped s hr] at h
    rcases unlessHalted_next h with h | ⟨hf, h⟩
    · exact .inr (.inl ⟨rfl, h⟩)
    · cases h
      exact .inr (.inr ⟨rfl, hf, rfl⟩)

theorem illegalWord_next {w : Word} {s t : State} (h : illegalWord w s = .next t) :
    (s.fault ≠ 0#4 ∧ t = s.refuseHalted) ∨ (s.fault = 0#4 ∧ t = s.raiseFault .illegalCommand w) := by
  rcases unlessHalted_next h with h | ⟨hf, h⟩
  · exact .inl h
  · cases h
    exact .inr ⟨hf, rfl⟩

/-- A ready state reads all its blocks. -/
theorem State.ready.blocks {s : State} (h : s.ready) : ∃ vs, s.mem.readBlocks 0 625 = some vs := by
  apply Option.isSome_iff_exists.mp
  apply Memory.readBlocks_isSome
  intro k hk
  simpa using h.2.2 k hk

end Sys2Proof.Machine
end

