-- ==== Sys2Proof/Laws/Generator.lean ====
section
/-! SUPPORT. What one recurrence step, one block and a stretch of blocks of GEN do, against the closed form of
40_generator.md R85. -/

namespace Sys2Proof.Machine

theorem lcgState_lt (t : Nat) : lcgState t < 4294967296 := by
  cases t with
  | zero => simp [lcgState]
  | succ t => simp only [lcgState]; exact Nat.mod_lt _ (by norm_num)

theorem lcgByte_lt (t : Nat) : lcgByte t < 256 := Nat.mod_lt _ (by norm_num)

/-- The 64-bit update of a state below 2^32 is the update of the closed form (40_generator.md R81, R84). -/
theorem nextSeed_toNat_of_lcgState {seed : BitVec 64} {t : Nat} (h : seed.toNat = lcgState t) :
    (nextSeed seed).toNat = lcgState (t + 1) := by
  have hlt := lcgState_lt t
  simp only [nextSeed, Config.lcgA, Config.lcgC, Config.lcgM, BitVec.toNat_umod, BitVec.toNat_add, BitVec.toNat_mul,
    BitVec.toNat_ofNat, h, lcgState]
  rw [Nat.mod_eq_of_lt (show 4294967296 < 2 ^ 64 by norm_num), Nat.mod_eq_of_lt (show 134775813 < 2 ^ 64 by norm_num)]
  omega

/-- The emitted byte as a number: bits 23:16 (40_generator.md R82). -/
theorem emitByte_toNat (seed : BitVec 64) : (emitByte seed).toNat = seed.toNat / 65536 % 256 := by
  have h8 : ∀ b : Byte, ((b >>> 8) ^^^ (b &&& 0xFF#8)) = b := by decide
  simp only [emitByte, foldByte, tapByte, Config.foldShift, Config.foldMask, Config.tapShift, h8]
  simp [BitVec.toNat_setWidth, Nat.shiftRight_eq_div_pow]

theorem emitByte_toNat_of_lcgState {seed : BitVec 64} {t : Nat} (h : seed.toNat = lcgState t) :
    (emitByte seed).toNat = lcgByte t := by
  rw [emitByte_toNat, h, lcgByte]

theorem genByte_mem (g : GenUnit) : (genByte g).mem = g.mem := rfl

theorem genBytes_mem (n : Nat) (g : GenUnit) : (genBytes n g).mem = g.mem := by
  induction n generalizing g with
  | zero => rfl
  | succ n ih => rw [genBytes, ih, genByte_mem]

theorem genByte_seed {g : GenUnit} {t : Nat} (h : g.seed.toNat = lcgState t) :
    (genByte g).seed.toNat = lcgState (t + 1) := nextSeed_toNat_of_lcgState h

/-- A shift by a byte and an or, where nothing is lost (40_generator.md R80). -/
theorem shiftIn_toNat (blk : BitVec 32) (b : Byte) (h : blk.toNat < 2 ^ 24) :
    ((blk <<< 8) ||| b.setWidth 32).toNat = blk.toNat * 256 + b.toNat := by
  have hb := b.isLt
  have hd : (blk <<< 8) ||| b.setWidth 32 = (blk <<< 8) + b.setWidth 32 := by
    rw [BitVec.add_eq_or_of_and_eq_zero]
    ext i hi
    simp only [BitVec.getElem_and, BitVec.getElem_shiftLeft, BitVec.getElem_setWidth, BitVec.getElem_zero]
    by_cases hi8 : i < 8
    · simp [hi8]
    · simp [BitVec.getLsbD_of_ge b i (by omega)]
  rw [hd, BitVec.toNat_add, BitVec.toNat_shiftLeft, BitVec.toNat_setWidth, Nat.shiftLeft_eq]
  omega

theorem genByte_blk {g : GenUnit} {t : Nat} (h : g.seed.toNat = lcgState t) (hb : g.blk.toNat < 2 ^ 24) :
    (genByte g).blk.toNat = g.blk.toNat * 256 + lcgByte (t + 1) := by
  have := shiftIn_toNat g.blk (emitByte (nextSeed g.seed)) hb
  rw [emitByte_toNat_of_lcgState (nextSeed_toNat_of_lcgState h)] at this
  exact this

theorem refBlock_toNat (j : Nat) :
    (refBlock j).toNat = lcgByte (4 * j + 1) * 2 ^ 24 + lcgByte (4 * j + 2) * 2 ^ 16 + lcgByte (4 * j + 3) * 2 ^ 8 +
      lcgByte (4 * j + 4) := by
  have h1 := lcgByte_lt (4 * j + 1)
  have h2 := lcgByte_lt (4 * j + 2)
  have h3 := lcgByte_lt (4 * j + 3)
  have h4 := lcgByte_lt (4 * j + 4)
  rw [refBlock, BitVec.toNat_ofNat, Nat.mod_eq_of_lt (by omega)]

/-- Four bytes from a cleared accumulator make the block of the closed form. -/
theorem genBytes_four {g : GenUnit} {j : Nat} (h : g.seed.toNat = lcgState (4 * j)) (hb : g.blk = 0#32) :
    (genBytes 4 g).seed.toNat = lcgState (4 * (j + 1)) ∧ (genBytes 4 g).blk = refBlock j := by
  have b1 := lcgByte_lt (4 * j + 1)
  have b2 := lcgByte_lt (4 * j + 2)
  have b3 := lcgByte_lt (4 * j + 3)
  have s1 : (genByte g).seed.toNat = lcgState (4 * j + 1) := genByte_seed h
  have s2 : (genByte (genByte g)).seed.toNat = lcgState (4 * j + 2) := genByte_seed s1
  have s3 : (genByte (genByte (genByte g))).seed.toNat = lcgState (4 * j + 3) := genByte_seed s2
  have s4 : (genByte (genByte (genByte (genByte g)))).seed.toNat = lcgState (4 * j + 4) := genByte_seed s3
  have k0 : g.blk.toNat = 0 := by rw [hb]; rfl
  have k1 : (genByte g).blk.toNat = g.blk.toNat * 256 + lcgByte (4 * j + 1) := genByte_blk h (by omega)
  have k2 : (genByte (genByte g)).blk.toNat = (genByte g).blk.toNat * 256 + lcgByte (4 * j + 2) :=
    genByte_blk s1 (by omega)
  have k3 : (genByte (genByte (genByte g))).blk.toNat = (genByte (genByte g)).blk.toNat * 256 + lcgByte (4 * j + 3) :=
    genByte_blk s2 (by omega)
  have k4 : (genByte (genByte (genByte (genByte g)))).blk.toNat =
      (genByte (genByte (genByte g))).blk.toNat * 256 + lcgByte (4 * j + 4) := genByte_blk s3 (by omega)
  refine ⟨s4, BitVec.eq_of_toNat_eq ?_⟩
  rw [refBlock_toNat]
  change (genByte (genByte (genByte (genByte g)))).blk.toNat = _
  rw [k4, k3, k2, k1, k0]
  omega

/-- One block of GEN. -/
theorem genBlock_spec {g : GenUnit} {j : Nat} (h : g.seed.toNat = lcgState (4 * j)) :
    (genBlock j g).seed.toNat = lcgState (4 * (j + 1)) ∧ (genBlock j g).blk = refBlock j ∧
      (genBlock j g).mem = g.mem.writeBlock j (refBlock j) := by
  have hg : ({ g with blk := 0#32 } : GenUnit).seed.toNat = lcgState (4 * j) := h
  obtain ⟨hs, hb⟩ := genBytes_four hg rfl
  refine ⟨hs, hb, ?_⟩
  simp only [genBlock, Config.bytesPerBlock, hb, genBytes_mem]

theorem genBlocks_succ (n j : Nat) (g : GenUnit) : genBlocks (n + 1) j g = genBlocks n (j + 1) (genBlock j g) := rfl

/-- A stretch of blocks of GEN, the seed running on. -/
theorem genBlocks_spec {n j : Nat} {g : GenUnit} (h : g.seed.toNat = lcgState (4 * j)) :
    (genBlocks n j g).seed.toNat = lcgState (4 * (j + n)) ∧
    (0 < n → (genBlocks n j g).blk = refBlock (j + n - 1)) ∧
    (∀ k, j ≤ k → k < j + n → (genBlocks n j g).mem.readBlock k = some (refBlock k)) ∧
    (∀ a, a < 4 * j ∨ 4 * (j + n) ≤ a → (genBlocks n j g).mem.readByte a = g.mem.readByte a) := by
  induction n generalizing j g with
  | zero => exact ⟨h, by omega, by intro k h1 h2; omega, fun a _ => rfl⟩
  | succ n ih =>
    obtain ⟨hs, hb, hm⟩ := genBlock_spec h
    obtain ⟨i1, i2, i3, i4⟩ := ih hs
    rw [genBlocks_succ]
    refine ⟨by rw [i1]; congr 1; omega, ?_, ?_, ?_⟩
    · intro _
      by_cases hn : 0 < n
      · rw [i2 hn]; congr 1; omega
      · obtain rfl : n = 0 := by omega
        exact hb
    · intro k h1 h2
      by_cases hk : k = j
      · subst hk
        rw [Memory.readBlock_congr (m' := (genBlock k g).mem), hm, Memory.readBlock_writeBlock_same]
        intro a ha ha'
        exact i4 a (by omega)
      · exact i3 k (by omega) (by omega)
    · intro a ha
      rw [i4 a (by omega), hm, Memory.readByte_writeBlock_other _ _ (by omega)]

/-- A stretch of blocks inside the memory keeps the canonical form. -/
theorem genBlocks_wf {n j : Nat} {g : GenUnit} (h : g.mem.wf = true) (hn : j + n ≤ 625) :
    (genBlocks n j g).mem.wf = true := by
  induction n generalizing j g with
  | zero => exact h
  | succ n ih =>
    rw [genBlocks_succ]
    apply ih
    · simp only [genBlock, genBytes_mem]
      exact Memory.wf_writeBlock _ h (by omega)
    · omega

/-- The whole construction (40_generator.md R80, R85). -/
theorem construct_spec (blk : BitVec 32) (m : Memory) :
    (construct blk m).seed.toNat = lcgState 2500 ∧ (construct blk m).blk = refBlock 624 ∧
    (∀ k, k < 625 → (construct blk m).mem.readBlock k = some (refBlock k)) ∧
    (∀ a, 2500 ≤ a → (construct blk m).mem.readByte a = m.readByte a) := by
  obtain ⟨h1, h2, h3, h4⟩ := genBlocks_spec (n := Config.nBlocks) (j := 0)
    (g := { seed := Config.seedInit, blk := blk, mem := m }) rfl
  unfold construct
  exact ⟨h1, h2 (by norm_num), fun k hk => h3 k (by omega) (by simpa using hk), fun a ha => h4 a (by simp; omega)⟩

theorem construct_wf (blk : BitVec 32) {m : Memory} (h : m.wf = true) : (construct blk m).mem.wf = true := by
  unfold construct
  exact genBlocks_wf h (by norm_num)

/-- `refBlocks` unfolded; the name is irreducible. -/
theorem refBlocks_eq_map : refBlocks = (List.range 625).map refBlock := by
  unfold refBlocks
  exact Eq.refl ((List.range 625).map refBlock)

theorem refBlocks_length : refBlocks.length = 625 := by
  rw [refBlocks_eq_map, List.length_map, List.length_range]

theorem refBlocks_getElem? {k : Nat} (h : k < 625) : refBlocks[k]? = some (refBlock k) := by
  rw [refBlocks_eq_map, List.getElem?_map, List.getElem?_range h, Option.map_some]

/-- A memory whose blocks are those of the generated sequence reads as `refBlocks`. -/
theorem Memory.readBlocks_of_refBlock {m : Memory} (h : ∀ j, j < 625 → m.readBlock j = some (refBlock j)) :
    m.readBlocks 0 625 = some refBlocks := by
  refine Memory.readBlocks_eq_some.mpr ⟨refBlocks_length, ?_⟩
  intro k hk
  rw [Nat.zero_add, h k hk, refBlocks_getElem? hk]

/-- After GEN the blocks read as the generated sequence. -/
theorem construct_readBlocks (blk : BitVec 32) (m : Memory) :
    (construct blk m).mem.readBlocks 0 625 = some refBlocks :=
  Memory.readBlocks_of_refBlock (construct_spec blk m).2.2.1

/-! ### The generated sequence as a computation -/

/-- One state of the recurrence from the one before (40_generator.md R85). -/
def lcgNext (x : Nat) : Nat := (134775813 * x + 1) % 4294967296

/-- The block of four states in a row. -/
def blockOfStates (a b c d : Nat) : Block :=
  BitVec.ofNat 32 (a / 65536 % 256 * 2 ^ 24 + b / 65536 % 256 * 2 ^ 16 + c / 65536 % 256 * 2 ^ 8 + d / 65536 % 256)

/-- `n` blocks from a state on, in one pass over the recurrence: the form of the generated sequence the kernel evaluates
(`decide +kernel`). -/
def lcgBlocks : Nat → Nat → List Block
  | 0, _ => []
  | n + 1, x =>
    blockOfStates (lcgNext x) (lcgNext (lcgNext x)) (lcgNext (lcgNext (lcgNext x)))
      (lcgNext (lcgNext (lcgNext (lcgNext x)))) :: lcgBlocks n (lcgNext (lcgNext (lcgNext (lcgNext x))))

theorem lcgBlocks_eq_map (n j : Nat) :
    lcgBlocks n (lcgState (4 * j)) = (List.range n).map fun k => refBlock (j + k) := by
  induction n generalizing j with
  | zero => rfl
  | succ n ih =>
    have e : lcgState (4 * (j + 1)) = lcgNext (lcgNext (lcgNext (lcgNext (lcgState (4 * j))))) := by
      rw [show 4 * (j + 1) = 4 * j + 1 + 1 + 1 + 1 by omega]
      simp only [lcgState, lcgNext]
    have h := ih (j + 1)
    rw [e] at h
    rw [List.range_succ_eq_map, List.map_cons, List.map_map]
    unfold lcgBlocks
    refine List.cons_eq_cons.mpr ⟨?_, ?_⟩
    · simp only [blockOfStates, refBlock, lcgByte, Nat.add_zero, lcgState, lcgNext]
    · refine h.trans (List.map_congr_left ?_)
      intro k _
      simp only [Function.comp]
      rw [show j + 1 + k = j + k.succ by omega]

/-- The generated sequence as that computation. -/
theorem refBlocks_eq_lcgBlocks : refBlocks = lcgBlocks 625 871246 := by
  have z : 871246 = lcgState (4 * 0) := by simp only [lcgState]
  have h : (List.range 625).map refBlock = (List.range 625).map fun k => refBlock (0 + k) := by
    simp only [Nat.zero_add]
  exact (refBlocks_eq_map.trans h).trans ((congrArg (lcgBlocks 625) z).trans (lcgBlocks_eq_map 625 0)).symm

end Sys2Proof.Machine
end

