-- ==== Sys2Proof/Laws/PerInstr.lean ====
section
/-! SUPPORT. A law per command: the two fields of its word (30_encoding.md R60) are its opcode in the map (R62) and its
operand, used as it stands (R63). One lemma per constructor, so that a proof over all commands splits into these. -/

namespace Sys2Proof.Laws.OpcodeField

open Sys2Proof

/-- `CMD = OP × 2^28 + ARG`. -/
theorem assemble_toNat (op : Opcode) {n : Nat} (h : n < 2 ^ 28) :
    (assemble op (BitVec.ofNat 28 n)).toNat = op.toNat * 2 ^ 28 + n := by
  simp only [assemble, BitVec.toNat_append, BitVec.toNat_ofNat]
  rw [Nat.mod_eq_of_lt h, Nat.shiftLeft_eq, Nat.mul_comm, ← Nat.two_pow_add_eq_or_of_lt h]

theorem opOf_toNat (w : Word) : (opOf w).toNat = w.toNat / 2 ^ 28 := by
  have := w.isLt
  simp only [opOf, BitVec.extractLsb'_toNat, Nat.shiftRight_eq_div_pow]
  omega

theorem argOf_toNat (w : Word) : (argOf w).toNat = w.toNat % 2 ^ 28 := by
  simp [argOf, BitVec.extractLsb'_toNat]

/-- The fields of an assembled word. -/
theorem fields_of_assemble (op : Opcode) {n : Nat} (h : n < 2 ^ 28) :
    opOf (assemble op (BitVec.ofNat 28 n)) = op ∧ (argOf (assemble op (BitVec.ofNat 28 n))).toNat = n := by
  constructor
  · apply BitVec.eq_of_toNat_eq
    rw [opOf_toNat, assemble_toNat op h]
    omega
  · rw [argOf_toNat, assemble_toNat op h]
    omega

/-- Where the command has an encoding, `OP` of its word is its opcode and `ARG` its operand. -/
def Statement (i : Instr) : Prop :=
  i.wellFormed = true → opOf (encode i) = opcodeOf i ∧ (argOf (encode i)).toNat = operandOf i

/-- The law wherever the operand fits the field. -/
theorem of_operand_lt {i : Instr} (h : i.wellFormed = true → operandOf i < 2 ^ 28) : Statement i :=
  fun hw => fields_of_assemble (opcodeOf i) (h hw)

theorem gen : Statement .gen := of_operand_lt fun _ => by simp [operandOf]

theorem mono : Statement .mono := of_operand_lt fun _ => by simp [operandOf]

theorem maxrun : Statement .maxrun := of_operand_lt fun _ => by simp [operandOf]

theorem poker : Statement .poker := of_operand_lt fun _ => by simp [operandOf]

theorem runs : Statement .runs := of_operand_lt fun _ => by simp [operandOf]

theorem getbit (idx : Nat) : Statement (.getbit idx) := of_operand_lt fun h => by
  simpa [Instr.wellFormed, argFits, operandOf] using h

theorem rdblk (j : Nat) : Statement (.rdblk j) := of_operand_lt fun h => by
  simpa [Instr.wellFormed, argFits, operandOf] using h

theorem rdreg (r : Nat) : Statement (.rdreg r) := of_operand_lt fun h => by
  simpa [Instr.wellFormed, argFits, operandOf] using h

end Sys2Proof.Laws.OpcodeField
end

