-- ==== Sys2Proof/Laws/Scans.lean ====
section
/-! SUPPORT. What the scans of the four test units compute, on a sequence given as a function of the index: the count of
1s, the trailing runs, the longest run, the poker histogram and the buckets of terminated runs. Each scan goes over
`prefixOf bit n`, so each law is one induction on `n`. -/

namespace Sys2Proof.Machine

@[simp] theorem prefixOf_zero (bit : Nat → Bool) : prefixOf bit 0 = [] := rfl

theorem prefixOf_succ (bit : Nat → Bool) (n : Nat) : prefixOf bit (n + 1) = prefixOf bit n ++ [bit n] := by
  simp [prefixOf, List.range_succ]

/-- The sequence of the blocks of a state is the first 20000 of its bit reads (20_memory.md R41, R42). -/
theorem sequenceOf_eq_prefixOf {s : State} {vs : List Block} (h : s.mem.readBlocks 0 625 = some vs) :
    sequenceOf vs = prefixOf s.bitRead 20000 := by
  obtain ⟨hl, hk⟩ := Memory.readBlocks_eq_some.mp h
  apply List.ext_getElem?
  intro i
  rw [sequenceOf_getElem?]
  by_cases hi : i < 20000
  · have hj : i / 32 < vs.length := by omega
    have hb := hk (i / 32) (by omega)
    rw [Nat.zero_add, List.getElem?_eq_getElem hj] at hb
    simp [prefixOf, hi, State.bitRead, hb, List.getElem?_eq_getElem hj, bitOf]
  · rw [List.getElem?_eq_none (by omega), List.getElem?_eq_none (by simp [prefixOf]; omega)]
    rfl

/-! ### The count of 1s -/

@[simp] theorem onesUpTo_zero (bit : Nat → Bool) : onesUpTo bit 0 = 0 := rfl

theorem onesUpTo_succ (bit : Nat → Bool) (n : Nat) :
    onesUpTo bit (n + 1) = onesUpTo bit n + (if bit n = true then 1 else 0) := by
  unfold onesUpTo
  rw [Finset.range_add_one, Finset.filter_insert]
  split
  · rw [Finset.card_insert_of_notMem (by simp)]
  · rfl

theorem onesUpTo_le (bit : Nat → Bool) (n : Nat) : onesUpTo bit n ≤ n := by
  unfold onesUpTo
  exact (Finset.card_filter_le _ _).trans (by simp)

/-- The frequency counter holds the number of 1 bits of the sequence (42_monobit.md R101). -/
theorem countOnes_prefixOf (bit : Nat → Bool) (n : Nat) : countOnes (prefixOf bit n) = onesUpTo bit n := by
  unfold countOnes
  induction n with
  | zero => rfl
  | succ n ih =>
    rw [prefixOf_succ, List.count_append, ih, onesUpTo_succ]
    cases bit n <;> simp

/-- `ONES <- ONES + popcount(MemRead(j, 32))` over the blocks in ascending order gives the same count
(42_monobit.md R100, R101). -/
theorem countOnes_sequenceOf (vs : List Block) :
    countOnes (sequenceOf vs) = vs.foldl (fun n v => n + popcount v) 0 := by
  have shift : ∀ (vs : List Block) (n : Nat),
      vs.foldl (fun n v => n + popcount v) n = n + countOnes (sequenceOf vs) := by
    intro vs
    induction vs with
    | nil => intro n; rfl
    | cons v vs ih =>
      intro n
      have hs : countOnes (sequenceOf (v :: vs)) = popcount v + countOnes (sequenceOf vs) := List.count_append
      rw [List.foldl_cons, ih, hs, Nat.add_assoc]
  rw [shift, Nat.zero_add]

/-! ### Trailing runs and the longest run -/

/-- The scan of the longest-run unit before its final fold. -/
def runScanAt (bit : Nat → Bool) (n : Nat) : RunScan :=
  (prefixOf bit n).foldl scanRun { run1 := 0, run0 := 0, maxlen := 0 }

theorem runScanAt_succ (bit : Nat → Bool) (n : Nat) :
    runScanAt bit (n + 1) = scanRun (runScanAt bit n) (bit n) := by
  simp [runScanAt, prefixOf_succ]

theorem scanRuns_prefixOf (bit : Nat → Bool) (n : Nat) :
    scanRuns (prefixOf bit n) = foldTrailing (runScanAt bit n) := rfl

theorem IsTrailing.zero (bit : Nat → Bool) (b : Bool) : IsTrailing bit b 0 0 := ⟨le_refl _, by omega, .inl rfl⟩

theorem IsTrailing.extend {bit : Nat → Bool} {b : Bool} {n len : Nat} (h : IsTrailing bit b n len) (hb : bit n = b) :
    IsTrailing bit b (n + 1) (len + 1) := by
  obtain ⟨h1, h2, h3⟩ := h
  refine ⟨by omega, ?_, ?_⟩
  · intro i hi hn
    by_cases e : i = n
    · rw [e, hb]
    · exact h2 i (by omega) (by omega)
  · rcases h3 with h3 | h3
    · exact .inl (by omega)
    · exact .inr (by rwa [show n + 1 - (len + 1) - 1 = n - len - 1 by omega])

theorem IsTrailing.broken {bit : Nat → Bool} {b : Bool} {n : Nat} (hb : bit n ≠ b) : IsTrailing bit b (n + 1) 0 :=
  ⟨by omega, by intro i hi hn; omega, .inr hb⟩

/-- There is one trailing run only. -/
theorem IsTrailing.unique {bit : Nat → Bool} {b : Bool} {n len len' : Nat} (h : IsTrailing bit b n len)
    (h' : IsTrailing bit b n len') : len = len' := by
  have key : ∀ {k k' : Nat}, IsTrailing bit b n k → IsTrailing bit b n k' → ¬ k < k' := by
    intro k k' h h' hlt
    rcases h.2.2 with e | e
    · have := h'.1; omega
    · exact e (h'.2.1 _ (by omega) (by have := h'.1; omega))
  have := key h h'
  have := key h' h
  omega

/-- A run that ends at the last index is the trailing run of its value. -/
theorem IsRun.trailing {bit : Nat → Bool} {n a len : Nat} (h : IsRun bit n a len) (he : a + len = n) :
    IsTrailing bit (bit a) n len := by
  obtain ⟨h1, h2, h3, h4, -⟩ := h
  refine ⟨by omega, fun i hi hn => h3 i (by omega) (by omega), ?_⟩
  rcases h4 with h4 | h4
  · exact .inl (by omega)
  · exact .inr (by rwa [show n - len - 1 = a - 1 by omega])

/-- A trailing run that is not empty is a run. -/
theorem IsTrailing.isRun {bit : Nat → Bool} {b : Bool} {n len : Nat} (h : IsTrailing bit b n len) (hl : 1 ≤ len) :
    IsRun bit n (n - len) len := by
  obtain ⟨h1, h2, h3⟩ := h
  have hb : bit (n - len) = b := h2 _ (by omega) (by omega)
  refine ⟨hl, by omega, fun i hi hn => by rw [hb]; exact h2 i hi (by omega), ?_, .inl (by omega)⟩
  rcases h3 with h3 | h3
  · exact .inl (by omega)
  · exact .inr (by rwa [hb])

/-- A run of a longer prefix that ends before its last bit is a run of the shorter prefix. -/
theorem IsRun.restrict {bit : Nat → Bool} {n a len : Nat} (h : IsRun bit (n + 1) a len) (he : a + len ≤ n) :
    IsRun bit n a len := by
  obtain ⟨h1, h2, h3, h4, h5⟩ := h
  refine ⟨h1, he, h3, h4, ?_⟩
  rcases h5 with h5 | h5
  · omega
  · exact .inr h5

/-- A run that ends before the last bit stays a run in every longer prefix. -/
theorem IsRun.extend {bit : Nat → Bool} {n a len : Nat} (h : IsRun bit n a len) (hb : a + len < n ∨ bit n ≠ bit a) :
    IsRun bit (n + 1) a len := by
  obtain ⟨h1, h2, h3, h4, h5⟩ := h
  refine ⟨h1, by omega, h3, h4, .inr ?_⟩
  rcases hb with hb | hb
  · rcases h5 with h5 | h5
    · omega
    · exact h5
  · rcases h5 with h5 | h5
    · rwa [h5]
    · exact h5

/-- What the longest-run unit holds after `n` bits: both trailing runs, and the longest run that a bit has ended. -/
structure RunScanLaw (bit : Nat → Bool) (n : Nat) (c : RunScan) : Prop where
  ones : IsTrailing bit true n c.run1
  zeros : IsTrailing bit false n c.run0
  upper : ∀ a len, IsRun bit n a len → a + len < n → len ≤ c.maxlen
  attained : c.maxlen = 0 ∨ ∃ a, IsRun bit n a c.maxlen ∧ a + c.maxlen < n

theorem runScanAt_law (bit : Nat → Bool) (n : Nat) : RunScanLaw bit n (runScanAt bit n) := by
  induction n with
  | zero => exact ⟨.zero bit true, .zero bit false, by intro a len h hl; omega, .inl rfl⟩
  | succ n ih =>
    rw [runScanAt_succ]
    generalize runScanAt bit n = c at ih
    obtain ⟨i1, i2, i3, i4⟩ := ih
    -- the run of value `!bit n` that bit n ends has length `k`
    have core : ∀ k, IsTrailing bit (!bit n) n k →
        (∀ a len, IsRun bit (n + 1) a len → a + len < n + 1 → len ≤ max c.maxlen k) ∧
        (max c.maxlen k = 0 ∨ ∃ a, IsRun bit (n + 1) a (max c.maxlen k) ∧ a + max c.maxlen k < n + 1) := by
      intro k hk
      constructor
      · intro a len hr hl
        have hr' := hr.restrict (by omega)
        by_cases he : a + len < n
        · exact (i3 a len hr' he).trans (le_max_left _ _)
        · have he' : a + len = n := by omega
          have hv : bit a = !bit n := by
            rcases hr.2.2.2.2 with h | h
            · omega
            · rw [he'] at h
              cases h0 : bit a <;> cases h1 : bit n <;> simp_all
          have ht := hr'.trailing he'
          rw [hv] at ht
          exact (ht.unique hk).le.trans (le_max_right _ _)
      · by_cases hle : k ≤ c.maxlen
        · rw [max_eq_left hle]
          rcases i4 with h | ⟨a, h, hl⟩
          · exact .inl h
          · exact .inr ⟨a, h.extend (.inl hl), by omega⟩
        · rw [max_eq_right (by omega)]
          have hr := hk.isRun (by omega)
          have hb : bit (n - k) = !bit n := hk.2.1 _ (by omega) (by have := hk.1; omega)
          exact .inr ⟨n - k, hr.extend (.inr (by rw [hb]; cases bit n <;> simp)), by have := hk.1; omega⟩
    cases hb : bit n
    · obtain ⟨u, w⟩ := core c.run1 (by simpa [hb] using i1)
      exact ⟨.broken (by simp [hb]), i2.extend hb, u, w⟩
    · obtain ⟨u, w⟩ := core c.run0 (by simpa [hb] using i2)
      exact ⟨i1.extend hb, .broken (by simp [hb]), u, w⟩

/-- The final fold takes the trailing runs in: MAXLEN is the length of a run, and of no longer one
(43_longest_run.md R111). -/
theorem scanRuns_law {bit : Nat → Bool} {n : Nat} (hn : 1 ≤ n) :
    (∃ a, IsRun bit n a (scanRuns (prefixOf bit n)).maxlen) ∧
    (∀ a len, IsRun bit n a len → len ≤ (scanRuns (prefixOf bit n)).maxlen) ∧
    IsTrailing bit true n (scanRuns (prefixOf bit n)).run1 ∧ IsTrailing bit false n (scanRuns (prefixOf bit n)).run0 := by
  rw [scanRuns_prefixOf]
  obtain ⟨h1, h2, h3, h4⟩ := runScanAt_law bit n
  generalize runScanAt bit n = c at *
  refine ⟨?_, ?_, h1, h2⟩
  · have pos : 1 ≤ c.run1 ∨ 1 ≤ c.run0 := by
      cases hb : bit (n - 1)
      · right
        by_contra h
        rcases h2.2.2 with e | e
        · omega
        · exact e (by rwa [show n - c.run0 - 1 = n - 1 by omega])
      · left
        by_contra h
        rcases h1.2.2 with e | e
        · omega
        · exact e (by rwa [show n - c.run1 - 1 = n - 1 by omega])
    have pick : ((foldTrailing c).maxlen = c.maxlen ∧ c.run1 ≤ c.maxlen ∧ c.run0 ≤ c.maxlen) ∨
        ((foldTrailing c).maxlen = c.run1 ∧ 1 ≤ c.run1) ∨ ((foldTrailing c).maxlen = c.run0 ∧ 1 ≤ c.run0) := by
      simp only [foldTrailing]
      omega
    rcases pick with ⟨e, -, -⟩ | ⟨e, hl⟩ | ⟨e, hl⟩
    · rw [e]
      rcases h4 with h | ⟨a, h, -⟩
      · simp only [foldTrailing] at e
        omega
      · exact ⟨a, h⟩
    · rw [e]
      exact ⟨_, h1.isRun hl⟩
    · rw [e]
      exact ⟨_, h2.isRun hl⟩
  · intro a len hr
    simp only [foldTrailing]
    by_cases he : a + len < n
    · have := h3 a len hr he
      omega
    · have hv := hr.trailing (by have := hr.2.1; omega)
      cases hb : bit a
      · rw [hb] at hv
        have := hv.unique h2
        omega
      · rw [hb] at hv
        have := hv.unique h1
        omega

theorem scanRuns_le (bit : Nat → Bool) (n : Nat) :
    (scanRuns (prefixOf bit n)).run1 ≤ (scanRuns (prefixOf bit n)).maxlen ∧
    (scanRuns (prefixOf bit n)).run0 ≤ (scanRuns (prefixOf bit n)).maxlen ∧
    (scanRuns (prefixOf bit n)).maxlen ≤ n := by
  rw [scanRuns_prefixOf]
  obtain ⟨h1, h2, -, h4⟩ := runScanAt_law bit n
  generalize runScanAt bit n = c at *
  have := h1.1
  have := h2.1
  simp only [foldTrailing]
  refine ⟨by omega, by omega, ?_⟩
  rcases h4 with h | ⟨a, h, hl⟩ <;> omega

/-! ### The poker histogram -/

theorem nibOf_toNat (b0 b1 b2 b3 : Bool) :
    (nibOf b0 b1 b2 b3).toNat = 8 * b0.toNat + 4 * b1.toNat + 2 * b2.toNat + b3.toNat := by
  revert b0 b1 b2 b3
  decide

theorem pokerGroups_append (l : List Bool) (b0 b1 b2 b3 : Bool) (h : l.length % 4 = 0) :
    pokerGroups (l ++ [b0, b1, b2, b3]) = pokerGroups l ++ [nibOf b0 b1 b2 b3] := by
  induction l using pokerGroups.induct with
  | case1 c0 c1 c2 c3 rest ih =>
    simp only [List.length_cons] at h
    simp only [List.cons_append, pokerGroups, ih (by omega)]
  | case2 l hne =>
    match l, h with
    | [], _ => rfl
    | [_], h => simp at h
    | [_, _], h => simp at h
    | [_, _, _], h => simp at h
    | c0 :: c1 :: c2 :: c3 :: rest, _ => exact absurd rfl (hne c0 c1 c2 c3 rest)

theorem pokerGroups_prefixOf (bit : Nat → Bool) (k : Nat) :
    pokerGroups (prefixOf bit (4 * k)) =
      (List.range k).map fun q => nibOf (bit (4 * q)) (bit (4 * q + 1)) (bit (4 * q + 2)) (bit (4 * q + 3)) := by
  induction k with
  | zero => rfl
  | succ k ih =>
    have e : prefixOf bit (4 * (k + 1)) =
        prefixOf bit (4 * k) ++ [bit (4 * k), bit (4 * k + 1), bit (4 * k + 2), bit (4 * k + 3)] := by
      rw [show 4 * (k + 1) = 4 * k + 1 + 1 + 1 + 1 by omega]
      simp [prefixOf_succ]
    rw [e, pokerGroups_append _ _ _ _ _ (by simp [prefixOf]), ih, List.range_succ, List.map_append]
    rfl

theorem tallyNib_get (h : Vector Nat 16) (v : BitVec 4) (k : Fin 16) :
    (tallyNib h v).get k = h.get k + if v.toNat = k.val then 1 else 0 := by
  have hv : v.toNat < 16 := v.isLt
  show (tallyNib h v)[k.val] = h[k.val] + _
  unfold tallyNib
  rw [Vector.getElem_set]
  split
  · next e => simp [← e]
  · simp

theorem foldl_tallyNib_get (l : List (BitVec 4)) (h : Vector Nat 16) (k : Fin 16) :
    (l.foldl tallyNib h).get k = h.get k + l.countP fun v => v.toNat = k.val := by
  induction l generalizing h with
  | nil => simp
  | cons v l ih =>
    rw [List.foldl_cons, ih, tallyNib_get, List.countP_cons]
    by_cases e : v.toNat = k.val
    · simp [e]
      omega
    · simp [e]

/-- Bucket v of the histogram counts the poker blocks of value v (44_poker.md R122, R126). -/
theorem pokerHist_get (bit : Nat → Bool) (k : Nat) (v : Fin 16) :
    (pokerHist (prefixOf bit (4 * k))).get v = pokerCount bit k v.val := by
  have hz : (Vector.replicate 16 0 : Vector Nat 16).get v = 0 := by
    show (Vector.replicate 16 0 : Vector Nat 16)[v.val] = 0
    simp
  rw [pokerHist, foldl_tallyNib_get, hz, Nat.zero_add, pokerGroups_prefixOf, List.countP_map, pokerCount]
  induction k with
  | zero => rfl
  | succ k ih =>
    rw [List.range_succ, List.countP_append, ih, Finset.range_add_one, Finset.filter_insert]
    have e : pokerValue bit k =
        (nibOf (bit (4 * k)) (bit (4 * k + 1)) (bit (4 * k + 2)) (bit (4 * k + 3))).toNat := (nibOf_toNat _ _ _ _).symm
    by_cases hv : pokerValue bit k = v.val
    · rw [if_pos hv, Finset.card_insert_of_notMem (by simp)]
      rw [e] at hv
      simp [hv]
    · rw [if_neg hv]
      rw [e] at hv
      simp [hv]

theorem pokerValue_lt (bit : Nat → Bool) (q : Nat) : pokerValue bit q < 16 := by
  have h : ∀ b : Bool, b.toNat ≤ 1 := by decide
  have := h (bit (4 * q))
  have := h (bit (4 * q + 1))
  have := h (bit (4 * q + 2))
  have := h (bit (4 * q + 3))
  unfold pokerValue
  omega

/-- The buckets hold every poker block once (44_poker.md R122). -/
theorem pokerCount_sum (bit : Nat → Bool) (k : Nat) : ∑ v ∈ Finset.range 16, pokerCount bit k v = k := by
  have := Finset.card_eq_sum_card_fiberwise (f := pokerValue bit) (s := Finset.range k) (t := Finset.range 16)
    (by intro q _; simpa using pokerValue_lt bit q)
  rw [Finset.card_range] at this
  exact this.symm

/-- A sum over the entries of a vector, entry by entry. -/
theorem sumSquares_eq (h : Vector Nat 16) : sumSquares h = ∑ v : Fin 16, h.get v ^ 2 := by
  obtain ⟨⟨l⟩, hl⟩ := h
  have hl' : l.length = 16 := hl
  have hf : ∀ (l : List Nat) (a : Nat), l.foldl (fun a n => a + n * n) a = a + (l.map fun n => n ^ 2).sum := by
    intro l
    induction l with
    | nil => intro a; simp
    | cons x l ih =>
      intro a
      rw [List.foldl_cons, ih, List.map_cons, List.sum_cons]
      ring
  show l.foldl (fun a n => a + n * n) 0 = ∑ v : Fin 16, l[v.val] ^ 2
  rw [hf, Nat.zero_add, ← List.sum_ofFn]
  congr 1
  apply List.ext_getElem (by simp [hl'])
  intro i h1 h2
  simp only [List.getElem_map, List.getElem_ofFn]

/-- Sixteen times the sum of squares is at least the square of the sum (44_poker.md R124), and the sum of squares at
most that square. -/
theorem sumSquares_bounds {c : Nat → Nat} {k : Nat} (h : ∑ v ∈ Finset.range 16, c v = k) :
    k ^ 2 ≤ 16 * ∑ v ∈ Finset.range 16, c v ^ 2 ∧ ∑ v ∈ Finset.range 16, c v ^ 2 ≤ k ^ 2 := by
  constructor
  · have := Finset.sum_mul_sq_le_sq_mul_sq (Finset.range 16) c fun _ => 1
    simp only [mul_one, one_pow, Finset.sum_const, Finset.card_range, smul_eq_mul, h] at this
    omega
  · rw [← h]
    exact Finset.sum_sq_le_sq_sum_of_nonneg fun _ _ => Nat.zero_le _

/-- At k = 5000 the comparator is the one of POKER's pseudocode (44_poker.md R120, R123). -/
theorem pokerPass_pokerK (x : Nat) : pokerPass 5000 x = (decide (5150 ≤ x) && decide (x ≤ 287000)) := by
  simp only [pokerPass, Config.pokerLoNum, Config.pokerLoDen, Config.pokerHiNum, Config.pokerHiDen]
  congr 1 <;> exact decide_eq_decide.mpr (by omega)

/-! ### Terminated runs of 1s -/

/-- The scan of the run-length unit after `n` bits. -/
def oneScanAt (bit : Nat → Bool) (n : Nat) : OnesScan := scanOneRuns (prefixOf bit n)

theorem oneScanAt_succ (bit : Nat → Bool) (n : Nat) :
    oneScanAt bit (n + 1) = scanOnes (oneScanAt bit n) (bit n) := by
  simp [oneScanAt, scanOneRuns, prefixOf_succ]

theorem tallyRun_get (cnt : Vector Nat 6) (len : Nat) (b : Fin 6) :
    (tallyRun cnt len).get b = cnt.get b + if bucketOf len = b.val then 1 else 0 := by
  have hb : bucketOf len < 6 := by
    unfold bucketOf
    omega
  show (tallyRun cnt len)[b.val] = cnt[b.val] + _
  unfold tallyRun
  rw [Vector.getElem_set]
  split
  · next e => simp [← e]
  · simp

/-- CUR is the run of 1s that is still open (10_state.md R22). -/
theorem oneScanAt_cur (bit : Nat → Bool) (n : Nat) : IsTrailing bit true n (oneScanAt bit n).cur := by
  induction n with
  | zero => exact .zero bit true
  | succ n ih =>
    rw [oneScanAt_succ]
    cases hb : bit n
    · have hz : (scanOnes (oneScanAt bit n) false).cur = 0 := by
        simp only [scanOnes, Bool.false_eq_true, if_false]
        split <;> rfl
      rw [hz]
      exact .broken (by simp [hb])
    · exact ih.extend hb

/-- One more bit adds the run it ends, if it ends one, to the terminated runs (45_run_length.md R135). -/
theorem terminatedRuns_succ {bit : Nat → Bool} {n len b : Nat} (ht : IsTrailing bit true n len) :
    terminatedRuns bit (n + 1) b =
      terminatedRuns bit n b + if bit n = false ∧ 1 ≤ len ∧ min len 6 = b then 1 else 0 := by
  have old : ∀ a e, IsTerminatedRun bit (n + 1) b a e → e + 1 ≠ n → IsTerminatedRun bit n b a e := by
    rintro a e ⟨h1, h2, h3⟩ hne
    exact ⟨h1, by omega, h3⟩
  have keep : ∀ a e, IsTerminatedRun bit n b a e → IsTerminatedRun bit (n + 1) b a e := by
    rintro a e ⟨h1, h2, h3⟩
    exact ⟨h1, by omega, h3⟩
  have new : ∀ a e, IsTerminatedRun bit (n + 1) b a e → e + 1 = n →
      bit n = false ∧ 1 ≤ len ∧ min len 6 = b ∧ a = n - len ∧ e = n - 1 := by
    rintro a e ⟨h1, h2, h3, h4, h5, h6⟩ he
    have hl : IsTrailing bit true n (n - a) := by
      refine ⟨by omega, ?_, ?_⟩
      · intro i hi hn
        exact h3 i (Finset.mem_Icc.mpr ⟨by omega, by omega⟩)
      · rcases h5 with h5 | h5
        · exact .inl (by omega)
        · by_cases h0 : a = 0
          · exact .inl (by omega)
          · right
            rw [show n - (n - a) - 1 = a - 1 by omega, h5]
            simp
    have := hl.unique ht
    rw [he] at h4
    have e1 : e - a + 1 = len := by omega
    rw [e1] at h6
    exact ⟨h4, by omega, h6, by omega, by omega⟩
  have mk : bit n = false → 1 ≤ len → min len 6 = b → IsTerminatedRun bit (n + 1) b (n - len) (n - 1) := by
    intro h0 hl hm
    have := ht.1
    refine ⟨by omega, by omega, ?_, by rwa [show n - 1 + 1 = n by omega], ?_, ?_⟩
    · intro i hi
      have := Finset.mem_Icc.mp hi
      exact ht.2.1 i this.1 (by omega)
    · rcases ht.2.2 with h | h
      · exact .inl (by omega)
      · exact .inr (by simpa using h)
    · rw [show n - 1 - (n - len) + 1 = len by omega]
      exact hm
  unfold terminatedRuns
  by_cases hc : bit n = false ∧ 1 ≤ len ∧ min len 6 = b
  · obtain ⟨c1, c2, c3⟩ := hc
    rw [if_pos ⟨c1, c2, c3⟩]
    have hnot : (n - len, n - 1) ∉
        (Finset.range n ×ˢ Finset.range n).filter fun p => IsTerminatedRun bit n b p.1 p.2 := by
      intro hm
      have h2 := (Finset.mem_filter.mp hm).2.2.1
      have := ht.1
      simp only at h2
      omega
    rw [← Finset.card_insert_of_notMem hnot]
    congr 1
    ext ⟨a, e⟩
    simp only [Finset.mem_filter, Finset.mem_product, Finset.mem_range, Finset.mem_insert, Prod.mk.injEq]
    constructor
    · rintro ⟨-, hr⟩
      by_cases he : e + 1 = n
      · obtain ⟨-, -, -, ha, he'⟩ := new a e hr he
        exact .inl ⟨ha, he'⟩
      · have hr' := old a e hr he
        obtain ⟨q1, q2, -⟩ := id hr'
        exact .inr ⟨⟨by omega, by omega⟩, hr'⟩
    · rintro (⟨rfl, rfl⟩ | ⟨⟨h1, h2⟩, hr⟩)
      · have := ht.1
        exact ⟨⟨by omega, by omega⟩, mk c1 c2 c3⟩
      · exact ⟨⟨by omega, by omega⟩, keep a e hr⟩
  · rw [if_neg hc, Nat.add_zero]
    congr 1
    ext ⟨a, e⟩
    simp only [Finset.mem_filter, Finset.mem_product, Finset.mem_range]
    constructor
    · rintro ⟨-, hr⟩
      have hne : e + 1 ≠ n := by
        intro he
        obtain ⟨k1, k2, k3, -⟩ := new a e hr he
        exact hc ⟨k1, k2, k3⟩
      have hr' := old a e hr hne
      obtain ⟨q1, q2, -⟩ := id hr'
      exact ⟨⟨by omega, by omega⟩, hr'⟩
    · rintro ⟨⟨h1, h2⟩, hr⟩
      exact ⟨⟨by omega, by omega⟩, keep a e hr⟩

/-- Bucket b counts the terminated runs of its length (45_run_length.md R133, R135). -/
theorem oneScanAt_cnt (bit : Nat → Bool) (n : Nat) (b : Fin 6) :
    (oneScanAt bit n).cnt.get b = terminatedRuns bit n (b.val + 1) := by
  induction n with
  | zero =>
    have hz : (oneScanAt bit 0).cnt.get b = 0 := by
      show (Vector.replicate 6 0 : Vector Nat 6)[b.val] = 0
      simp
    rw [hz]
    rfl
  | succ n ih =>
    rw [oneScanAt_succ, terminatedRuns_succ (oneScanAt_cur bit n), ← ih]
    generalize oneScanAt bit n = c
    have hb := b.isLt
    cases hn : bit n
    · simp only [scanOnes, Bool.false_eq_true, if_false, true_and]
      split
      · next hc =>
        rw [tallyRun_get]
        congr 1
        unfold bucketOf
        have : (min c.cur 6 - 1 = b.val) ↔ (1 ≤ c.cur ∧ min c.cur 6 = b.val + 1) := by omega
        simp only [this]
      · next hc =>
        rw [if_neg (by omega)]
        rfl
    · simp [scanOnes]

/-- The buckets' sums stay inside the sequence: every terminated run takes a 1 and the 0 after it, and a run in bucket b
at least b 1s (45_run_length.md R134). -/
theorem oneScanAt_bounds (bit : Nat → Bool) (n : Nat) :
    2 * (∑ b : Fin 6, (oneScanAt bit n).cnt.get b) + (oneScanAt bit n).cur ≤ n ∧
    (∑ b : Fin 6, (b.val + 1) * (oneScanAt bit n).cnt.get b) + (oneScanAt bit n).cur ≤ onesUpTo bit n := by
  induction n with
  | zero =>
    have hz : ∀ b : Fin 6, (oneScanAt bit 0).cnt.get b = 0 := by
      intro b
      show (Vector.replicate 6 0 : Vector Nat 6)[b.val] = 0
      simp
    simp only [hz]
    exact ⟨by simp [oneScanAt, scanOneRuns], by simp [oneScanAt, scanOneRuns]⟩
  | succ n ih =>
    rw [oneScanAt_succ, onesUpTo_succ]
    generalize oneScanAt bit n = c at ih
    obtain ⟨i1, i2⟩ := ih
    cases hn : bit n
    · simp only [scanOnes, Bool.false_eq_true, if_false]
      split
      · next hc =>
        have hlt : bucketOf c.cur < 6 := by
          unfold bucketOf
          omega
        have e : ∀ b : Fin 6, (bucketOf c.cur = b.val) ↔ ((⟨bucketOf c.cur, hlt⟩ : Fin 6) = b) := fun b => by
          rw [Fin.ext_iff]
        have hle : bucketOf c.cur + 1 ≤ c.cur := by
          unfold bucketOf
          omega
        simp only [tallyRun_get, e, mul_add, Finset.sum_add_distrib, mul_ite, mul_one, mul_zero, Finset.sum_ite_eq,
          Finset.mem_univ, if_true]
        simp only [Finset.mul_sum] at i1
        simp only [Finset.mul_sum]
        constructor
        · omega
        · omega
      · constructor
        · simp only
          omega
        · simp only
          omega
    · simp only [scanOnes, if_true]
      constructor <;> omega

end Sys2Proof.Machine
end

