-- ==== Sys2Proof/Laws/Step.lean ====
section
/-! SUPPORT. What a command and a step can do, each said once: later proofs split on these and unfold neither. -/

namespace Sys2Proof.Machine

/-- The register map, as the set of its numbers (10_state.md R24). -/
theorem regOf_isSome_iff (r : Nat) : (regOf r).isSome = true ↔ registerMapped r := by
  by_cases h : r < 0x52
  · have all : ∀ r : Fin 0x52, (regOf r.val).isSome = true ↔ registerMapped r.val := by
      unfold registerMapped
      decide
    exact all ⟨r, h⟩
  · unfold registerMapped regOf
    rw [if_neg (by omega), dif_neg (by omega), if_neg (by omega), if_neg (by omega), if_neg (by omega),
      if_neg (by omega), if_neg (by omega)]
    simp
    omega

/-- Step 1 of 60_exceptions.md R151 for every command. -/
theorem exec_of_halted {i : Instr} {s : State} (hf : s.fault ≠ 0#4) (hn : ∀ r, registerMapped r → i ≠ .rdreg r) :
    exec i s = .next s.refuseHalted := by
  cases i with
  | gen => rw [exec_gen, unlessHalted_of_halted _ hf]
  | mono => rw [exec_mono, checkReady_of_halted _ _ hf]
  | maxrun => rw [exec_maxrun, checkReady_of_halted _ _ hf]
  | poker => rw [exec_poker, checkReady_of_halted _ _ hf]
  | runs => rw [exec_runs, checkReady_of_halted _ _ hf]
  | getbit idx => rw [exec_getbit, checkReady_of_halted _ _ hf]
  | rdblk j => rw [exec_rdblk, checkReady_of_halted _ _ hf]
  | rdreg r =>
    have hr : regOf r = none := by
      cases h : regOf r with
      | none => rfl
      | some reg => exact absurd rfl (hn r ((regOf_isSome_iff r).mp (by simp [h])))
    rw [exec_rdreg_of_unmapped _ hr, unlessHalted_of_halted _ hf]

/-- What a command can do: answer only, fault, construct, or run a test. -/
inductive ExecNext (i : Instr) (s t : State) : Prop where
  | answer (h : t = { s with rsp := t.rsp })
  | faulted (good : s.fault = 0#4) (c : Cause) (info : Word) (notGen : i ≠ .gen) (h : t = s.raiseFault c info)
  | constructed (good : s.fault = 0#4) (isGen : i = .gen) (h : t = s.afterGen)
  | tested (good : s.fault = 0#4) (constructed : s.valid = true) (u : TestUnit) (vs : List Block) (isTest : IsTest i u)
      (blocks : s.mem.readBlocks 0 625 = some vs) (h : t = s.afterTest u vs)

theorem ExecNext.of_test {i : Instr} {u : TestUnit} {s t : State} (hi : IsTest i u) (hg : i ≠ .gen)
    (h : exec i s = .next t) : ExecNext i s t := by
  rcases exec_test_next hi h with ⟨_, rfl⟩ | ⟨hf, _, rfl⟩ | ⟨hf, hv, vs, hb, rfl⟩
  · exact .answer rfl
  · exact .faulted hf _ _ hg rfl
  · exact .tested hf hv u vs hi hb rfl

/-- Every command that answers a next state does one of these. -/
theorem exec_next {i : Instr} {s t : State} (h : exec i s = .next t) : ExecNext i s t := by
  cases i with
  | gen =>
    rcases exec_gen_next h with ⟨_, rfl⟩ | ⟨hf, rfl⟩
    · exact .answer rfl
    · exact .constructed hf rfl rfl
  | mono => exact .of_test .mono (by simp) h
  | maxrun => exact .of_test .maxrun (by simp) h
  | poker => exact .of_test .poker (by simp) h
  | runs => exact .of_test .runs (by simp) h
  | getbit idx =>
    rcases exec_getbit_next h with ⟨_, rfl⟩ | ⟨hf, _, rfl⟩ | ⟨hf, _, _, rfl⟩ | ⟨_, _, _, v, _, rfl⟩
    · exact .answer rfl
    · exact .faulted hf _ _ (by simp) rfl
    · exact .faulted hf _ _ (by simp) rfl
    · exact .answer rfl
  | rdblk j =>
    rcases exec_rdblk_next h with ⟨_, rfl⟩ | ⟨hf, _, rfl⟩ | ⟨hf, _, _, rfl⟩ | ⟨_, _, _, v, _, rfl⟩
    · exact .answer rfl
    · exact .faulted hf _ _ (by simp) rfl
    · exact .faulted hf _ _ (by simp) rfl
    · exact .answer rfl
  | rdreg r =>
    rcases exec_rdreg_next h with ⟨_, _, rfl⟩ | ⟨_, _, rfl⟩ | ⟨_, hf, rfl⟩
    · exact .answer rfl
    · exact .answer rfl
    · exact .faulted hf _ _ (by simp) rfl

/-- What a step can do: stay idle, reset, or run the next word. -/
inductive StepNext (s t : State) : Prop where
  | idle (port : s.port = []) (h : t = s.idle)
  | reset (rest : List PortEvent) (port : s.port = .reset :: rest ∨ ∃ w, s.port = .resetDuring w :: rest)
      (h : t = resetEvent rest)
  | word (w : Word) (rest : List PortEvent) (port : s.port = .command w :: rest)
      (h : runWord w (s.withPort rest) = .next t)

theorem step_next {s t : State} (h : step s = .next t) : StepNext s t := by
  unfold step at h
  split at h
  · next e =>
    cases h
    exact .idle e rfl
  · next w rest e => exact .word w rest e h
  · next rest e =>
    cases h
    exact .reset rest (.inl e) rfl
  · next w rest e =>
    cases h
    exact .reset rest (.inr ⟨w, e⟩) rfl

/-- What an accepted word can do: run its command, or be refused as an illegal one. -/
theorem runWord_next {w : Word} {s t : State} (h : runWord w s = .next t) :
    (∃ i, decode w = .command i ∧ exec i s = .next t) ∨
    (∃ why, decode w = .illegal why ∧
      ((s.fault ≠ 0#4 ∧ t = s.refuseHalted) ∨ (s.fault = 0#4 ∧ t = s.raiseFault .illegalCommand w))) := by
  unfold runWord at h
  split at h
  · next i hd => exact .inl ⟨i, hd, h⟩
  · next why hd => exact .inr ⟨why, hd, illegalWord_next h⟩

end Sys2Proof.Machine
end

