-- ==== Sys2Proof/Tests/Slice0.lean ====
section
/-! SUPPORT. Tests, with expected results from 95_test_vectors.md (V1 to V15) or by hand from the rules, and a named
witness for the hypotheses of every obligation that has any (`witness_<name>`). -/

namespace Sys2Proof.Machine

/-! ### Decoding, one word per command written from 30_encoding.md R60 and R62 -/

/-- V9: OP 0x1, ARG 0. -/
theorem test_decode_gen : decode 0b0001_0000000000000000000000000000#32 = .command .gen := by decide

/-- V9: OP 0x2, ARG 0. -/
theorem test_decode_mono : decode 0b0010_0000000000000000000000000000#32 = .command .mono := by decide

/-- V9: OP 0x3, ARG 0. -/
theorem test_decode_maxrun : decode 0b0011_0000000000000000000000000000#32 = .command .maxrun := by decide

/-- V9: OP 0x4, ARG 0. -/
theorem test_decode_poker : decode 0b0100_0000000000000000000000000000#32 = .command .poker := by decide

/-- V9: OP 0x5, ARG 0. -/
theorem test_decode_runs : decode 0b0101_0000000000000000000000000000#32 = .command .runs := by decide

/-- V3: OP 0x6, ARG 19999 = 0x4E1F. -/
theorem test_decode_getbit : decode 0b0110_0000000000000100111000011111#32 = .command (.getbit 19999) := by decide

/-- V2: OP 0x7, ARG 624 = 0x270. -/
theorem test_decode_rdblk : decode 0b0111_0000000000000000001001110000#32 = .command (.rdblk 624) := by decide

/-- V9: OP 0x8, ARG 0x51. -/
theorem test_decode_rdreg : decode 0b1000_0000000000000000000001010001#32 = .command (.rdreg 0x51) := by decide

/-- V9: the illegal words, each by its reason. -/
theorem test_decode_illegal :
    decode 0x00000000#32 = .illegal (.reservedOpcode 0x0#4) ∧ decode 0xFFFFFFFF#32 = .illegal (.reservedOpcode 0xF#4) ∧
    decode 0x90000000#32 = .illegal (.reservedOpcode 0x9#4) ∧ decode 0x10000001#32 = .illegal (.nonzeroArg 0x1#4 1#28) ∧
    decode 0x2FFFFFFF#32 = .illegal (.nonzeroArg 0x2#4 0xFFFFFFF#28) := by decide

/-- R63: all 28 bits of ARG are the operand; it is not reduced to an index. -/
theorem test_decode_keeps_every_bit : decode 0x68000000#32 = .command (.getbit 134217728) := by decide

/-- R60: a row of the opcode table, as the host numbers it. -/
theorem test_decodeTableWord :
    decodeTableWord 32 0x70000270 = some (.rdblk 624) ∧ decodeTableWord 32 0x10000001 = none := by decide

/-! ### Ill-formed commands -/

/-- R60: ARG has 28 bits. -/
theorem test_illformed_getbit : (Instr.getbit 268435456).wellFormed = false := by decide
theorem test_illformed_rdblk : (Instr.rdblk 268435456).wellFormed = false := by decide
theorem test_illformed_rdreg : (Instr.rdreg 268435456).wellFormed = false := by decide

/-- R64: an index outside its space is a legal encoding. -/
theorem test_wellformed_out_of_range :
    (Instr.getbit 20000).wellFormed = true ∧ (Instr.rdblk 625).wellFormed = true ∧
    (Instr.rdreg 268435455).wellFormed = true := by decide

/-! ### States the tests use -/

/-- The cells of a list of blocks, from block `j` on. -/
def cellsOf : List Block → Nat → Memory
  | [], _ => []
  | v :: vs, j =>
    (4 * j, byteOf v 0) :: (4 * j + 1, byteOf v 1) :: (4 * j + 2, byteOf v 2) :: (4 * j + 3, byteOf v 3) ::
      cellsOf vs (j + 1)

theorem cellsOf_readByte_lt (vs : List Block) (j a : Nat) (h : a < 4 * j) : (cellsOf vs j).readByte a = none := by
  induction vs generalizing j with
  | nil => rfl
  | cons v vs ih =>
    simp only [cellsOf, Memory.readByte]
    rw [if_neg (by omega), if_neg (by omega), if_neg (by omega), if_neg (by omega)]
    exact ih (j + 1) (by omega)

theorem cellsOf_readBlock (vs : List Block) (j k : Nat) : (cellsOf vs j).readBlock (j + k) = vs[k]? := by
  induction vs generalizing j k with
  | nil => rfl
  | cons v vs ih =>
    cases k with
    | zero =>
      refine Memory.readBlock_eq_some.mpr ⟨byteOf v 0, byteOf v 1, byteOf v 2, byteOf v 3, ?_, ?_, ?_, ?_, joinBytes_byteOf v⟩ <;>
        simp [cellsOf, Memory.readByte]
    | succ k =>
      have h := ih (j + 1) k
      rw [show j + 1 + k = j + (k + 1) by omega] at h
      rw [List.getElem?_cons_succ, ← h]
      apply Memory.readBlock_congr
      intro a h1 h2
      simp only [cellsOf, Memory.readByte]
      rw [if_neg (by omega), if_neg (by omega), if_neg (by omega), if_neg (by omega)]

theorem cellsOf_readBlocks {vs : List Block} (h : vs.length = 625) : (cellsOf vs 0).readBlocks 0 625 = some vs :=
  Memory.readBlocks_eq_some.mpr ⟨h, fun k _ => cellsOf_readBlock vs 0 k⟩

/-- The state after reset with a construction put into it (92_eei_decisions.md D27). -/
def holding (vs : List Block) : State := { State.reset with mem := cellsOf vs 0, valid := true }

theorem holding_readBlocks {vs : List Block} (h : vs.length = 625) : (holding vs).mem.readBlocks 0 625 = some vs :=
  cellsOf_readBlocks h

theorem holding_ready {vs : List Block} (h : vs.length = 625) : (holding vs).ready := by
  refine ⟨rfl, rfl, fun j hj => ?_⟩
  have := cellsOf_readBlock vs 0 j
  rw [Nat.zero_add] at this
  show ((cellsOf vs 0).readBlock j).isSome = true
  rw [this, List.getElem?_eq_getElem (by omega)]
  rfl

/-- `0101...`: bit i is i mod 2 (V4, V5, V10). -/
def alternating : List Block := List.replicate 625 0xAAAAAAAA#32

/-- All zeros (V4, V5). -/
def allZeros : List Block := List.replicate 625 0#32

/-- 300 of each poker value, and 25 more of eight of them. -/
def nearlyUniform : List Block :=
  List.replicate 300 0x76543210#32 ++ List.replicate 300 0xFEDCBA98#32 ++ List.replicate 25 0xE6A2C480#32

/-- Four runs of one 1, two of two and one of three in every block, and one more, of four, five or six. -/
def spreadRuns : List Block :=
  List.replicate 313 0b00000_00000_1111_0_111_0_11_0_11_0_1_0_1_0_1_0_1#32 ++
  (List.replicate 156 0b00000_0000_11111_0_111_0_11_0_11_0_1_0_1_0_1_0_1#32 ++
  (List.replicate 156 0b00000_000_111111_0_111_0_11_0_11_0_1_0_1_0_1_0_1#32 ++ []))

theorem alternating_length : alternating.length = 625 := List.length_replicate
theorem allZeros_length : allZeros.length = 625 := List.length_replicate

theorem nearlyUniform_length : nearlyUniform.length = 625 := by
  simp only [nearlyUniform, List.length_append, List.length_replicate]

theorem spreadRuns_length : spreadRuns.length = 625 := by
  simp only [spreadRuns, List.length_append, List.length_replicate, List.length_nil]

/-! The scans of these sequences, block by block: no test runs a scan of 20000 bits. -/

theorem countOnes_replicate (n : Nat) (v : Block) :
    countOnes (sequenceOf (List.replicate n v)) = n * popcount v := by
  induction n with
  | zero => simp [sequenceOf, countOnes]
  | succ n ih =>
    have hs : countOnes (sequenceOf (List.replicate (n + 1) v)) =
        popcount v + countOnes (sequenceOf (List.replicate n v)) := List.count_append
    rw [hs, ih, Nat.add_comm, Nat.succ_mul]

theorem pokerGroups_sequenceOf (vs : List Block) :
    pokerGroups (sequenceOf vs) = vs.flatMap fun v => pokerGroups (bitsOf v) := by
  induction vs with
  | nil => rfl
  | cons v vs ih =>
    have hs : pokerGroups (sequenceOf (v :: vs)) = pokerGroups (bitsOf v) ++ pokerGroups (sequenceOf vs) := rfl
    rw [hs, ih, List.flatMap_cons]

theorem pokerHist_get_blocks (vs : List Block) (k : Fin 16) : (pokerHist (sequenceOf vs)).get k =
    (vs.map fun v => (pokerGroups (bitsOf v)).countP fun w => w.toNat = k.val).sum := by
  have hz : (Vector.replicate 16 0 : Vector Nat 16).get k = 0 := by
    show (Vector.replicate 16 0 : Vector Nat 16)[k.val] = 0
    simp
  rw [pokerHist, foldl_tallyNib_get, pokerGroups_sequenceOf, List.countP_flatMap, hz, Nat.zero_add]
  rfl

/-- Equal blocks in a row, each of which moves the run-length scan from `st x` to `st (x + 1)`. -/
theorem scanOnes_replicate {v : Block} {st : Nat → OnesScan}
    (h : ∀ x, (bitsOf v).foldl scanOnes (st x) = st (x + 1)) (n x : Nat) (ws : List Block) :
    (sequenceOf (List.replicate n v ++ ws)).foldl scanOnes (st x) = (sequenceOf ws).foldl scanOnes (st (x + n)) := by
  induction n generalizing x with
  | zero => rfl
  | succ n ih =>
    have hs : sequenceOf (List.replicate (n + 1) v ++ ws) = bitsOf v ++ sequenceOf (List.replicate n v ++ ws) := rfl
    rw [hs, List.foldl_append, h, ih, show x + 1 + n = x + (n + 1) by omega]

/-- V10: `0101...` has 9999 terminated runs of one 1, and the last 1 is open. -/
theorem test_runs_alternating :
    scanOneRuns (sequenceOf alternating) = { cur := 1, cnt := #v[9999, 0, 0, 0, 0, 0] } := by
  have first : (bitsOf 0xAAAAAAAA#32).foldl scanOnes { cur := 0, cnt := Vector.replicate 6 0 } =
      { cur := 1, cnt := #v[15, 0, 0, 0, 0, 0] } := by decide +kernel
  have bits : bitsOf 0xAAAAAAAA#32 = [false, true, false, true, false, true, false, true, false, true, false, true,
      false, true, false, true, false, true, false, true, false, true, false, true, false, true, false, true, false,
      true, false, true] := by decide
  have next : ∀ a, (bitsOf 0xAAAAAAAA#32).foldl scanOnes { cur := 1, cnt := #v[a, 0, 0, 0, 0, 0] } =
      { cur := 1, cnt := #v[a + 16, 0, 0, 0, 0, 0] } := by
    intro a
    rw [bits]
    simp [scanOnes, tallyRun, bucketOf]
  have rest := scanOnes_replicate (v := 0xAAAAAAAA#32) (st := fun x => ⟨1, #v[15 + 16 * x, 0, 0, 0, 0, 0]⟩)
    (fun x => by rw [next]; simp; omega) 624 0 []
  have split : ∀ n, sequenceOf (List.replicate (n + 1) 0xAAAAAAAA#32) =
      bitsOf 0xAAAAAAAA#32 ++ sequenceOf (List.replicate n 0xAAAAAAAA#32 ++ []) := by
    intro n
    rw [List.append_nil]
    rfl
  rw [alternating, scanOneRuns, split 624, List.foldl_append, first]
  exact rest

/-- A sequence with every bucket inside its bounds. -/
theorem spreadRuns_scan :
    scanOneRuns (sequenceOf spreadRuns) = { cur := 0, cnt := #v[2500, 1250, 625, 313, 156, 156] } := by
  have four : ∀ x, (bitsOf 0b00000_00000_1111_0_111_0_11_0_11_0_1_0_1_0_1_0_1#32).foldl scanOnes
      ⟨0, #v[4 * x, 2 * x, x, x, 0, 0]⟩ = ⟨0, #v[4 * (x + 1), 2 * (x + 1), x + 1, x + 1, 0, 0]⟩ := by
    intro x
    rw [show bitsOf 0b00000_00000_1111_0_111_0_11_0_11_0_1_0_1_0_1_0_1#32 = [true, false, true, false, true, false,
      true, false, true, true, false, true, true, false, true, true, true, false, true, true, true, true, false, false,
      false, false, false, false, false, false, false, false] by decide]
    simp [scanOnes, tallyRun, bucketOf]
    omega
  have five : ∀ x, (bitsOf 0b00000_0000_11111_0_111_0_11_0_11_0_1_0_1_0_1_0_1#32).foldl scanOnes
      ⟨0, #v[1252 + 4 * x, 626 + 2 * x, 313 + x, 313, x, 0]⟩ =
        ⟨0, #v[1252 + 4 * (x + 1), 626 + 2 * (x + 1), 313 + (x + 1), 313, x + 1, 0]⟩ := by
    intro x
    rw [show bitsOf 0b00000_0000_11111_0_111_0_11_0_11_0_1_0_1_0_1_0_1#32 = [true, false, true, false, true, false,
      true, false, true, true, false, true, true, false, true, true, true, false, true, true, true, true, true, false,
      false, false, false, false, false, false, false, false] by decide]
    simp [scanOnes, tallyRun, bucketOf]
    omega
  have six : ∀ x, (bitsOf 0b00000_000_111111_0_111_0_11_0_11_0_1_0_1_0_1_0_1#32).foldl scanOnes
      ⟨0, #v[1876 + 4 * x, 938 + 2 * x, 469 + x, 313, 156, x]⟩ =
        ⟨0, #v[1876 + 4 * (x + 1), 938 + 2 * (x + 1), 469 + (x + 1), 313, 156, x + 1]⟩ := by
    intro x
    rw [show bitsOf 0b00000_000_111111_0_111_0_11_0_11_0_1_0_1_0_1_0_1#32 = [true, false, true, false, true, false,
      true, false, true, true, false, true, true, false, true, true, true, false, true, true, true, true, true, true,
      false, false, false, false, false, false, false, false] by decide]
    simp [scanOnes, tallyRun, bucketOf]
    omega
  have h4 := fun ws => scanOnes_replicate (st := fun x => ⟨0, #v[4 * x, 2 * x, x, x, 0, 0]⟩) four 313 0 ws
  have h5 := fun ws => scanOnes_replicate (st := fun x => ⟨0, #v[1252 + 4 * x, 626 + 2 * x, 313 + x, 313, x, 0]⟩)
    five 156 0 ws
  have h6 := fun ws => scanOnes_replicate (st := fun x => ⟨0, #v[1876 + 4 * x, 938 + 2 * x, 469 + x, 313, 156, x]⟩)
    six 156 0 ws
  exact (h4 _).trans ((h5 _).trans (h6 []))

/-- A block halted by an out-of-range index (V15: FAULT = 2). -/
def halted : State := { State.reset with fault := 2#4, finfo := 20000#32 }

/-- The next state of a step that has one. -/
def next? : Result → Option State
  | .next t => some t
  | _ => none

theorem of_next? {r : Result} {t : State} (h : next? r = some t) : r = .next t := by
  cases r with
  | next u => rw [Option.some.inj h]
  | fault f => cases h
  | refused f => cases h

/-! ### The generator -/

/-- V1: the first two steps of the recurrence, and the byte each emits. -/
theorem test_nextbyte :
    nextSeed 871246#64 = 0xA586B087#64 ∧ emitByte 0xA586B087#64 = 0x86#8 ∧
    nextSeed 0xA586B087#64 = 0x6ADF0EA4#64 ∧ emitByte 0x6ADF0EA4#64 = 0xDF#8 := by decide

/-- R80, V1, V2: block 0, its bytes most significant first, and the seed that goes on to block 1. -/
theorem test_gen_first_block :
    (genBlock 0 { seed := 871246#64, blk := 0xFFFFFFFF#32, mem := [] }).blk = 0x86DF07CE#32 ∧
    (genBlock 0 { seed := 871246#64, blk := 0xFFFFFFFF#32, mem := [] }).seed = 0xE8CE920A#64 := by decide

/-! ### Read-out -/

/-- V3: the bits of block 0 by position, and R43: byte 0 is the top byte. -/
theorem test_bit_order :
    bitOf 0x86DF07CE#32 0 = false ∧ bitOf 0x86DF07CE#32 1 = true ∧ bitOf 0x86DF07CE#32 4 = false ∧
    bitOf 0x86DF07CE#32 31 = true ∧ byteOf 0x86DF07CE#32 0 = 0x86#8 ∧ byteOf 0x86DF07CE#32 3 = 0xCE#8 := by decide

/-- GETBIT of the last bit of `0101...`. -/
theorem test_getbit_last : exec (.getbit 19999) (holding alternating) =
    .next { holding alternating with rsp := some ⟨.ok, 1#32⟩ } := by
  have h : (holding alternating).mem.readBlock 624 = some 0xAAAAAAAA#32 := by
    have := cellsOf_readBlock alternating 0 624
    rwa [alternating, List.getElem?_replicate_of_lt (by norm_num)] at this
  rw [exec_getbit, checkReady_of_valid _ _ rfl rfl, checkIndex_of_lt _ (by norm_num), withBlock_of_some _ h]
  rfl

/-- V15: VALID is checked before the index. -/
theorem test_getbit_not_generated : exec (.getbit 20000) State.reset = .next
    { State.reset with fault := 4#4, finfo := 0x60004E20#32, rsp := some ⟨.notGenerated, 0x60004E20#32⟩ } :=
  of_next? (by decide)

/-- V2: the first block address out of range. -/
theorem test_rdblk_out_of_range : exec (.rdblk 625) (holding []) = .next
    { holding [] with fault := 2#4, finfo := 625#32, rsp := some ⟨.indexOutOfBounds, 625#32⟩ } :=
  of_next? (by decide)

/-- R91: the last block. -/
theorem test_rdblk_last : exec (.rdblk 624) (holding alternating) =
    .next { holding alternating with rsp := some ⟨.ok, 0xAAAAAAAA#32⟩ } := by
  have h : (holding alternating).mem.readBlock 624 = some 0xAAAAAAAA#32 := by
    have := cellsOf_readBlock alternating 0 624
    rwa [alternating, List.getElem?_replicate_of_lt (by norm_num)] at this
  rw [exec_rdblk, checkReady_of_valid _ _ rfl rfl, checkIndex_of_lt _ (by norm_num), withBlock_of_some _ h]
  rfl

/-- V14, V15: RDREG after reset, and in a halted block. -/
theorem test_rdreg :
    exec (.rdreg 0x31) State.reset = .next { State.reset with rsp := some ⟨.ok, 2267#32⟩ } ∧
    exec (.rdreg 0x46) State.reset = .next { State.reset with rsp := some ⟨.ok, 223#32⟩ } ∧
    exec (.rdreg 0x01) halted = .next { halted with rsp := some ⟨.ok, 2#32⟩ } ∧
    exec (.rdreg 0x20) halted = .next { halted with rsp := some ⟨.halted, 2#32⟩ } :=
  ⟨of_next? (by decide), of_next? (by decide), of_next? (by decide), of_next? (by decide)⟩

/-- V9: an unmapped number; R25: STATUS of a halted block. -/
theorem test_rdreg_unmapped :
    exec (.rdreg 0x27) State.reset = .next
      { State.reset with fault := 1#4, finfo := 0x80000027#32, rsp := some ⟨.illegalCommand, 0x80000027#32⟩ } ∧
    exec (.rdreg 0x00) halted = .next { halted with rsp := some ⟨.ok, 2#32⟩ } :=
  ⟨of_next? (by decide), of_next? (by decide)⟩

/-! ### The tests -/

/-- The 20-bit sequence of V10, and the 29-bit one of V11, as functions of the index. -/
def v10 (i : Nat) : Bool := [true, false, true, true, false, true, true, true, true, true, true, true, false, false, true,
  true, true, false, true, true].getD i false
def v11 (i : Nat) : Bool := (List.replicate 9 true ++ false :: List.replicate 6 true ++ false :: List.replicate 5 true ++
  false :: List.replicate 6 true).getD i false

/-- V4: population counts of the first two blocks, and the inclusive bounds. V10, V11: the counts of short sequences. -/
theorem test_mono :
    popcount 0x86DF07CE#32 = 18 ∧ popcount 0x08522C2B#32 = 11 ∧ monoPass 9653 = false ∧ monoPass 9654 = true ∧
    monoPass 10346 = true ∧ monoPass 10347 = false ∧ onesIn v10 20 = 15 ∧ monoPassIn v10 20 = false ∧
    onesIn v11 29 = 26 := by decide

/-- V10, V11: the scans of short sequences; R110: the inclusive limit. -/
theorem test_maxrun :
    runScanIn v10 20 = { run1 := 2, run0 := 0, maxlen := 7 } ∧ maxrunIn v11 29 = 9 ∧ maxrunPassIn v11 29 = true ∧
    maxrunPass 36 = true ∧ maxrunPass 37 = false := by decide

/-- V5: a run of 0s counts like a run of 1s, and a trailing run is folded in. -/
theorem test_maxrun_trailing :
    scanRuns (true :: List.replicate 36 false ++ List.replicate 27 true) = { run1 := 27, run0 := 0, maxlen := 36 } ∧
    scanRuns (List.replicate 40 false) = { run1 := 0, run0 := 40, maxlen := 40 } := by decide +kernel

/-- V6: the values of the first poker blocks, the lower index the more significant bit. V10: a 20-bit sequence, with
k = 5, passes. -/
theorem test_poker_groups :
    pokerGroups (bitsOf 0x86DF07CE#32) = [7#4, 3#4, 14#4, 0#4, 15#4, 11#4, 6#4, 1#4] ∧
    histIn v10 20 = #v[0, 0, 0, 1, 0, 0, 0, 1, 0, 0, 0, 2, 0, 0, 0, 1] ∧ sumsqIn v10 20 = 7 ∧ xi3nIn v10 20 = 87 ∧
    pokerPassIn v10 20 = true := by decide +kernel

/-- R123: the comparator at its bounds for k = 5000; R126: for k = 5 the bounds are 515 and 2870 over 100 and 10 times
the numerator. -/
theorem test_poker_bounds :
    pokerPass 5000 5149 = false ∧ pokerPass 5000 5150 = true ∧ pokerPass 5000 287000 = true ∧
    pokerPass 5000 287001 = false ∧ pokerPass 5 5 = false ∧ pokerPass 5 6 = true ∧ pokerPass 5 287 = true ∧
    pokerPass 5 288 = false := by decide

/-- V10: a 20-bit sequence; the run still open at the end is not counted, and with one more 0 it is. -/
theorem test_runs_trailing :
    oneRunsIn v10 20 = { cur := 2, cnt := #v[1, 1, 1, 0, 0, 1] } ∧
    oneRunsIn v10 21 = { cur := 0, cnt := #v[1, 2, 1, 0, 0, 1] } ∧ runsPassIn v10 20 = false := by decide +kernel

/-- V11: runs of 9, 6 and 5; a trailing 6. R132: a bucket at its bounds. -/
theorem test_runs_overflow :
    oneRunsIn v11 29 = { cur := 6, cnt := #v[0, 0, 0, 0, 1, 2] } ∧
    runsPass #v[2267, 1079, 502, 223, 90, 90] = true ∧ runsPass #v[2733, 1421, 748, 402, 223, 223] = true ∧
    runsPass #v[2267, 1079, 502, 402, 90, 224] = false := by decide +kernel

/-! ### The step -/

/-- V9, R61: a word placed by the host runs as the first command after reset. -/
theorem test_step_rdreg : step (State.reset.withFetchWord 32 0x80000051) =
    .next { State.reset with rsp := some ⟨.ok, 625#32⟩ } := of_next? (by decide)

/-- V15: decoding comes before VALID. -/
theorem test_step_illegal : step (State.reset.withFetchWord 32 0x20000001) = .next
    { State.reset with fault := 1#4, finfo := 0x20000001#32, rsp := some ⟨.illegalCommand, 0x20000001#32⟩ } :=
  of_next? (by decide)

/-- V15: a halted block refuses an illegal word and latches nothing. -/
theorem test_step_halted : step (halted.withFetchWord 32 0x00000000) =
    .next { halted with rsp := some ⟨.halted, 2#32⟩ } := of_next? (by decide)

/-- V15: reset leaves the halted state and gives no response. -/
theorem test_step_reset : step { halted with port := [.resetDuring 0x10000000#32] } = .next State.reset :=
  of_next? (by decide)

/-- R6: BIT_COUNT is a whole number of blocks and of poker blocks, and the derived constants agree. -/
theorem test_config :
    Config.bitCount = Config.blockBits * Config.nBlocks ∧ Config.bitCount = Config.pokerM * Config.pokerK ∧
    Config.blockBits = 8 * Config.bytesPerBlock ∧ Config.pokerLoNum * Config.pokerK = Config.pokerLoDen * 5150 ∧
    Config.pokerHiNum * Config.pokerK = Config.pokerHiDen * 287000 := by decide

/-! ### Witnesses: encoding and decoding -/

theorem witness_DecodeOfEncodeIsTheCommand :
    (Instr.getbit 0).wellFormed = true ∧ (Instr.rdreg 268435455).wellFormed = true ∧ Instr.gen.wellFormed = true := by
  decide

theorem witness_EncodeOfDecodeIsTheWord :
    decode 0x6FFFFFFF#32 = .command (.getbit 268435455) ∧ decode 0x50000000#32 = .command .runs := by decide

/-- A word for each clause, at both ends of its range. -/
theorem witness_DecodeFollowsTheOpcodeMap :
    (0x10000000#32).toNat / 2 ^ 28 = 0x1 ∧ (0x10000000#32).toNat % 2 ^ 28 = 0 ∧
    (0x20000000#32).toNat / 2 ^ 28 = 0x2 ∧ (0x20000000#32).toNat % 2 ^ 28 = 0 ∧
    (0x30000000#32).toNat / 2 ^ 28 = 0x3 ∧ (0x30000000#32).toNat % 2 ^ 28 = 0 ∧
    (0x40000000#32).toNat / 2 ^ 28 = 0x4 ∧ (0x40000000#32).toNat % 2 ^ 28 = 0 ∧
    (0x50000000#32).toNat / 2 ^ 28 = 0x5 ∧ (0x50000000#32).toNat % 2 ^ 28 = 0 ∧
    (0x10000001#32).toNat / 2 ^ 28 = 1 ∧ (0x10000001#32).toNat % 2 ^ 28 ≠ 0 ∧
    (0x5FFFFFFF#32).toNat / 2 ^ 28 = 5 ∧ (0x5FFFFFFF#32).toNat % 2 ^ 28 ≠ 0 ∧
    (0x60000000#32).toNat / 2 ^ 28 = 0x6 ∧ (0x6FFFFFFF#32).toNat / 2 ^ 28 = 0x6 ∧
    (0x70000000#32).toNat / 2 ^ 28 = 0x7 ∧ (0x7FFFFFFF#32).toNat / 2 ^ 28 = 0x7 ∧
    (0x80000000#32).toNat / 2 ^ 28 = 0x8 ∧ (0x8FFFFFFF#32).toNat / 2 ^ 28 = 0x8 ∧
    (0x0FFFFFFF#32).toNat / 2 ^ 28 = 0 ∧ (0x90000000#32).toNat / 2 ^ 28 = 9 ∧ (0xFFFFFFFF#32).toNat / 2 ^ 28 = 15 := by
  decide

/-! ### Witnesses: the step -/

theorem witness_StepRunsTheDecodedCommand :
    (State.reset.withFetchWord 32 0x10000000).port = .command 0x10000000#32 :: [] ∧
    decode 0x10000000#32 = .command .gen := by decide

theorem witness_IllegalWordRaisesIllegalCommand :
    (State.reset.withFetchWord 32 0x10000001).port = .command 0x10000001#32 :: [] ∧
    decode 0x10000001#32 = .illegal (.nonzeroArg 0x1#4 1#28) ∧
    (State.reset.withFetchWord 32 0x10000001).fault = 0#4 := by decide

theorem witness_IdleBlockRetainsAllState : halted.port = [] := by decide

/-- Both kinds of reset event. -/
theorem witness_ResetEventLoadsTheResetValues :
    ({ halted with port := [.reset, .command 0x10000000#32] } : State).port = .reset :: [.command 0x10000000#32] ∧
    ({ halted with port := [.resetDuring 0x20000000#32] } : State).port = .resetDuring 0x20000000#32 :: [] := by decide

/-- A command, an illegal word and a read of an unmapped register on a halted block. -/
theorem witness_HaltedBlockRefusesEveryOtherWord :
    halted.fault ≠ 0#4 ∧
    (∀ r, registerMapped r → decode 0x80000020#32 ≠ .command (.rdreg r)) ∧
    (∀ r, registerMapped r → decode 0x10000000#32 ≠ .command (.rdreg r)) ∧
    (∀ r, registerMapped r → decode 0x00000000#32 ≠ .command (.rdreg r)) := by
  refine ⟨by decide, ?_, ?_, ?_⟩
  · intro r hr h
    rw [show decode 0x80000020#32 = .command (.rdreg 0x20) by decide] at h
    cases h
    revert hr
    unfold registerMapped
    decide
  · intro r _ h
    rw [test_decode_gen] at h
    cases h
  · intro r _ h
    rw [test_decode_illegal.1] at h
    cases h

theorem witness_HaltedBlockAnswersAndKeepsItsState : halted.fault ≠ 0#4 := by decide

theorem witness_OnlyResetLeavesTheHaltedState :
    step { halted with port := [.reset] } = .next State.reset ∧ halted.fault ≠ 0#4 ∧ State.reset.fault = 0#4 :=
  ⟨of_next? (by decide), by decide, by decide⟩

/-- One witness for each direction: reset clears VALID, GEN sets it. -/
theorem witness_ValidIsSetByGenAndClearedByReset :
    step { holding [] with port := [.reset] } = .next State.reset ∧ (holding []).valid = true ∧
    State.reset.valid = false ∧
    step (State.reset.withPort [.command 0x10000000#32]) = .next State.reset.afterGen ∧
    State.reset.afterGen.valid = true := by
  refine ⟨of_next? (by decide), by decide, by decide, ?_, by simp⟩
  have h : step (State.reset.withPort [.command 0x10000000#32]) = exec .gen State.reset := rfl
  rw [h, exec_gen_of_good rfl]

theorem witness_FaultsArePrecise :
    exec .mono State.reset = .next
      { State.reset with fault := 4#4, finfo := 0x20000000#32, rsp := some ⟨.notGenerated, 0x20000000#32⟩ } ∧
    State.reset.fault = 0#4 ∧ (4#4 : BitVec 4) ≠ 0#4 :=
  ⟨of_next? (by decide), by decide, by decide⟩

/-- Every command answers a next state on a block that is not halted. -/
theorem witness_CommandsRaiseOnlyTheirFaults :
    State.reset.fault = 0#4 ∧ exec .gen State.reset = .next State.reset.afterGen ∧
    exec .maxrun State.reset = .next (State.reset.raiseFault .notGenerated 0x30000000#32) ∧
    exec .poker State.reset = .next (State.reset.raiseFault .notGenerated 0x40000000#32) ∧
    exec .runs State.reset = .next (State.reset.raiseFault .notGenerated 0x50000000#32) ∧
    exec (.rdreg 0x0B) State.reset = .next (State.reset.raiseFault .illegalCommand 0x8000000B#32) :=
  ⟨rfl, exec_gen_of_good rfl, of_next? (by decide), of_next? (by decide), of_next? (by decide),
    of_next? (by decide)⟩

theorem witness_ReadsBeforeGenRaiseNotGenerated :
    NeedsValid (.getbit 20000) ∧ NeedsValid .poker ∧ State.reset.fault = 0#4 ∧ State.reset.valid = false :=
  ⟨.getbit 20000, .poker, rfl, rfl⟩

theorem witness_PokerDivisibilityCheck : 20002 % 4 ≠ 0 ∧ 20000 % 4 = 0 := by decide

/-! ### Witnesses: the generator -/

theorem witness_SeedUpdateNeverOverflows :
    (0#64).toNat < 2 ^ 32 ∧ (871246#64).toNat < 2 ^ 32 ∧ (0xFFFFFFFF#64).toNat < 2 ^ 32 := by decide

theorem witness_GenCompletes : State.reset.fault = 0#4 := rfl

theorem witness_GenFillsTheMemoryInClosedForm : State.reset.fault = 0#4 := rfl

theorem witness_EveryGenLeavesTheSameBlocks :
    State.reset.fault = 0#4 ∧ (holding allZeros).fault = 0#4 ∧ exec .gen State.reset = .next State.reset.afterGen ∧
    exec .gen (holding allZeros) = .next (holding allZeros).afterGen :=
  ⟨rfl, rfl, exec_gen_of_good rfl, exec_gen_of_good rfl⟩

theorem witness_SecondGenChangesNothing :
    State.reset.mem.wf = true ∧ State.reset.fault = 0#4 ∧ exec .gen State.reset = .next State.reset.afterGen :=
  ⟨rfl, rfl, exec_gen_of_good rfl⟩

/-! ### Witnesses: the bit memory and read-out -/

/-- The first and the last index of each range. -/
theorem witness_BitAddressing :
    (holding alternating).mem.readBlocks 0 625 = some alternating ∧ 0 < 20000 ∧ 19999 < 20000 ∧ 0 < 625 ∧ 624 < 625 :=
  ⟨holding_readBlocks alternating_length, by decide, by decide, by decide, by decide⟩

theorem witness_OnlyGenWritesTheBitMemory :
    (Instr.rdreg 0x50) ≠ .gen ∧
    exec (.rdreg 0x50) State.reset = .next { State.reset with rsp := some ⟨.ok, 20000#32⟩ } :=
  ⟨by decide, of_next? (by decide)⟩

/-- One state for each clause, with the indices where the clauses meet. -/
theorem witness_GetbitAnswersTheBit :
    19999 < 2 ^ 28 ∧ 20000 < 2 ^ 28 ∧ 268435455 < 2 ^ 28 ∧ halted.fault ≠ 0#4 ∧
    State.reset.fault = 0#4 ∧ State.reset.valid = false ∧
    (holding alternating).fault = 0#4 ∧ (holding alternating).valid = true ∧ 20000 ≤ 20000 ∧ 19999 < 20000 ∧
    (holding alternating).mem.readBlock (0 / 32) = some 0xAAAAAAAA#32 ∧
    (holding alternating).mem.readBlock (19999 / 32) = some 0xAAAAAAAA#32 ∧
    exec .gen State.reset = .next State.reset.afterGen := by
  have h : ∀ k, k < 625 → (holding alternating).mem.readBlock k = some 0xAAAAAAAA#32 := by
    intro k hk
    have := cellsOf_readBlock alternating 0 k
    rwa [Nat.zero_add, alternating, List.getElem?_replicate_of_lt hk] at this
  exact ⟨by decide, by decide, by decide, by decide, rfl, rfl, rfl, rfl, by decide, by decide, h 0 (by decide),
    h 624 (by decide), exec_gen_of_good rfl⟩

theorem witness_RdblkAnswersTheBlock :
    624 < 2 ^ 28 ∧ 625 < 2 ^ 28 ∧ 268435455 < 2 ^ 28 ∧ halted.fault ≠ 0#4 ∧
    State.reset.fault = 0#4 ∧ State.reset.valid = false ∧
    (holding alternating).fault = 0#4 ∧ (holding alternating).valid = true ∧ 625 ≤ 625 ∧ 624 < 625 ∧
    (holding alternating).mem.readBlock 624 = some 0xAAAAAAAA#32 ∧
    exec .gen State.reset = .next State.reset.afterGen := by
  have h := cellsOf_readBlock alternating 0 624
  rw [Nat.zero_add, alternating, List.getElem?_replicate_of_lt (by decide)] at h
  exact ⟨by decide, by decide, by decide, by decide, rfl, rfl, rfl, rfl, by decide, by decide, h, exec_gen_of_good rfl⟩

theorem witness_BlockAndBitReadsAgree : (holding alternating).ready ∧ 624 < 625 ∧ 31 < 32 :=
  ⟨holding_ready alternating_length, by decide, by decide⟩

/-- Unmapped numbers at the edges of the map of 10_state.md R24. -/
theorem witness_RdregOfAnUnmappedNumber :
    (∀ r ∈ [0x0B, 0x0F, 0x20, 0x27, 0x30, 0x37, 0x40, 0x47, 0x4F, 0x52, 268435455], r < 2 ^ 28 ∧ ¬ registerMapped r) ∧
    State.reset.fault = 0#4 ∧ halted.fault ≠ 0#4 := by
  refine ⟨?_, by decide, by decide⟩
  unfold registerMapped
  decide

/-! ### Witnesses: the tests, on the sequences of V4, V5 and V10, one for each verdict -/

theorem witness_MonoCountsTheOneBits :
    (holding alternating).ready ∧ onesUpTo (holding alternating).bitRead 20000 = 10000 ∧
    (holding allZeros).ready ∧ onesUpTo (holding allZeros).bitRead 20000 = 0 := by
  have ones : ∀ vs : List Block, vs.length = 625 → onesUpTo (holding vs).bitRead 20000 =
      countOnes (sequenceOf vs) := by
    intro vs h
    rw [sequenceOf_eq_prefixOf (holding_readBlocks h), countOnes_prefixOf]
  refine ⟨holding_ready alternating_length, ?_, holding_ready allZeros_length, ?_⟩
  · rw [ones _ alternating_length, alternating, countOnes_replicate]
    decide
  · rw [ones _ allZeros_length, allZeros, countOnes_replicate]
    decide

/-- All zeros make one run of 20000; `0101...` runs of 1. -/
theorem witness_MaxrunFindsTheLongestRun :
    (holding allZeros).ready ∧ (holding alternating).ready ∧ maxrunPass 20000 = false ∧ maxrunPass 1 = true ∧
    exec .maxrun (holding alternating) = .next ((holding alternating).afterMaxrun alternating) :=
  ⟨holding_ready allZeros_length, holding_ready alternating_length, by decide, by decide,
    exec_test_of_blocks .maxrun rfl rfl (holding_readBlocks alternating_length)⟩

theorem witness_MaxrunKeepsTheTrailingRun :
    (holding alternating).ready ∧
    exec .maxrun (holding alternating) = .next ((holding alternating).afterMaxrun alternating) :=
  ⟨holding_ready alternating_length, exec_test_of_blocks .maxrun rfl rfl (holding_readBlocks alternating_length)⟩

/-- V12: every group of `0101...` is 5, so SUMSQ = 25000000; a nearly uniform sequence has SUMSQ = 1565000. -/
theorem witness_PokerComputesTheChiSquare :
    (holding alternating).ready ∧ sumSquares (pokerHist (sequenceOf alternating)) = 25000000 ∧
    (holding nearlyUniform).ready ∧ sumSquares (pokerHist (sequenceOf nearlyUniform)) = 1565000 := by
  refine ⟨holding_ready alternating_length, ?_, holding_ready nearlyUniform_length, ?_⟩
  · rw [sumSquares_eq]
    simp only [pokerHist_get_blocks, alternating, List.map_replicate, List.sum_replicate, smul_eq_mul]
    decide +kernel
  · rw [sumSquares_eq]
    simp only [pokerHist_get_blocks, nearlyUniform, List.map_append, List.sum_append, List.map_replicate,
      List.sum_replicate, smul_eq_mul]
    decide +kernel

theorem witness_PokerBucketsSumTo5000 :
    (holding alternating).ready ∧
    exec .poker (holding alternating) = .next ((holding alternating).afterPoker alternating) :=
  ⟨holding_ready alternating_length, exec_test_of_blocks .poker rfl rfl (holding_readBlocks alternating_length)⟩

/-- V12: the first histogram, and the most uniform one. -/
theorem witness_PokerVerdictIsTheRealInequality :
    (#v[320, 310, 300, 330, 305, 315, 325, 295, 312, 313, 312, 313, 312, 313, 312, 313] : Vector Nat 16).sum = 5000 ∧
    sumSquares #v[320, 310, 300, 330, 305, 315, 325, 295, 312, 313, 312, 313, 312, 313, 312, 313] = 1563552 ∧
    (#v[312, 312, 312, 312, 312, 312, 312, 312, 313, 313, 313, 313, 313, 313, 313, 313] : Vector Nat 16).sum = 5000 ∧
    sumSquares #v[312, 312, 312, 312, 312, 312, 312, 312, 313, 313, 313, 313, 313, 313, 313, 313] = 1562504 := by
  decide +kernel

/-- V10: `0101...` fails; a sequence with every bucket inside its bounds passes. -/
theorem witness_RunsCountsTheTerminatedRuns :
    (holding alternating).ready ∧ runsPass (scanOneRuns (sequenceOf alternating)).cnt = false ∧
    (holding spreadRuns).ready ∧ runsPass (scanOneRuns (sequenceOf spreadRuns)).cnt = true := by
  rw [test_runs_alternating, spreadRuns_scan]
  exact ⟨holding_ready alternating_length, by decide, holding_ready spreadRuns_length, by decide⟩

theorem witness_RunsLeavesTheTrailingRunInCur :
    (holding alternating).ready ∧ exec .runs (holding alternating) = .next ((holding alternating).afterRuns alternating) :=
  ⟨holding_ready alternating_length, exec_test_of_blocks .runs rfl rfl (holding_readBlocks alternating_length)⟩

theorem witness_RunsBucketsAreBounded :
    (holding spreadRuns).ready ∧ exec .runs (holding spreadRuns) = .next ((holding spreadRuns).afterRuns spreadRuns) :=
  ⟨holding_ready spreadRuns_length, exec_test_of_blocks .runs rfl rfl (holding_readBlocks spreadRuns_length)⟩

/-- A test that completes, and one that faults. -/
theorem witness_TestsTouchOnlyTheirOwnFlags :
    IsTest .mono .mono ∧ exec .mono (holding allZeros) = .next ((holding allZeros).afterMono allZeros) ∧
    ((holding allZeros).afterMono allZeros).fault = 0#4 ∧
    exec .mono State.reset = .next (State.reset.raiseFault .notGenerated 0x20000000#32) :=
  ⟨.mono, exec_test_of_blocks .mono rfl rfl (holding_readBlocks allZeros_length), by
    rw [State.afterMono_fault]
    rfl, of_next? (by decide)⟩

theorem witness_StatisticalFailureIsNoFault : IsTest .runs .runs ∧ (holding allZeros).ready :=
  ⟨.runs, holding_ready allZeros_length⟩

theorem witness_RepeatedTestChangesNothing :
    IsTest .poker .poker ∧ (holding allZeros).ready ∧
    exec .poker (holding allZeros) = .next ((holding allZeros).afterPoker allZeros) :=
  ⟨.poker, holding_ready allZeros_length, exec_test_of_blocks .poker rfl rfl (holding_readBlocks allZeros_length)⟩

/-- One test, and the same test in another position after another one. -/
theorem holding_testsRun (us : List TestUnit) :
    ∃ t, TestsRun (holding allZeros) us t ∧ t.fault = 0#4 ∧ t.valid = true ∧ t.mem = (holding allZeros).mem := by
  induction us with
  | nil => exact ⟨_, .nil, rfl, rfl, rfl⟩
  | cons u us ih =>
    obtain ⟨t, ht, hf, hv, hm⟩ := ih
    obtain ⟨i, hi⟩ : ∃ i, IsTest i u := by
      cases u
      · exact ⟨_, .mono⟩
      · exact ⟨_, .maxrun⟩
      · exact ⟨_, .poker⟩
      · exact ⟨_, .runs⟩
    have hb : t.mem.readBlocks 0 625 = some allZeros := by
      rw [hm]
      exact holding_readBlocks allZeros_length
    exact ⟨t.afterTest u allZeros, .cons ht hi (exec_test_of_blocks hi hf hv hb), by rw [State.afterTest_fault, hf], by
      rw [State.afterTest_valid, hv], by rw [State.afterTest_mem, hm]⟩

/-- Two orders of the same two tests, one with a repetition. -/
theorem witness_TestOrderAndRepetitionDoNotMatter :
    (holding allZeros).ready ∧ (∃ t, TestsRun (holding allZeros) [.mono, .runs] t) ∧
    (∃ t, TestsRun (holding allZeros) [.runs, .mono, .runs] t) ∧
    (∀ u : TestUnit, u ∈ [TestUnit.mono, .runs] ↔ u ∈ [TestUnit.runs, .mono, .runs]) := by
  obtain ⟨a, ha, -⟩ := holding_testsRun [.mono, .runs]
  obtain ⟨b, hb, -⟩ := holding_testsRun [.runs, .mono, .runs]
  exact ⟨holding_ready allZeros_length, ⟨a, ha⟩, ⟨b, hb⟩, by intro u; cases u <;> decide⟩

theorem witness_StatisticsAreConsistent :
    (holding allZeros).ready ∧ (∃ t, TestsRun (holding allZeros) [.runs, .poker, .maxrun, .mono] t) ∧
    (∀ u : TestUnit, u ∈ [TestUnit.runs, .poker, .maxrun, .mono]) := by
  obtain ⟨a, ha, -⟩ := holding_testsRun [.runs, .poker, .maxrun, .mono]
  exact ⟨holding_ready allZeros_length, ⟨a, ha⟩, by intro u; cases u <;> decide⟩

theorem witness_MonoOnTheGeneratedSequence :
    State.reset.fault = 0#4 ∧ exec .gen State.reset = .next State.reset.afterGen := ⟨rfl, exec_gen_of_good rfl⟩

theorem witness_MaxrunOnTheGeneratedSequence :
    State.reset.fault = 0#4 ∧ exec .gen State.reset = .next State.reset.afterGen := ⟨rfl, exec_gen_of_good rfl⟩

theorem witness_PokerOnTheGeneratedSequence :
    State.reset.fault = 0#4 ∧ exec .gen State.reset = .next State.reset.afterGen := ⟨rfl, exec_gen_of_good rfl⟩

theorem witness_RunsOnTheGeneratedSequence :
    State.reset.fault = 0#4 ∧ exec .gen State.reset = .next State.reset.afterGen := ⟨rfl, exec_gen_of_good rfl⟩

/-! ### Witnesses: the whole machine -/

/-- A state of the invariant that is not the reset state: SEED holds a value, and a command waits. -/
def waiting : State := { State.reset with seed := 871246#64, port := [.command 0x20000000#32] }

theorem waiting_inv : waiting.Inv := by
  constructor
  case complete => intro h; cases h
  case hist_sum => exact .inl (by decide +kernel)
  case sumsq_eq => decide +kernel
  case xi3n_eq => decide +kernel
  case cnt_le => decide +kernel
  all_goals decide

/-- A state of the reference invariant in which a test is done: the generated sequence, after MONO. -/
theorem generated_refInv : (State.reset.afterGen.afterMono refBlocks).RefInv := by
  have no : ∀ k, 1 ≤ k → (State.reset.afterGen.afterMono refBlocks).done.getLsbD k = true → False := by
    intro k hk h
    rw [State.afterMono_done, State.afterGen_done] at h
    have e : (State.reset.done ||| TestUnit.mask .mono) = 1#4 := by decide
    rw [e, BitVec.getLsbD_one] at h
    simp at h
    omega
  constructor
  · intro _ j hj
    rw [State.afterMono_mem, State.afterGen_mem, (construct_spec _ _).2.2.1 j hj]
  · intro _
    rw [State.afterMono_valid, State.afterGen_valid]
  · intro _
    refine ⟨State.afterMono_ones _ _, ?_⟩
    rw [State.afterMono_verdict, State.afterGen_verdict]
    cases monoPass (countOnes (sequenceOf refBlocks)) <;> decide
  · exact fun h => (no 1 (by decide) h).elim
  · exact fun h => (no 2 (by decide) h).elim
  · exact fun h => (no 3 (by decide) h).elim

theorem witness_StepKeepsTheInvariant :
    waiting.Inv ∧ step waiting = .next ((waiting.withPort []).raiseFault .notGenerated 0x20000000#32) :=
  ⟨waiting_inv, of_next? (by decide)⟩

theorem witness_EveryStepAnswers : waiting.Inv ∧ waiting.port = .command 0x20000000#32 :: [] := ⟨waiting_inv, rfl⟩

theorem witness_StepKeepsTheReferenceInvariant :
    (State.reset.afterGen.afterMono refBlocks).RefInv ∧
    step (State.reset.afterGen.afterMono refBlocks) = .next (State.reset.afterGen.afterMono refBlocks).idle := by
  refine ⟨generated_refInv, ?_⟩
  have h : (State.reset.afterGen.afterMono refBlocks).port = [] := by
    rw [State.afterMono_port, State.afterGen_port]
    rfl
  unfold step
  rw [h]

theorem witness_NoDoneTestHasFailed :
    (State.reset.afterGen.afterMono refBlocks).RefInv ∧ 0 < 4 ∧
    (State.reset.afterGen.afterMono refBlocks).done.getLsbD 0 = true := by
  refine ⟨generated_refInv, by decide, ?_⟩
  rw [State.afterMono_done, State.afterGen_done]
  decide

/-- Two states that differ in SEED, BLK and the memory behind VALID = 0, with a command on the port. -/
theorem witness_UnspecifiedStateIsUnobservable :
    (State.reset.withPort [.command 0x10000000#32]).SameToHost
      { State.reset.withPort [.command 0x10000000#32] with seed := 5#64, blk := 7#32, mem := [(0, 1#8)] } ∧
    step (State.reset.withPort [.command 0x10000000#32]) = .next State.reset.afterGen :=
  ⟨⟨fun h => (by cases h), rfl⟩, witness_ValidIsSetByGenAndClearedByReset.2.2.2.1⟩

/-! ### Witnesses: the pure functions -/

/-- V10 (N = 20), the smallest N, and V13's lengths that are no multiple of 4. -/
theorem witness_PokerIsAPureFunction :
    20 % 4 = 0 ∧ 0 < 20 / 4 ∧ pokerPassIn v10 20 = true ∧ 4 % 4 = 0 ∧ 0 < 4 / 4 ∧ pokerPassIn v10 4 = true ∧
    21 % 4 ≠ 0 ∧ 3 % 4 ≠ 0 := by decide +kernel

/-- V10: the run of seven 1s from index 5 on, and the open run at the end. -/
theorem witness_MonoMaxrunRunsArePureFunctions : 0 < 20 ∧ IsRun v10 20 5 7 ∧ IsRun v10 20 18 2 := by
  unfold IsRun
  decide +kernel

theorem witness_TestsInstantiateThePureFunctions : (holding alternating).ready ∧ (holding spreadRuns).ready :=
  ⟨holding_ready alternating_length, holding_ready spreadRuns_length⟩

end Sys2Proof.Machine
end

section
/-! SUPPORT. The tests as pure functions of a sequence (00_scope.md R8): what each scan and each verdict says of a
sequence of any length, and that a test on a constructed block is its pure function of the block's bits. -/

namespace Sys2Proof.Machine

/-! ### The verdicts -/

theorem monoPass_iff (n : Nat) : monoPass n = true ↔ 9654 ≤ n ∧ n ≤ 10346 := by
  simp [monoPass]

theorem maxrunPass_iff (n : Nat) : maxrunPass n = true ↔ n ≤ 36 := by
  simp [maxrunPass]

/-- The lower bounds of the six buckets as numbers (10_state.md R23). -/
theorem runLo_get_toNat (b : Fin 6) :
    (Config.runLo.get b).toNat = (#v[2267, 1079, 502, 223, 90, 90] : Vector Nat 6).get b := by
  revert b
  decide

/-- The upper bounds of the six buckets as numbers (10_state.md R23). -/
theorem runHi_get_toNat (b : Fin 6) :
    (Config.runHi.get b).toNat = (#v[2733, 1421, 748, 402, 223, 223] : Vector Nat 6).get b := by
  revert b
  decide

theorem runsPass_iff (cnt : Vector Nat 6) :
    runsPass cnt = true ↔
      ∀ b : Fin 6, (#v[2267, 1079, 502, 223, 90, 90] : Vector Nat 6).get b ≤ cnt.get b ∧
        cnt.get b ≤ (#v[2733, 1421, 748, 402, 223, 223] : Vector Nat 6).get b := by
  simp [runsPass, bucketPass, runLo_get_toNat, runHi_get_toNat]

/-! ### The scans of a sequence of any length -/

/-- `ones(s, N)` is the number of 1 bits (42_monobit.md R101). -/
theorem onesIn_eq_onesUpTo (s : Nat → Bool) (n : Nat) : onesIn s n = onesUpTo s n := countOnes_prefixOf s n

@[simp] theorem maxrunIn_zero (s : Nat → Bool) : maxrunIn s 0 = 0 := rfl

/-- The longest run of a sequence that is not empty is one of its runs (43_longest_run.md R111). -/
theorem maxrunIn_attained {s : Nat → Bool} {n : Nat} (hn : 0 < n) : ∃ a, IsRun s n a (maxrunIn s n) :=
  (scanRuns_law hn).1

theorem IsRun.length_pos {bit : Nat → Bool} {n a len : Nat} (h : IsRun bit n a len) : 0 < n := by
  obtain ⟨hpos, hle, -⟩ := h
  omega

/-- No run is longer than the longest one; the empty sequence has no run. -/
theorem IsRun.le_maxrunIn {s : Nat → Bool} {n a len : Nat} (h : IsRun s n a len) : len ≤ maxrunIn s n :=
  (scanRuns_law h.length_pos).2.1 a len h

theorem oneRunsIn_eq_oneScanAt (s : Nat → Bool) (n : Nat) : oneRunsIn s n = oneScanAt s n := rfl

/-- Bucket b of `cnt(s, N)` counts the terminated runs of its length (45_run_length.md R135). -/
theorem oneRunsIn_cnt (s : Nat → Bool) (n : Nat) (b : Fin 6) :
    (oneRunsIn s n).cnt.get b = terminatedRuns s n (b.val + 1) := by
  rw [oneRunsIn_eq_oneScanAt, oneScanAt_cnt]

theorem monoPassIn_iff (s : Nat → Bool) (n : Nat) :
    monoPassIn s n = true ↔ 9654 ≤ onesIn s n ∧ onesIn s n ≤ 10346 := monoPass_iff _

theorem maxrunPassIn_iff (s : Nat → Bool) (n : Nat) : maxrunPassIn s n = true ↔ maxrunIn s n ≤ 36 :=
  maxrunPass_iff _

theorem runsPassIn_iff (s : Nat → Bool) (n : Nat) :
    runsPassIn s n = true ↔
      ∀ b : Fin 6, (#v[2267, 1079, 502, 223, 90, 90] : Vector Nat 6).get b ≤ terminatedRuns s n (b.val + 1) ∧
        terminatedRuns s n (b.val + 1) ≤ (#v[2733, 1421, 748, 402, 223, 223] : Vector Nat 6).get b := by
  simp only [runsPassIn, runsPass_iff, oneRunsIn_cnt]

/-- Settles O58, from the laws of the scans over a sequence of any length. -/
theorem monoMaxrunRunsArePureFunctions : Obligations.MonoMaxrunRunsArePureFunctions := by
  unfold Obligations.MonoMaxrunRunsArePureFunctions
  intro s n
  refine ⟨onesIn_eq_onesUpTo s n, monoPassIn_iff s n, ?empty, maxrunIn_attained, fun a len => IsRun.le_maxrunIn,
    maxrunPassIn_iff s n, oneRunsIn_cnt s n, oneScanAt_cur s n, runsPassIn_iff s n⟩
  case empty =>
    rintro rfl
    exact maxrunIn_zero s

/-! ### The tests on a constructed block

The sequence's length is a variable in these lemmas, so that no definitional check can run a scan of 20000 bits. -/

section
variable {bit : Nat → Bool} {n : Nat} {vs : List Block} (s : State)

/-- MONO's effect is its pure function of the sequence (42_monobit.md R100, R101). -/
theorem State.afterMono_of_sequence (h : sequenceOf vs = prefixOf bit n) :
    s.afterMono vs = { s with
      ones := BitVec.ofNat 15 (onesIn bit n), done := s.done ||| 1#4,
      verdict := if monoPassIn bit n = true then s.verdict ||| 1#4 else s.verdict &&& 14#4,
      rsp := some ⟨.ok, if monoPassIn bit n = true then 1#32 else 0#32⟩ } := by
  unfold State.afterMono
  rw [h]
  rfl

/-- MAXRUN's effect is its pure function of the sequence (43_longest_run.md R110, R111). -/
theorem State.afterMaxrun_of_sequence (h : sequenceOf vs = prefixOf bit n) :
    s.afterMaxrun vs = { s with
      run1 := BitVec.ofNat 15 (runScanIn bit n).run1, run0 := BitVec.ofNat 15 (runScanIn bit n).run0,
      maxlen := BitVec.ofNat 15 (maxrunIn bit n), done := s.done ||| 2#4,
      verdict := if maxrunPassIn bit n = true then s.verdict ||| 2#4 else s.verdict &&& 13#4,
      rsp := some ⟨.ok, if maxrunPassIn bit n = true then 1#32 else 0#32⟩ } := by
  unfold State.afterMaxrun
  rw [h]
  rfl

/-- POKER's effect is its pure function of a sequence of 5000 poker blocks (44_poker.md R120, R126). -/
theorem State.afterPoker_of_sequence (h : sequenceOf vs = prefixOf bit n) (hk : n / Config.pokerM = 5000) :
    s.afterPoker vs = { s with
      nib := 0#4, hist := (histIn bit n).map (BitVec.ofNat 13), sumsq := BitVec.ofNat 25 (sumsqIn bit n),
      xi3n := BitVec.ofNat 29 (xi3nIn bit n), done := s.done ||| 4#4,
      verdict := if pokerPassIn bit n = true then s.verdict ||| 4#4 else s.verdict &&& 11#4,
      rsp := some ⟨.ok, if pokerPassIn bit n = true then 1#32 else 0#32⟩ } := by
  unfold State.afterPoker
  rw [h, ← hk]
  rfl

/-- RUNS's effect is its pure function of the sequence (45_run_length.md R130, R135). -/
theorem State.afterRuns_of_sequence (h : sequenceOf vs = prefixOf bit n) :
    s.afterRuns vs = { s with
      cur := BitVec.ofNat 15 (oneRunsIn bit n).cur, cnt := (oneRunsIn bit n).cnt.map (BitVec.ofNat 14),
      done := s.done ||| 8#4,
      verdict := if runsPassIn bit n = true then s.verdict ||| 8#4 else s.verdict &&& 7#4,
      rsp := some ⟨.ok, if runsPassIn bit n = true then 1#32 else 0#32⟩ } := by
  unfold State.afterRuns
  rw [h]
  rfl

end

/-- On a constructed block every test completes with its unit's effect on the block's 20000 bits (00_scope.md R8). -/
theorem State.ready.exec_test {s : State} (hs : s.ready) :
    ∃ vs, sequenceOf vs = prefixOf s.bitRead 20000 ∧
      ∀ {i : Instr} {u : TestUnit}, IsTest i u → exec i s = .next (s.afterTest u vs) := by
  obtain ⟨vs, hb⟩ := hs.blocks
  obtain ⟨hgood, hvalid, -⟩ := hs
  exact ⟨vs, sequenceOf_eq_prefixOf hb, fun hi => exec_test_of_blocks hi hgood hvalid hb⟩

/-- Settles O59: each test's effect at the sequence of the block's bits, whose length 20000 has 5000 poker blocks. -/
theorem testsInstantiateThePureFunctions : Obligations.TestsInstantiateThePureFunctions := by
  unfold Obligations.TestsInstantiateThePureFunctions
  intro s hs bit
  obtain ⟨vs, hseq, hexec⟩ := hs.exec_test
  refine ⟨?mono, ?maxrun, ?poker, ?runs⟩
  case mono => rw [hexec .mono, State.afterTest_mono, State.afterMono_of_sequence s hseq]
  case maxrun => rw [hexec .maxrun, State.afterTest_maxrun, State.afterMaxrun_of_sequence s hseq]
  case poker => rw [hexec .poker, State.afterTest_poker, State.afterPoker_of_sequence s hseq (by decide)]
  case runs => rw [hexec .runs, State.afterTest_runs, State.afterRuns_of_sequence s hseq]

end Sys2Proof.Machine
end

section
/-! SUPPORT. The rules the statements about the whole machine rest on: the DONE and VERDICT bits of a test
(10_state.md R17), and a predicate kept by every operation is kept by every step. -/

namespace Sys2Proof.Machine

/-! ### Bits under a mask -/

section
variable {w : Nat} (d v m : BitVec w)

theorem or_and_not_mask : (d ||| m) &&& ~~~m = d &&& ~~~m := by
  ext i hi
  cases h : m[i] <;> simp [h]

theorem or_and_mask : (d ||| m) &&& m = m := by
  ext i hi
  cases h : m[i] <;> simp [h]

theorem setBits_and_not_mask (p : Bool) : (if p then v ||| m else v &&& ~~~m) &&& ~~~m = v &&& ~~~m := by
  cases p
  · simp [BitVec.and_assoc]
  · exact or_and_not_mask v m

theorem setBits_getLsbD (p : Bool) {i : Nat} (hi : i < w) :
    (if p then v ||| m else v &&& ~~~m).getLsbD i = if m.getLsbD i then p else v.getLsbD i := by
  cases p <;> cases hm : m[i] <;> simp [hi, hm]

/-- A verdict bit is written together with its done bit, so no verdict bit is set without its done bit. -/
theorem setBits_and_not_or (p : Bool) (h : v &&& ~~~d = 0#w) :
    (if p then v ||| m else v &&& ~~~m) &&& ~~~(d ||| m) = 0#w := by
  have hset : (if p then v ||| m else v &&& ~~~m) &&& ~~~(d ||| m) = (v &&& ~~~d) &&& ~~~m := by
    ext i hi
    cases p <;> cases hm : m[i] <;> simp [hm]
  rw [hset, h, BitVec.zero_and]

end

/-! ### The bit a test owns, and the blocks GEN writes -/

/-- The number of the bit that a test owns in DONE and in VERDICT (10_state.md R17). -/
def TestUnit.index : TestUnit → Nat
  | .mono => 0
  | .maxrun => 1
  | .poker => 2
  | .runs => 3

theorem TestUnit.index_lt (u : TestUnit) : u.index < 4 := by
  cases u <;> decide

theorem TestUnit.mask_getLsbD (u u' : TestUnit) : u.mask.getLsbD u'.index = decide (u = u') := by
  cases u <;> cases u' <;> rfl

theorem State.afterTest_done_getLsbD (s : State) (u u' : TestUnit) (vs : List Block) :
    (s.afterTest u vs).done.getLsbD u'.index = (s.done.getLsbD u'.index || decide (u = u')) := by
  rw [State.afterTest_done, BitVec.getLsbD_or, TestUnit.mask_getLsbD]

theorem State.afterTest_verdict_getLsbD (s : State) (u u' : TestUnit) (vs : List Block) :
    (s.afterTest u vs).verdict.getLsbD u'.index = if u = u' then u.pass vs else s.verdict.getLsbD u'.index := by
  rw [State.afterTest_verdict, setBits_getLsbD _ _ _ (u'.index_lt), TestUnit.mask_getLsbD]
  simp only [decide_eq_true_eq]

/-- Whatever was in the generator's registers, GEN writes the blocks of the closed form (40_generator.md R83, R85). -/
theorem construct_readBlock (blk : BitVec 32) (m : Memory) {j : Nat} (hj : j < 625) :
    (construct blk m).mem.readBlock j = some (refBlock j) := by
  obtain ⟨-, -, hblocks, -⟩ := construct_spec blk m
  exact hblocks j hj

/-! ### What every step keeps -/

/-- A predicate of the state that holds at reset, does not depend on the port or the response, and is kept by a fault,
by a construction and by a completed test. -/
structure KeptByOperations (P : State → Prop) : Prop where
  reset : P State.reset
  withPort : ∀ {s : State} (rest : List PortEvent), P s → P (s.withPort rest)
  answer : ∀ {s : State} (r : Option Response), P s → P { s with rsp := r }
  raiseFault : ∀ {s : State} (c : Cause) (info : Word), P s → P (s.raiseFault c info)
  afterGen : ∀ {s : State}, P s → P s.afterGen
  afterTest : ∀ {s : State} (u : TestUnit) {vs : List Block}, s.valid = true → s.mem.readBlocks 0 625 = some vs →
    P s → P (s.afterTest u vs)

theorem KeptByOperations.exec {P : State → Prop} (hP : KeptByOperations P) {i : Instr} {s t : State} (hs : P s)
    (h : exec i s = .next t) : P t := by
  cases exec_next h with
  | answer e => exact e ▸ hP.answer t.rsp hs
  | faulted _ c info _ e => exact e ▸ hP.raiseFault c info hs
  | constructed _ _ e => exact e ▸ hP.afterGen hs
  | tested _ hv u vs _ hb e => exact e ▸ hP.afterTest u hv hb hs

theorem KeptByOperations.runWord {P : State → Prop} (hP : KeptByOperations P) {w : Word} {s t : State} (hs : P s)
    (h : runWord w s = .next t) : P t := by
  rcases runWord_next h with ⟨i, -, hx⟩ | ⟨-, -, ⟨-, e⟩ | ⟨-, e⟩⟩
  · exact hP.exec hs hx
  · exact e ▸ hP.answer _ hs
  · exact e ▸ hP.raiseFault _ _ hs

theorem KeptByOperations.step {P : State → Prop} (hP : KeptByOperations P) {s t : State} (hs : P s)
    (h : step s = .next t) : P t := by
  cases step_next h with
  | idle _ e => exact e ▸ hP.answer none hs
  | reset rest _ e => exact e ▸ hP.withPort rest hP.reset
  | word w rest _ hw => exact hP.runWord (hP.withPort rest hs) hw

end Sys2Proof.Machine
end

section
/-! SUPPORT. The invariant of 10_state.md R10: each register update that a command makes keeps it, so every step does. -/

namespace Sys2Proof.Machine

/-! ### Vectors of counters -/

theorem vectorSum_eq_sum_get {k : Nat} (v : Vector Nat k) : v.sum = ∑ b : Fin k, v.get b := by
  rw [← Vector.sum_toList, ← List.sum_ofFn]
  congr 1
  apply List.ext_getElem (by simp)
  intro i h1 h2
  simp [Vector.get]

theorem vectorGet_le_sum {k : Nat} (v : Vector Nat k) (b : Fin k) : v.get b ≤ v.sum := by
  rw [vectorSum_eq_sum_get]
  exact Finset.single_le_sum (f := v.get) (fun _ _ => Nat.zero_le _) (Finset.mem_univ b)

/-- Counters that fit their registers are read back unchanged (10_state.md R31). -/
theorem map_toNat_map_ofNat {k w : Nat} {v : Vector Nat k} (h : v.sum < 2 ^ w) :
    (v.map (BitVec.ofNat w)).map BitVec.toNat = v := by
  apply Vector.ext
  intro i hi
  have hle : v[i] ≤ v.sum := vectorGet_le_sum v ⟨i, hi⟩
  rw [Vector.getElem_map, Vector.getElem_map, BitVec.toNat_ofNat, Nat.mod_eq_of_lt (hle.trans_lt h)]

/-! ### Bounds of the scans -/

theorem sumSquares_le_sq_sum (h : Vector Nat 16) : sumSquares h ≤ h.sum ^ 2 := by
  rw [sumSquares_eq, vectorSum_eq_sum_get]
  exact Finset.sum_sq_le_sq_sum_of_nonneg fun _ _ => Nat.zero_le _

/-- The buckets hold every poker block once (44_poker.md R122). -/
theorem pokerHist_sum (bit : Nat → Bool) (k : Nat) : (pokerHist (prefixOf bit (4 * k))).sum = k := by
  rw [vectorSum_eq_sum_get]
  simp only [pokerHist_get]
  rw [← Finset.sum_range fun v => pokerCount bit k v, pokerCount_sum]

/-- Every terminated run takes two bits at least (45_run_length.md R134). -/
theorem scanOneRuns_bounds (bit : Nat → Bool) (n : Nat) :
    (scanOneRuns (prefixOf bit n)).cur ≤ n ∧ 2 * (scanOneRuns (prefixOf bit n)).cnt.sum ≤ n := by
  have hb := (oneScanAt_bounds bit n).1
  rw [← vectorSum_eq_sum_get] at hb
  change (oneScanAt bit n).cur ≤ n ∧ 2 * (oneScanAt bit n).cnt.sum ≤ n
  omega

theorem countOnes_prefixOf_le (bit : Nat → Bool) (n : Nat) : countOnes (prefixOf bit n) ≤ n :=
  (countOnes_prefixOf bit n).trans_le (onesUpTo_le bit n)

theorem Cause.code_le (c : Cause) : c.code.toNat ≤ 4 := by
  cases c <;> decide

/-! ### Each update keeps the invariant -/

namespace State.Inv

variable {s : State}

theorem withPort (h : s.Inv) (rest : List PortEvent) : (s.withPort rest).Inv := { h with }

theorem answer (h : s.Inv) (r : Option Response) : State.Inv { s with rsp := r } := { h with }

theorem raiseFault (h : s.Inv) (c : Cause) (info : Word) : (s.raiseFault c info).Inv :=
  { h with fault_le := c.code_le }

theorem setGenerator (h : s.Inv) {g : GenUnit} (hwf : g.mem.wf = true) (hc : g.mem.complete)
    (hseed : g.seed.toNat < 2 ^ 32) : (s.setGenerator g).Inv :=
  { h with mem_wf := hwf, complete := fun _ => hc, seed_lt := hseed }

theorem setValid (h : s.Inv) (hc : s.mem.complete) : s.setValid.Inv :=
  { h with complete := fun _ => hc, done_valid := fun hv => nomatch hv }

theorem setOnes (h : s.Inv) {n : Nat} (hn : n ≤ 20000) : (s.setOnes n).Inv :=
  { h with ones_le := by simp only [State.setOnes_ones, BitVec.toNat_ofNat]; omega }

theorem setRunCounters (h : s.Inv) {c : RunScan} (h1 : c.run1 ≤ c.maxlen) (h0 : c.run0 ≤ c.maxlen)
    (hm : c.maxlen ≤ 20000) : (s.setRunCounters c).Inv where
  __ := h
  run1_le := by simp only [State.setRunCounters_run1, State.setRunCounters_maxlen, BitVec.toNat_ofNat]; omega
  run0_le := by simp only [State.setRunCounters_run0, State.setRunCounters_maxlen, BitVec.toNat_ofNat]; omega
  maxlen_le := by simp only [State.setRunCounters_maxlen, BitVec.toNat_ofNat]; omega

theorem setPoker (h : s.Inv) {hist : Vector Nat 16} (hsum : hist.sum = 5000) :
    (s.setPoker hist (sumSquares hist) (xi3Numerator 5000 (sumSquares hist))).Inv := by
  have hback : (hist.map (BitVec.ofNat 13)).map BitVec.toNat = hist := map_toNat_map_ofNat (by omega)
  have hq : sumSquares hist ≤ 25000000 := by simpa [hsum] using sumSquares_le_sq_sum hist
  have hq' : (BitVec.ofNat 25 (sumSquares hist)).toNat = sumSquares hist := by
    rw [BitVec.toNat_ofNat, Nat.mod_eq_of_lt (by omega)]
  have hx : (BitVec.ofNat 29 (xi3Numerator 5000 (sumSquares hist))).toNat = xi3Numerator 5000 (sumSquares hist) := by
    rw [BitVec.toNat_ofNat, Nat.mod_eq_of_lt]
    unfold xi3Numerator
    omega
  exact { h with
    nib_zero := rfl
    hist_sum := .inr (by rw [State.setPoker_hist, hback, hsum])
    sumsq_eq := by rw [State.setPoker_sumsq, State.setPoker_hist, hback, hq']
    sumsq_le := by rwa [State.setPoker_sumsq, hq']
    xi3n_eq := by rw [State.setPoker_xi3n, State.setPoker_sumsq, hx, hq'] }

theorem setOneRunCounters (h : s.Inv) {c : OnesScan} (hcur : c.cur ≤ 20000) (hcnt : c.cnt.sum ≤ 10000) :
    (s.setOneRunCounters c).Inv where
  __ := h
  cur_le := by simp only [State.setOneRunCounters_cur, BitVec.toNat_ofNat]; omega
  cnt_le := by rwa [State.setOneRunCounters_cnt, map_toNat_map_ofNat (by omega)]

theorem finishTest (h : s.Inv) (hv : s.valid = true) (u : TestUnit) (p : Bool) : (s.finishTest u p).Inv where
  __ := h
  done_valid := fun hn => absurd (hv.symm.trans hn) (by decide)
  verdict_done := by
    rw [State.finishTest_verdict, State.finishTest_done]
    exact setBits_and_not_or _ _ _ _ h.verdict_done

theorem afterGen (h : s.Inv) : s.afterGen.Inv := by
  obtain ⟨hseed, -⟩ := construct_spec s.blk s.mem
  have hc : (construct s.blk s.mem).mem.complete := fun j hj => by rw [construct_readBlock _ _ hj]; rfl
  unfold State.afterGen
  exact ((h.setGenerator (construct_wf _ h.mem_wf) hc (hseed.trans_lt (lcgState_lt 2500))).setValid hc).answer _

/-- The number of poker blocks is a variable, so that no definitional check can run a scan of 20000 bits. -/
theorem afterTest_of_sequence (h : s.Inv) (hv : s.valid = true) {vs : List Block} {bit : Nat → Bool} {k : Nat}
    (hseq : sequenceOf vs = prefixOf bit (4 * k)) (hk : k = 5000) (u : TestUnit) : (s.afterTest u vs).Inv := by
  cases u with
  | mono =>
    have hn := countOnes_prefixOf_le bit (4 * k)
    rw [State.afterTest_mono, State.afterMono, hseq]
    exact (h.setOnes (by omega)).finishTest hv _ _
  | maxrun =>
    obtain ⟨h1, h0, hm⟩ := scanRuns_le bit (4 * k)
    rw [State.afterTest_maxrun, State.afterMaxrun, hseq]
    exact (h.setRunCounters h1 h0 (by omega)).finishTest hv _ _
  | poker =>
    rw [State.afterTest_poker, State.afterPoker, hseq]
    exact (h.setPoker ((pokerHist_sum bit k).trans hk)).finishTest hv _ _
  | runs =>
    obtain ⟨hcur, hcnt⟩ := scanOneRuns_bounds bit (4 * k)
    rw [State.afterTest_runs, State.afterRuns, hseq]
    exact (h.setOneRunCounters (by omega) (by omega)).finishTest hv _ _

theorem afterTest (h : s.Inv) (hv : s.valid = true) {vs : List Block} (hb : s.mem.readBlocks 0 625 = some vs)
    (u : TestUnit) : (s.afterTest u vs).Inv :=
  h.afterTest_of_sequence (k := 5000) hv (sequenceOf_eq_prefixOf hb) rfl u

end State.Inv

/-- Settles O50: every register is 0 and the memory lists nothing. -/
theorem resetMeetsTheInvariant : Obligations.ResetMeetsTheInvariant := by
  unfold Obligations.ResetMeetsTheInvariant
  constructor
  case complete => intro h; cases h
  case hist_sum => exact .inl (by decide +kernel)
  case sumsq_eq => decide +kernel
  case xi3n_eq => decide +kernel
  case cnt_le => decide +kernel
  all_goals decide

theorem inv_keptByOperations : KeptByOperations State.Inv where
  reset := resetMeetsTheInvariant
  withPort rest h := h.withPort rest
  answer r h := h.answer r
  raiseFault c info h := h.raiseFault c info
  afterGen h := h.afterGen
  afterTest u _ hv hb h := h.afterTest hv hb u

/-- Settles O51: each operation keeps the invariant. -/
theorem stepKeepsTheInvariant : Obligations.StepKeepsTheInvariant := by
  unfold Obligations.StepKeepsTheInvariant
  intro s t hs h
  exact inv_keptByOperations.step hs h

end Sys2Proof.Machine
end

section
/-! SUPPORT. The reference invariant (10_state.md R29): a construction is always the generated sequence, so the result of
a test that is done is the one of that sequence. -/

namespace Sys2Proof.Machine

/-- The registers of a test's unit hold its results on a sequence of blocks. -/
def State.Shows (s : State) (vs : List Block) : TestUnit → Prop
  | .mono => s.ones = BitVec.ofNat 15 (countOnes (sequenceOf vs))
  | .maxrun =>
    s.maxlen = BitVec.ofNat 15 (scanRuns (sequenceOf vs)).maxlen ∧
      s.run1 = BitVec.ofNat 15 (scanRuns (sequenceOf vs)).run1 ∧
      s.run0 = BitVec.ofNat 15 (scanRuns (sequenceOf vs)).run0
  | .poker =>
    s.hist = (pokerHist (sequenceOf vs)).map (BitVec.ofNat 13) ∧
      s.sumsq = BitVec.ofNat 25 (sumSquares (pokerHist (sequenceOf vs))) ∧
      s.xi3n = BitVec.ofNat 29 (xi3Numerator 5000 (sumSquares (pokerHist (sequenceOf vs))))
  | .runs =>
    s.cur = BitVec.ofNat 15 (scanOneRuns (sequenceOf vs)).cur ∧
      s.cnt = (scanOneRuns (sequenceOf vs)).cnt.map (BitVec.ofNat 14)

theorem State.afterTest_shows (s : State) (u : TestUnit) (vs : List Block) : (s.afterTest u vs).Shows vs u := by
  cases u with
  | mono => exact State.afterMono_ones s vs
  | maxrun => exact ⟨State.afterMaxrun_maxlen s vs, State.afterMaxrun_run1 s vs, State.afterMaxrun_run0 s vs⟩
  | poker => exact ⟨State.afterPoker_hist s vs, State.afterPoker_sumsq s vs, State.afterPoker_xi3n s vs⟩
  | runs => exact ⟨State.afterRuns_cur s vs, State.afterRuns_cnt s vs⟩

/-- A test leaves the registers of the other units alone. -/
theorem State.afterTest_shows_other (s : State) {u u' : TestUnit} (vs ws : List Block) (hu : u ≠ u') :
    (s.afterTest u vs).Shows ws u' ↔ s.Shows ws u' := by
  cases u' with
  | mono => cases u <;> simp [State.Shows] at hu ⊢
  | maxrun => cases u <;> simp [State.Shows] at hu ⊢
  | poker => cases u <;> simp [State.Shows] at hu ⊢
  | runs => cases u <;> simp [State.Shows] at hu ⊢

theorem State.afterGen_shows (s : State) (vs : List Block) (u : TestUnit) : s.afterGen.Shows vs u ↔ s.Shows vs u := by
  cases u <;> simp [State.Shows]

/-- The four clauses of the reference invariant as one clause about every test. -/
theorem State.refInv_iff {s : State} :
    s.RefInv ↔ (s.valid = true → ∀ j, j < 625 → s.mem.readBlock j = some (refBlock j)) ∧
      (s.done ≠ 0#4 → s.valid = true) ∧
      ∀ u : TestUnit, s.done.getLsbD u.index = true →
        s.Shows refBlocks u ∧ s.verdict.getLsbD u.index = u.pass refBlocks := by
  constructor
  · intro h
    refine ⟨h.sequence, h.done_valid, fun u hd => ?_⟩
    cases u with
    | mono => exact h.mono_done hd
    | maxrun => obtain ⟨hm, h1, h0, hp⟩ := h.maxrun_done hd; exact ⟨⟨hm, h1, h0⟩, hp⟩
    | poker => obtain ⟨hh, hq, hx, hp⟩ := h.poker_done hd; exact ⟨⟨hh, hq, hx⟩, hp⟩
    | runs => obtain ⟨hc, hn, hp⟩ := h.runs_done hd; exact ⟨⟨hc, hn⟩, hp⟩
  · rintro ⟨hseq, hvalid, hdone⟩
    exact {
      sequence := hseq
      done_valid := hvalid
      mono_done := hdone .mono
      maxrun_done := fun hd => by obtain ⟨⟨hm, h1, h0⟩, hp⟩ := hdone .maxrun hd; exact ⟨hm, h1, h0, hp⟩
      poker_done := fun hd => by obtain ⟨⟨hh, hq, hx⟩, hp⟩ := hdone .poker hd; exact ⟨hh, hq, hx, hp⟩
      runs_done := fun hd => by obtain ⟨⟨hc, hn⟩, hp⟩ := hdone .runs hd; exact ⟨hc, hn, hp⟩ }

namespace State.RefInv

variable {s : State}

theorem afterGen (h : s.RefInv) : s.afterGen.RefInv := by
  obtain ⟨-, -, hdone⟩ := State.refInv_iff.mp h
  refine State.refInv_iff.mpr ⟨fun _ j hj => ?_, fun _ => State.afterGen_valid s, fun u hd => ?_⟩
  · rw [State.afterGen_mem]
    exact construct_readBlock s.blk s.mem hj
  · rw [State.afterGen_done] at hd
    rw [State.afterGen_shows, State.afterGen_verdict]
    exact hdone u hd

/-- A constructed block holds the generated sequence. -/
theorem blocks_eq (h : s.RefInv) (hv : s.valid = true) {vs : List Block} (hb : s.mem.readBlocks 0 625 = some vs) :
    vs = refBlocks :=
  Option.some.inj (hb.symm.trans (Memory.readBlocks_of_refBlock (h.sequence hv)))

theorem afterTest (h : s.RefInv) (hv : s.valid = true) {vs : List Block} (hb : s.mem.readBlocks 0 625 = some vs)
    (u : TestUnit) : (s.afterTest u vs).RefInv := by
  obtain rfl := h.blocks_eq hv hb
  obtain ⟨hseq, -, hdone⟩ := State.refInv_iff.mp h
  refine State.refInv_iff.mpr ⟨?_, ?_, fun u' hd => ?_⟩
  · rwa [State.afterTest_valid, State.afterTest_mem]
  · rw [State.afterTest_valid]
    exact fun _ => hv
  · rw [State.afterTest_verdict_getLsbD]
    by_cases hu : u = u'
    · subst hu
      exact ⟨s.afterTest_shows u refBlocks, if_pos rfl⟩
    · rw [State.afterTest_done_getLsbD, decide_eq_false hu, Bool.or_false] at hd
      rw [s.afterTest_shows_other _ _ hu, if_neg hu]
      exact hdone u' hd

end State.RefInv

/-- Settles O53: nothing is constructed and no test is done. -/
theorem resetMeetsTheReferenceInvariant : Obligations.ResetMeetsTheReferenceInvariant := by
  unfold Obligations.ResetMeetsTheReferenceInvariant
  refine State.refInv_iff.mpr ⟨fun hv => absurd hv (by decide), fun hd => absurd rfl hd, fun u hd => ?_⟩
  rw [show State.reset.done = 0#4 from rfl, BitVec.getLsbD_zero] at hd
  cases hd

theorem refInv_keptByOperations : KeptByOperations State.RefInv where
  reset := resetMeetsTheReferenceInvariant
  withPort _ h := { h with }
  answer _ h := { h with }
  raiseFault _ _ h := { h with }
  afterGen h := h.afterGen
  afterTest u _ hv hb h := h.afterTest hv hb u

/-- Settles O54: each operation keeps the reference invariant. -/
theorem stepKeepsTheReferenceInvariant : Obligations.StepKeepsTheReferenceInvariant := by
  unfold Obligations.StepKeepsTheReferenceInvariant
  intro s t hs h
  exact refInv_keptByOperations.step hs h

end Sys2Proof.Machine
end

section
/-! SUPPORT. What reset leaves unspecified cannot be told by the host (10_state.md R28, R30): two states that differ in
SEED, BLK and the memory behind VALID = 0 only give the same answer at every operation, so at every step. -/

namespace Sys2Proof.Machine

/-- Two answers the host cannot tell apart: next states that look the same to it, or the same stop. No command is
refused. -/
inductive SameAnswer : Result → Result → Prop where
  | next {t t' : State} (h : t.SameToHost t') : SameAnswer (.next t) (.next t')
  | fault (f : Fault) : SameAnswer (.fault f) (.fault f)

/-! ### States that look the same -/

namespace State.SameToHost

variable {s s' : State}

/-- The second state is the first one with other contents of the generator's registers. -/
theorem eq_setGenerator (h : s.SameToHost s') : s' = s.setGenerator ⟨s'.seed, s'.blk, s'.mem⟩ := h.rest

theorem of_setGenerator {g : GenUnit} (hmem : s.valid = true → ∀ j, j < 625 → s.mem.readBlock j = g.mem.readBlock j) :
    s.SameToHost (s.setGenerator g) := ⟨hmem, rfl⟩

theorem valid_eq (h : s.SameToHost s') : s'.valid = s.valid := by
  rw [h.eq_setGenerator, State.setGenerator_valid]

theorem fault_eq (h : s.SameToHost s') : s'.fault = s.fault := by
  rw [h.eq_setGenerator, State.setGenerator_fault]

theorem rsp_eq (h : s.SameToHost s') : s'.rsp = s.rsp := by
  rw [h.eq_setGenerator, State.setGenerator_rsp]

theorem port_eq (h : s.SameToHost s') : s'.port = s.port := by
  rw [h.eq_setGenerator, State.setGenerator_port]

theorem regValue_eq (h : s.SameToHost s') (reg : Reg) : s'.regValue reg = s.regValue reg := by
  rw [h.eq_setGenerator]
  cases reg <;> rfl

theorem refl (s : State) : s.SameToHost s := ⟨fun _ _ _ => rfl, rfl⟩

/-! ### Operations keep the likeness -/

/-- An operation that keeps VALID and the memory and does not look at the generator's registers keeps the likeness. -/
theorem map (h : s.SameToHost s') (f : State → State)
    (hf : ∀ s g, f (s.setGenerator g) = (f s).setGenerator g := by intros; rfl)
    (hvalid : ∀ s, (f s).valid = s.valid := by intros; rfl)
    (hmem : ∀ s, (f s).mem = s.mem := by intros; rfl) : (f s).SameToHost (f s') := by
  have hblocks := h.mem
  rw [h.eq_setGenerator, hf]
  apply of_setGenerator
  rwa [hvalid, hmem]

theorem respond (h : s.SameToHost s') (st : Status) (v : Word) : (s.respond st v).SameToHost (s'.respond st v) :=
  h.map fun s => s.respond st v

theorem raiseFault (h : s.SameToHost s') (c : Cause) (info : Word) :
    (s.raiseFault c info).SameToHost (s'.raiseFault c info) :=
  h.map fun s => s.raiseFault c info

theorem refuseHalted (h : s.SameToHost s') : s.refuseHalted.SameToHost s'.refuseHalted :=
  h.map State.refuseHalted

theorem withPort (h : s.SameToHost s') (rest : List PortEvent) : (s.withPort rest).SameToHost (s'.withPort rest) :=
  h.map fun s => s.withPort rest

theorem idle (h : s.SameToHost s') : s.idle.SameToHost s'.idle :=
  h.map State.idle

/-- A construction takes the place of all that may differ. -/
theorem construction (h : s.SameToHost s') {g g' : GenUnit}
    (hblocks : ∀ j, j < 625 → g.mem.readBlock j = g'.mem.readBlock j) (st : Status) (v : Word) :
    ((s.setGenerator g).setValid.respond st v).SameToHost ((s'.setGenerator g').setValid.respond st v) := by
  rw [h.eq_setGenerator]
  exact ⟨fun _ => hblocks, rfl⟩

/-- GEN constructs the same blocks, whatever BLK and the memory were (40_generator.md R83). -/
theorem afterGen (h : s.SameToHost s') : s.afterGen.SameToHost s'.afterGen := by
  unfold State.afterGen
  refine h.construction (fun j hj => ?_) _ _
  rw [construct_readBlock _ _ hj, construct_readBlock _ _ hj]

theorem finishTest (h : s.SameToHost s') (u : TestUnit) (p : Bool) :
    (s.finishTest u p).SameToHost (s'.finishTest u p) :=
  h.map fun s => s.finishTest u p

theorem setOnes (h : s.SameToHost s') (n : Nat) : (s.setOnes n).SameToHost (s'.setOnes n) :=
  h.map fun s => s.setOnes n

theorem setRunCounters (h : s.SameToHost s') (c : RunScan) : (s.setRunCounters c).SameToHost (s'.setRunCounters c) :=
  h.map fun s => s.setRunCounters c

theorem setPoker (h : s.SameToHost s') (hist : Vector Nat 16) (q x : Nat) :
    (s.setPoker hist q x).SameToHost (s'.setPoker hist q x) :=
  h.map fun s => s.setPoker hist q x

theorem setOneRunCounters (h : s.SameToHost s') (c : OnesScan) :
    (s.setOneRunCounters c).SameToHost (s'.setOneRunCounters c) :=
  h.map fun s => s.setOneRunCounters c

theorem afterTest (h : s.SameToHost s') (u : TestUnit) (vs : List Block) :
    (s.afterTest u vs).SameToHost (s'.afterTest u vs) := by
  cases u with
  | mono =>
    simp only [State.afterTest_mono, State.afterMono]
    exact (h.setOnes _).finishTest _ _
  | maxrun =>
    simp only [State.afterTest_maxrun, State.afterMaxrun]
    exact (h.setRunCounters _).finishTest _ _
  | poker =>
    simp only [State.afterTest_poker, State.afterPoker]
    exact (h.setPoker _ _ _).finishTest _ _
  | runs =>
    simp only [State.afterTest_runs, State.afterRuns]
    exact (h.setOneRunCounters _).finishTest _ _

/-! ### Checks and reads answer alike -/

theorem unlessHalted (h : s.SameToHost s') {body body' : State → Result}
    (hbody : s.fault = 0#4 → SameAnswer (body s) (body' s')) :
    SameAnswer (Machine.unlessHalted s body) (Machine.unlessHalted s' body') := by
  by_cases hf : s.fault = 0#4
  · rw [unlessHalted_of_good _ hf, unlessHalted_of_good _ (h.fault_eq.trans hf)]
    exact hbody hf
  · rw [unlessHalted_of_halted _ hf, unlessHalted_of_halted _ (h.fault_eq.trans_ne hf)]
    exact .next h.refuseHalted

theorem checkReady (h : s.SameToHost s') (cmd : Word) {body body' : State → Result}
    (hbody : s.valid = true → SameAnswer (body s) (body' s')) :
    SameAnswer (Machine.checkReady s cmd body) (Machine.checkReady s' cmd body') := by
  refine h.unlessHalted fun _ => ?_
  cases hv : s.valid
  · simpa [hv, h.valid_eq] using SameAnswer.next (h.raiseFault .notGenerated cmd)
  · simpa [hv, h.valid_eq] using hbody hv

theorem checkIndex (h : s.SameToHost s') (index size : Nat) {body body' : State → Result}
    (hbody : index < size → SameAnswer (body s) (body' s')) :
    SameAnswer (Machine.checkIndex s index size body) (Machine.checkIndex s' index size body') := by
  by_cases hi : index < size
  · rw [checkIndex_of_lt _ hi, checkIndex_of_lt _ hi]
    exact hbody hi
  · rw [checkIndex_of_ge _ (by omega), checkIndex_of_ge _ (by omega)]
    exact .next (h.raiseFault _ _)

theorem withBlock (h : s.SameToHost s') (hv : s.valid = true) {j : Nat} (hj : j < 625) {body body' : Block → State}
    (hbody : ∀ v, (body v).SameToHost (body' v)) :
    SameAnswer (Machine.withBlock s j body) (Machine.withBlock s' j body') := by
  unfold Machine.withBlock
  rw [← h.mem hv j hj]
  cases s.mem.readBlock j with
  | none => exact .fault _
  | some v => exact .next (hbody v)

theorem withBlocks (h : s.SameToHost s') (hv : s.valid = true) {body body' : List Block → State}
    (hbody : ∀ vs, (body vs).SameToHost (body' vs)) :
    SameAnswer (Machine.withBlocks s body) (Machine.withBlocks s' body') := by
  have hblocks : s.mem.readBlocks 0 Config.nBlocks = s'.mem.readBlocks 0 Config.nBlocks :=
    Memory.readBlocks_congr fun k hk => h.mem hv _ (by simpa using hk)
  unfold Machine.withBlocks
  rw [← hblocks]
  cases s.mem.readBlocks 0 Config.nBlocks with
  | none => exact .fault _
  | some vs => exact .next (hbody vs)

/-! ### Commands and steps answer alike -/

theorem exec_test (h : s.SameToHost s') {i : Instr} {u : TestUnit} (hi : IsTest i u) :
    SameAnswer (exec i s) (exec i s') := by
  rw [Machine.exec_test hi, Machine.exec_test hi]
  exact h.checkReady _ fun hv => h.withBlocks hv fun vs => h.afterTest u vs

theorem exec_rdreg (h : s.SameToHost s') (r : Nat) : SameAnswer (exec (.rdreg r) s) (exec (.rdreg r) s') := by
  cases hr : regOf r with
  | some reg =>
    rw [exec_rdreg_of_mapped s hr, exec_rdreg_of_mapped s' hr, h.regValue_eq]
    exact .next (h.respond _ _)
  | none =>
    rw [exec_rdreg_of_unmapped s hr, exec_rdreg_of_unmapped s' hr]
    exact h.unlessHalted fun _ => .next (h.raiseFault _ _)

theorem exec (h : s.SameToHost s') (i : Instr) : SameAnswer (Machine.exec i s) (Machine.exec i s') := by
  cases i with
  | gen =>
    rw [exec_gen, exec_gen]
    exact h.unlessHalted fun _ => .next h.afterGen
  | mono => exact h.exec_test .mono
  | maxrun => exact h.exec_test .maxrun
  | poker => exact h.exec_test .poker
  | runs => exact h.exec_test .runs
  | getbit idx =>
    rw [exec_getbit, exec_getbit]
    exact h.checkReady _ fun hv => h.checkIndex _ _ fun hi => h.withBlock hv (by omega) fun v => h.respond _ _
  | rdblk j =>
    rw [exec_rdblk, exec_rdblk]
    exact h.checkReady _ fun hv => h.checkIndex _ _ fun hj => h.withBlock hv hj fun v => h.respond _ _
  | rdreg r => exact h.exec_rdreg r

theorem runWord (h : s.SameToHost s') (w : Word) : SameAnswer (Machine.runWord w s) (Machine.runWord w s') := by
  unfold Machine.runWord
  cases decode w with
  | command i => exact h.exec i
  | illegal why => exact h.unlessHalted fun _ => .next (h.raiseFault _ _)

theorem step (h : s.SameToHost s') : SameAnswer (Machine.step s) (Machine.step s') := by
  unfold Machine.step
  rw [h.port_eq]
  match s.port with
  | [] => exact .next h.idle
  | .command w :: rest => exact (h.withPort rest).runWord w
  | .reset :: rest => exact .next (.refl _)
  | .resetDuring _ :: rest => exact .next (.refl _)

end State.SameToHost

/-- Settles O56: the two steps give answers the host cannot tell apart, and the response is one of the registers that
are equal then. -/
theorem unspecifiedStateIsUnobservable : Obligations.UnspecifiedStateIsUnobservable := by
  unfold Obligations.UnspecifiedStateIsUnobservable
  intro s s' hs
  have h := hs.step
  constructor
  · intro t ht
    rw [ht] at h
    generalize hr : step s' = r at h
    cases h with
    | next hsame => exact ⟨_, rfl, hsame, hsame.rsp_eq.symm⟩
  · intro f hf
    rw [hf] at h
    generalize hr : step s' = r at h
    cases h with
    | fault => rfl

end Sys2Proof.Machine
end

section
/-! SUPPORT. The frames of single commands and steps: who writes VALID, the bit memory and the flags (10_state.md R15 to
R17), the STATUS word (R25), and the run counters after MAXRUN (R20). -/

namespace Sys2Proof.Machine

/-! ### VALID and the bit memory -/

/-- Only GEN on a block that is not halted changes VALID. -/
theorem exec_valid {i : Instr} {s t : State} (h : exec i s = .next t) :
    t.valid = s.valid ∨ (s.fault = 0#4 ∧ i = .gen ∧ t.valid = true) := by
  cases exec_next h with
  | answer e => exact .inl (by rw [e])
  | faulted _ c info _ e => exact .inl (e ▸ State.raiseFault_valid s c info)
  | constructed hf hi e => exact .inr ⟨hf, hi, e ▸ State.afterGen_valid s⟩
  | tested _ _ u vs _ _ e => exact .inl (e ▸ State.afterTest_valid s u vs)

theorem runWord_valid {w : Word} {s t : State} (h : runWord w s = .next t) :
    t.valid = s.valid ∨ (s.fault = 0#4 ∧ decode w = .command .gen ∧ t.valid = true) := by
  rcases runWord_next h with ⟨i, hd, hx⟩ | ⟨-, -, ⟨-, rfl⟩ | ⟨-, rfl⟩⟩
  · rcases exec_valid hx with hv | ⟨hf, rfl, hv⟩
    · exact .inl hv
    · exact .inr ⟨hf, hd, hv⟩
  · exact .inl rfl
  · exact .inl rfl

/-- A step keeps VALID, or it is a reset and clears it, or it is GEN on a block that is not halted and sets it. -/
theorem step_valid {s t : State} (h : step s = .next t) :
    t.valid = s.valid ∨
    (t.valid = false ∧ ∃ rest, s.port = .reset :: rest ∨ ∃ w, s.port = .resetDuring w :: rest) ∨
    (t.valid = true ∧ s.fault = 0#4 ∧ ∃ w rest, s.port = .command w :: rest ∧ decode w = .command .gen) := by
  cases step_next h with
  | idle _ e => exact .inl (e ▸ State.idle_valid s)
  | reset rest hp e => exact .inr (.inl ⟨e ▸ rfl, rest, hp⟩)
  | word w rest hp hw =>
    rcases runWord_valid hw with hv | ⟨hf, hd, hv⟩
    · exact .inl hv
    · exact .inr (.inr ⟨hv, hf, w, rest, hp, hd⟩)

/-- Settles O13, over the three things a step can do to VALID. -/
theorem validIsSetByGenAndClearedByReset : Obligations.ValidIsSetByGenAndClearedByReset := by
  unfold Obligations.ValidIsSetByGenAndClearedByReset
  intro s t h
  rcases step_valid h with hv | ⟨hv, hreset⟩ | ⟨hv, hgen⟩
  · rw [hv]
    constructor <;> intro hs ht <;> simp [hs] at ht
  · exact ⟨fun _ _ => hreset, fun _ ht => by simp [hv] at ht⟩
  · exact ⟨fun _ ht => by simp [hv] at ht, fun _ _ => hgen⟩

theorem exec_mem {i : Instr} {s t : State} (hi : i ≠ .gen) (h : exec i s = .next t) : t.mem = s.mem := by
  cases exec_next h with
  | answer e => rw [e]
  | faulted _ c info _ e => exact e ▸ State.raiseFault_mem s c info
  | constructed _ hgen _ => exact absurd hgen hi
  | tested _ _ u vs _ _ e => exact e ▸ State.afterTest_mem s u vs

/-- Settles O25: the memory is the same list of cells. -/
theorem onlyGenWritesTheBitMemory : Obligations.OnlyGenWritesTheBitMemory := by
  unfold Obligations.OnlyGenWritesTheBitMemory
  intro i s t hi h a
  rw [exec_mem hi h]

/-- A command that reads the sequence checks VALID first (60_exceptions.md R151 step 4). -/
theorem exec_of_invalid {i : Instr} {s : State} (hi : NeedsValid i) (hf : s.fault = 0#4) (hv : s.valid = false) :
    exec i s = .next (s.raiseFault .notGenerated (encode i)) := by
  cases hi with
  | mono => rw [exec_mono, checkReady_of_invalid _ _ hf hv]
  | maxrun => rw [exec_maxrun, checkReady_of_invalid _ _ hf hv]
  | poker => rw [exec_poker, checkReady_of_invalid _ _ hf hv]
  | runs => rw [exec_runs, checkReady_of_invalid _ _ hf hv]
  | getbit idx => rw [exec_getbit, checkReady_of_invalid _ _ hf hv]
  | rdblk j => rw [exec_rdblk, checkReady_of_invalid _ _ hf hv]

/-- Settles O16, by the fault entry of NotGenerated. -/
theorem readsBeforeGenRaiseNotGenerated : Obligations.ReadsBeforeGenRaiseNotGenerated := by
  unfold Obligations.ReadsBeforeGenRaiseNotGenerated
  intro i s hi hf hv
  exact exec_of_invalid hi hf hv

/-- Settles O9: each register of the reset state. -/
theorem machineStartsAtTheResetValues : Obligations.MachineStartsAtTheResetValues := by
  unfold Obligations.MachineStartsAtTheResetValues
  decide

/-! ### The flags -/

/-- Settles O41: a test that completes sets its own bits, and every other answer keeps the flags. -/
theorem testsTouchOnlyTheirOwnFlags : Obligations.TestsTouchOnlyTheirOwnFlags := by
  unfold Obligations.TestsTouchOnlyTheirOwnFlags
  intro i u s t hi h
  rcases exec_test_next hi h with ⟨hf, rfl⟩ | ⟨-, -, rfl⟩ | ⟨-, -, vs, -, rfl⟩
  case inl => exact ⟨rfl, rfl, fun ht => absurd ht hf⟩
  case inr.inl => exact ⟨rfl, rfl, fun ht => absurd ht (by decide : (4#4) ≠ 0#4)⟩
  case inr.inr =>
    rw [State.afterTest_done, State.afterTest_verdict]
    exact ⟨or_and_not_mask _ _, setBits_and_not_mask _ _ _, fun _ => or_and_mask _ _⟩

theorem append_toNat {a b : Nat} (x : BitVec a) (y : BitVec b) : (x ++ y).toNat = x.toNat * 2 ^ b + y.toNat := by
  rw [BitVec.toNat_append, ← Nat.shiftLeft_add_eq_or_of_lt y.isLt, Nat.shiftLeft_eq]

theorem State.statusWord_toNat (s : State) :
    s.statusWord.toNat =
      s.verdict.toNat * 256 + s.done.toNat * 16 + (if s.fault = 0#4 then 0 else 2) + (if s.valid then 1 else 0) := by
  have hflag : ∀ b : Bool, (flagBit b).toNat = if b then 1 else 0 := by decide
  simp only [State.statusWord, append_toNat, hflag, State.isHalted_eq_true]
  by_cases hf : s.fault = 0#4 <;> simp [hf] <;> omega

/-- DONE is bits 7:4 of STATUS, and VERDICT bits 11:8. -/
theorem State.statusWord_flags (s : State) {k : Nat} (hk : k < 4) :
    s.statusWord.getLsbD (4 + k) = s.done.getLsbD k ∧ s.statusWord.getLsbD (8 + k) = s.verdict.getLsbD k := by
  simp only [State.statusWord, BitVec.getLsbD_append]
  constructor
  · grind
  · grind

theorem State.statusWord_low (s : State) :
    s.statusWord.getLsbD 0 = s.valid ∧ s.statusWord.getLsbD 1 = decide (s.fault ≠ 0#4) := by
  have hflag : ∀ b : Bool, (flagBit b).getLsbD 0 = b := by decide
  simp only [State.statusWord, BitVec.getLsbD_append]
  exact ⟨hflag s.valid, (hflag s.isHalted).trans (by rw [Bool.eq_iff_iff, State.isHalted_eq_true, decide_eq_true_eq])⟩

/-- Settles O30: register 0x00 is STATUS, whose fields are read off its concatenation. -/
theorem statusWordLayout : Obligations.StatusWordLayout := by
  unfold Obligations.StatusWordLayout
  intro s
  obtain ⟨hvalid, hhalted⟩ := s.statusWord_low
  exact ⟨s.statusWord, exec_rdreg_of_mapped (reg := .status) s rfl, s.statusWord_toNat,
    fun _ hk => s.statusWord_flags hk, hvalid, hhalted⟩

/-! ### The run counters -/

/-- The last bit of a sequence that is not empty is in exactly one of its two trailing runs. -/
theorem IsTrailing.eq_zero_iff {bit : Nat → Bool} {n ones zeros : Nat} (h1 : IsTrailing bit true n ones)
    (h0 : IsTrailing bit false n zeros) (hn : 1 ≤ n) : ones = 0 ↔ zeros ≠ 0 := by
  have last : ∀ {b : Bool} {len : Nat}, IsTrailing bit b n len → (len = 0 ↔ bit (n - 1) ≠ b) := by
    rintro b len ⟨hle, hrun, hend⟩
    constructor
    · rintro rfl
      exact hend.resolve_left (by omega)
    · intro hb
      by_contra hlen
      exact hb (hrun _ (by omega) (by omega))
  have other : bit (n - 1) ≠ true ↔ ¬ bit (n - 1) ≠ false := by cases bit (n - 1) <;> decide
  exact (last h1).trans (other.trans (not_congr (last h0)).symm)

/-- After MAXRUN the run counters are the trailing runs: their lengths fit the 15-bit registers. The length of the
sequence is a variable, so that no definitional check can run the scan. -/
theorem State.afterMaxrun_trailing (s : State) {vs : List Block} {bit : Nat → Bool} {n : Nat}
    (hseq : sequenceOf vs = prefixOf bit n) (hpos : 1 ≤ n) (hn : n < 2 ^ 15) :
    IsTrailing bit true n (s.afterMaxrun vs).run1.toNat ∧ IsTrailing bit false n (s.afterMaxrun vs).run0.toNat := by
  obtain ⟨-, -, h1, h0⟩ := scanRuns_law (bit := bit) hpos
  rw [State.afterMaxrun_run1, State.afterMaxrun_run0, hseq, BitVec.toNat_ofNat, BitVec.toNat_ofNat,
    Nat.mod_eq_of_lt (h1.1.trans_lt hn), Nat.mod_eq_of_lt (h0.1.trans_lt hn)]
  exact ⟨h1, h0⟩

/-- Settles O34, by the law of the scan. -/
theorem maxrunKeepsTheTrailingRun : Obligations.MaxrunKeepsTheTrailingRun := by
  unfold Obligations.MaxrunKeepsTheTrailingRun
  intro s t hs h
  obtain ⟨vs, hseq, hexec⟩ := hs.exec_test
  rw [hexec .maxrun, State.afterTest_maxrun] at h
  obtain rfl := Host.Outcome.next.inj h
  obtain ⟨h1, h0⟩ := s.afterMaxrun_trailing hseq (by decide) (by decide)
  refine ⟨h1, h0, ?_⟩
  rw [ne_eq, ← BitVec.toNat_inj, ← BitVec.toNat_inj]
  exact h1.eq_zero_iff h0 (by decide)

end Sys2Proof.Machine
end

section
/-! SUPPORT. The addressing of the bit memory (20_memory.md R41): the sequence's bits by block and position, and a block
as the sum of its bits. -/

namespace Sys2Proof.Machine

/-- Each listed block is the memory's block of the same number. -/
theorem Memory.exists_readBlock_of_readBlocks {m : Memory} {n j : Nat} {vs : List Block}
    (h : m.readBlocks 0 n = some vs) (hj : j < n) : ∃ v, m.readBlock j = some v ∧ vs[j]? = some v := by
  obtain ⟨rfl, hread⟩ := Memory.readBlocks_eq_some.mp h
  have hget : vs[j]? = some vs[j] := List.getElem?_eq_getElem hj
  have hblock := hread j hj
  rw [Nat.zero_add, hget] at hblock
  exact ⟨vs[j], hblock, hget⟩

/-- Bit p of block j is bit 32 j + p of the sequence (20_memory.md R41). -/
theorem sequenceOf_getD {vs : List Block} {j p : Nat} {v : Block} (hv : vs[j]? = some v) (hp : p < 32) :
    (sequenceOf vs).getD (32 * j + p) false = v.getLsbD p := by
  have hdiv : (32 * j + p) / 32 = j := by omega
  have hmod : (32 * j + p) % 32 = p := by omega
  rw [List.getD_eq_getElem?_getD, sequenceOf_getElem?, hdiv, hmod, hv]
  rfl

/-- The low n bits of a word are a sum of powers of two. -/
theorem toNat_mod_two_pow_eq_sum {w : Nat} (v : BitVec w) (n : Nat) :
    v.toNat % 2 ^ n = ∑ p ∈ Finset.range n, (v.getLsbD p).toNat * 2 ^ p := by
  induction n with
  | zero => simp [Nat.mod_one]
  | succ n ih =>
    rw [Finset.sum_range_succ, ← ih, Nat.mod_pow_succ, ← Nat.toNat_testBit, BitVec.testBit_toNat, Nat.mul_comm (2 ^ n)]

theorem toNat_eq_sum_getLsbD {w : Nat} (v : BitVec w) :
    v.toNat = ∑ p ∈ Finset.range w, (v.getLsbD p).toNat * 2 ^ p := by
  rw [← toNat_mod_two_pow_eq_sum, Nat.mod_eq_of_lt v.isLt]

/-- Settles O24: bits are looked up in the listed blocks, and a block's sum is taken over its own 32 indices. -/
theorem bitAddressing : Obligations.BitAddressing := by
  unfold Obligations.BitAddressing
  intro m vs h
  obtain ⟨hlen, -⟩ := Memory.readBlocks_eq_some.mp h
  refine ⟨?length, fun i hi => ?bit, fun j hj => ?block⟩
  case length => rw [sequenceOf_length, hlen]
  case bit =>
    obtain ⟨v, hread, hget⟩ := Memory.exists_readBlock_of_readBlocks h (j := i / 32) (by omega)
    refine ⟨v, hread, ?_⟩
    rw [sequenceOf_getElem?, hget]
    rfl
  case block =>
    obtain ⟨v, hread, hget⟩ := Memory.exists_readBlock_of_readBlocks h hj
    refine ⟨v, hread, (toNat_eq_sum_getLsbD v).trans (Finset.sum_congr rfl fun p hp => ?_)⟩
    rw [sequenceOf_getD hget (Finset.mem_range.mp hp)]

end Sys2Proof.Machine
end

section
/-! SUPPORT. A test's effect is idempotent (20_memory.md R50): its unit's registers are set to values that depend on the
blocks only, and its DONE and VERDICT bits to constants. -/

namespace Sys2Proof.Machine

theorem State.finishTest_finishTest (s : State) (u : TestUnit) (p : Bool) :
    (s.finishTest u p).finishTest u p = s.finishTest u p := by
  cases p
  case false => simp [State.finishTest, State.recordVerdict, State.respond, BitVec.or_assoc, BitVec.and_assoc]
  case true => simp [State.finishTest, State.recordVerdict, State.respond, BitVec.or_assoc]

/-- An idempotent register update that a test's flags and response do not touch is idempotent together with them. -/
theorem State.finishTest_update_idem (s : State) (f : State → State) (u : TestUnit) (p : Bool)
    (hcomm : ∀ s, f (s.finishTest u p) = (f s).finishTest u p := by intros; rfl)
    (hidem : ∀ s, f (f s) = f s := by intros; rfl) :
    (f ((f s).finishTest u p)).finishTest u p = (f s).finishTest u p := by
  rw [hcomm, hidem, State.finishTest_finishTest]

/-! The unit's registers, each set to values that are variables here, so that no definitional check can run a scan. -/

section
variable (s : State) (u : TestUnit) (p : Bool)

theorem State.setOnes_finishTest_idem (n : Nat) :
    (((s.setOnes n).finishTest u p).setOnes n).finishTest u p = (s.setOnes n).finishTest u p :=
  s.finishTest_update_idem (·.setOnes n) u p

theorem State.setRunCounters_finishTest_idem (c : RunScan) :
    (((s.setRunCounters c).finishTest u p).setRunCounters c).finishTest u p = (s.setRunCounters c).finishTest u p :=
  s.finishTest_update_idem (·.setRunCounters c) u p

theorem State.setPoker_finishTest_idem (h : Vector Nat 16) (q x : Nat) :
    (((s.setPoker h q x).finishTest u p).setPoker h q x).finishTest u p = (s.setPoker h q x).finishTest u p :=
  s.finishTest_update_idem (·.setPoker h q x) u p

theorem State.setOneRunCounters_finishTest_idem (c : OnesScan) :
    (((s.setOneRunCounters c).finishTest u p).setOneRunCounters c).finishTest u p =
      (s.setOneRunCounters c).finishTest u p :=
  s.finishTest_update_idem (·.setOneRunCounters c) u p

end

theorem State.afterTest_afterTest (s : State) (u : TestUnit) (vs : List Block) :
    (s.afterTest u vs).afterTest u vs = s.afterTest u vs := by
  cases u with
  | mono => simp only [State.afterTest_mono, State.afterMono, State.setOnes_finishTest_idem]
  | maxrun => simp only [State.afterTest_maxrun, State.afterMaxrun, State.setRunCounters_finishTest_idem]
  | poker => simp only [State.afterTest_poker, State.afterPoker, State.setPoker_finishTest_idem]
  | runs => simp only [State.afterTest_runs, State.afterRuns, State.setOneRunCounters_finishTest_idem]

/-- Settles O43: the first run keeps what a test reads, so the second one is its unit's effect on the same blocks. -/
theorem repeatedTestChangesNothing : Obligations.RepeatedTestChangesNothing := by
  unfold Obligations.RepeatedTestChangesNothing
  intro i u s t hi hs h
  obtain ⟨vs, hblocks⟩ := hs.blocks
  obtain ⟨hgood, hvalid, -⟩ := hs
  rw [exec_test_of_blocks hi hgood hvalid hblocks] at h
  obtain rfl := Host.Outcome.next.inj h
  have again : exec i (s.afterTest u vs) = .next ((s.afterTest u vs).afterTest u vs) :=
    exec_test_of_blocks hi ((s.afterTest_fault u vs).trans hgood) ((s.afterTest_valid u vs).trans hvalid)
      (by rw [State.afterTest_mem, hblocks])
  rw [again, State.afterTest_afterTest]

end Sys2Proof.Machine
end

section
/-! SUPPORT. The encoding as a bijection: a word is the number OP × 2^28 + ARG (30_encoding.md R60), and it decodes to a
command exactly when those are the command's opcode (R62) and operand (R63). Both round trips and the opcode map of R65
are read off this one equivalence. -/

namespace Sys2Proof

open Machine

theorem Instr.wellFormed_iff {i : Instr} : i.wellFormed = true ↔ operandOf i < 2 ^ 28 := by
  cases i <;> simp [Instr.wellFormed, argFits, operandOf]

/-- Only GETBIT, RDBLK and RDREG have an operand (30_encoding.md R62). -/
theorem operandOf_eq_zero {i : Instr} (h : (opcodeOf i).toNat ≤ 5) : operandOf i = 0 := by
  cases i with
  | gen | mono | maxrun | poker | runs => rfl
  | getbit | rdblk | rdreg => simp [opcodeOf] at h

theorem opcodeOf_range (i : Instr) : 1 ≤ (opcodeOf i).toNat ∧ (opcodeOf i).toNat ≤ 8 := by
  cases i <;> simp [opcodeOf]

/-- The word of a well-formed command as a number (30_encoding.md R60). -/
theorem encode_toNat {i : Instr} (h : i.wellFormed = true) :
    (encode i).toNat = (opcodeOf i).toNat * 2 ^ 28 + operandOf i :=
  Laws.OpcodeField.assemble_toNat _ (Instr.wellFormed_iff.mp h)

/-! ### Decoding -/

theorem decodeBare_eq_command_iff {i j : Instr} {w : Word} :
    decodeBare i w = .command j ↔ w.toNat % 2 ^ 28 = 0 ∧ i = j := by
  have hzero : w.toNat % 2 ^ 28 = 0 ↔ argOf w = 0#28 := by
    rw [← Laws.OpcodeField.argOf_toNat, ← BitVec.toNat_inj, BitVec.toNat_ofNat, Nat.zero_mod]
  rw [hzero]
  unfold decodeBare
  split
  next h => simp [h]
  next h => simp [h]

/-- A word decodes to a command exactly when OP is its opcode and ARG its operand (30_encoding.md R60, R62, R63). -/
theorem decode_eq_command_iff {w : Word} {i : Instr} :
    decode w = .command i ↔ w.toNat / 2 ^ 28 = (opcodeOf i).toNat ∧ w.toNat % 2 ^ 28 = operandOf i := by
  rw [← Laws.OpcodeField.opOf_toNat]
  constructor
  case mp =>
    intro h
    unfold decode at h
    split at h
    case h_6 | h_7 | h_8 =>
      cases h
      exact ⟨by assumption, (Laws.OpcodeField.argOf_toNat w).symm⟩
    case h_9 => cases h
    all_goals
      obtain ⟨harg, rfl⟩ := decodeBare_eq_command_iff.mp h
      exact ⟨by assumption, harg⟩
  case mpr =>
    rintro ⟨hop, harg⟩
    unfold decode
    rw [hop]
    cases i with
    | getbit | rdblk | rdreg => simpa [opcodeOf, operandOf, Laws.OpcodeField.argOf_toNat] using harg
    | gen | mono | maxrun | poker | runs => exact decodeBare_eq_command_iff.mpr ⟨harg, rfl⟩

/-- A word is illegal exactly when its two fields are those of no command (30_encoding.md R64). -/
theorem exists_decode_eq_illegal_iff {w : Word} :
    (∃ why, decode w = .illegal why) ↔
      ∀ i, w.toNat / 2 ^ 28 = (opcodeOf i).toNat → w.toNat % 2 ^ 28 ≠ operandOf i := by
  simp only [ne_eq, ← not_and, ← decode_eq_command_iff]
  cases decode w <;> simp

/-- Settles O1: the word's two fields as numbers are the command's opcode and operand. -/
theorem decodeOfEncodeIsTheCommand : Obligations.DecodeOfEncodeIsTheCommand := by
  unfold Obligations.DecodeOfEncodeIsTheCommand
  intro i hi
  have hword := encode_toNat hi
  have hfits := Instr.wellFormed_iff.mp hi
  exact decode_eq_command_iff.mpr ⟨by omega, by omega⟩

/-- Settles O2: the word is the number of its two fields, and ARG is below 2^28. -/
theorem encodeOfDecodeIsTheWord : Obligations.EncodeOfDecodeIsTheWord := by
  unfold Obligations.EncodeOfDecodeIsTheWord
  intro w i h
  obtain ⟨hop, harg⟩ := decode_eq_command_iff.mp h
  have hi : i.wellFormed = true := Instr.wellFormed_iff.mpr (by omega)
  refine ⟨hi, BitVec.eq_of_toNat_eq ?_⟩
  rw [encode_toNat hi]
  omega

/-- Settles O3: each legal arm is a command's opcode and operand, and the other words have those of no command. -/
theorem decodeFollowsTheOpcodeMap : Obligations.DecodeFollowsTheOpcodeMap := by
  unfold Obligations.DecodeFollowsTheOpcodeMap
  intro w op arg
  have legal : ∀ i, op = (opcodeOf i).toNat → arg = operandOf i → decode w = .command i :=
    fun i hop harg => decode_eq_command_iff.mpr ⟨hop, harg⟩
  refine ⟨legal .gen, legal .mono, legal .maxrun, legal .poker, legal .runs,
    fun _ hle harg => exists_decode_eq_illegal_iff.mpr ?nonzeroArg,
    fun hop => legal (.getbit arg) hop rfl, fun hop => legal (.rdblk arg) hop rfl,
    fun hop => legal (.rdreg arg) hop rfl, fun hop => exists_decode_eq_illegal_iff.mpr ?reserved⟩
  case nonzeroArg =>
    intro i hi
    rw [operandOf_eq_zero (hi ▸ hle)]
    exact harg
  case reserved =>
    intro i hi
    have := opcodeOf_range i
    omega

/-- Settles O4: each word's OP and ARG are those of its command, or of none. -/
theorem specWordsDecodeAsListed : Obligations.SpecWordsDecodeAsListed := by
  unfold Obligations.SpecWordsDecodeAsListed
  decide

/-! ### The step at a presented word -/

theorem runWord_of_command {w : Word} {i : Instr} (h : decode w = .command i) (s : State) :
    runWord w s = exec i s := by
  unfold runWord
  rw [h]

theorem step_of_word {s : State} {w : Word} {rest : List PortEvent} (h : s.port = .command w :: rest) :
    step s = runWord w (s.withPort rest) := by
  unfold step
  rw [h]

/-- Settles O5: the step takes the word off the port and runs it. -/
theorem stepRunsTheDecodedCommand : Obligations.StepRunsTheDecodedCommand := by
  unfold Obligations.StepRunsTheDecodedCommand
  intro s w rest i hport hdecode
  exact (step_of_word hport).trans (runWord_of_command hdecode _)

end Sys2Proof
end

section
/-! SUPPORT. The generator family against its closed form (40_generator.md R82 to R85): the fold, the seed update on the
64-bit register, GEN's effect on the state, and the bits of the blocks it writes. -/

namespace Sys2Proof.Machine

/-! ### One recurrence step -/

theorem foldByte_eq_self (b : Byte) : foldByte b = b := by
  have hshift : b >>> Config.foldShift = 0#8 := BitVec.ushiftRight_eq_zero (by decide)
  have hmask : b &&& Config.foldMask = b := BitVec.and_allOnes
  rw [foldByte, hshift, hmask, BitVec.zero_xor]

theorem tapByte_eq_extractLsb' (seed : BitVec 64) : tapByte seed = seed.extractLsb' 16 8 :=
  BitVec.setWidth_ushiftRight_eq_extractLsb

/-- Settles O18: the fold drops out of NEXTBYTE, which leaves the tap. -/
theorem foldStageIsANoOp : Obligations.FoldStageIsANoOp := by
  unfold Obligations.FoldStageIsANoOp
  refine ⟨foldByte_eq_self, fun seed => ?_⟩
  rw [emitByte, foldByte_eq_self, tapByte_eq_extractLsb']

/-- Below 2^32 neither the product nor the sum overflows the 64-bit register (40_generator.md R84). -/
theorem nextSeed_toNat {seed : BitVec 64} (h : seed.toNat < 2 ^ 32) :
    (nextSeed seed).toNat = (134775813 * seed.toNat + 1) % 2 ^ 32 := by
  have hfits : 134775813 * seed.toNat + 1 < 18446744073709551616 := by omega
  simp only [nextSeed, Config.lcgA, Config.lcgC, Config.lcgM, BitVec.toNat_umod, BitVec.toNat_add, BitVec.toNat_mul,
    BitVec.toNat_ofNat, Nat.reducePow, Nat.reduceMod, Nat.mod_add_mod, Nat.mod_eq_of_lt hfits]

/-- Settles O19: the exact update, reduced below 2^32, is the 32-bit multiply-add. -/
theorem seedUpdateNeverOverflows : Obligations.SeedUpdateNeverOverflows := by
  unfold Obligations.SeedUpdateNeverOverflows
  refine ⟨by decide, fun seed hseed => ?_⟩
  have hnext := nextSeed_toNat hseed
  refine ⟨by omega, by decide, by omega, hnext, BitVec.eq_of_toNat_eq ?_⟩
  rw [BitVec.toNat_setWidth, hnext, BitVec.toNat_add, BitVec.toNat_mul, BitVec.toNat_setWidth]
  simp [Nat.add_mod, Nat.mul_mod]

/-! ### GEN -/

/-- A construction put into the state, with the generator's registers a variable, so that no definitional check can run
the construction. -/
theorem State.respond_setValid_setGenerator (s : State) (g : GenUnit) :
    ((s.setGenerator g).setValid).respond .ok 0#32 =
      { s with seed := g.seed, blk := g.blk, mem := g.mem, valid := true, rsp := some ⟨.ok, 0#32⟩ } := rfl

/-- GEN changes its own three registers, VALID and the response (40_generator.md R80). -/
theorem State.afterGen_frame (s : State) :
    s.afterGen = { s with
      seed := s.afterGen.seed, blk := s.afterGen.blk, mem := s.afterGen.mem, valid := true, rsp := some ⟨.ok, 0#32⟩ } := by
  rw [State.afterGen_seed, State.afterGen_blk, State.afterGen_mem]
  unfold State.afterGen
  exact s.respond_setValid_setGenerator (construct s.blk s.mem)

/-- Settles O20, by the law of the construction. -/
theorem genCompletes : Obligations.GenCompletes := by
  unfold Obligations.GenCompletes
  intro s hs
  obtain ⟨hseed, hblk, hblocks, hframe⟩ := construct_spec s.blk s.mem
  refine ⟨s.afterGen, exec_gen_of_good hs, s.afterGen_frame, ?_⟩
  rw [State.afterGen_seed, State.afterGen_blk, State.afterGen_mem]
  exact ⟨hseed, hblk, fun j hj => Option.isSome_of_eq_some (hblocks j hj), hframe⟩

theorem State.afterGen_readBlock (s : State) {j : Nat} (hj : j < 625) :
    s.afterGen.mem.readBlock j = some (refBlock j) := by
  rw [State.afterGen_mem, construct_readBlock s.blk s.mem hj]

/-! ### The bits of a generated block -/

/-- Bit p of a block is bit `p mod 8` of its byte `3 − p / 8` (20_memory.md R43). -/
theorem joinBytes_getLsbD (b : Nat → Byte) {p : Nat} (hp : p < 32) :
    (joinBytes (b 0) (b 1) (b 2) (b 3)).getLsbD p = (b (3 - p / 8)).getLsbD (p % 8) := by
  simp only [joinBytes, BitVec.getLsbD_append]
  have hbyte : p / 8 = 0 ∨ p / 8 = 1 ∨ p / 8 = 2 ∨ p / 8 = 3 := by omega
  rcases hbyte with h | h | h | h
  · rw [if_pos (by omega), h, Nat.mod_eq_of_lt (by omega)]
  · rw [if_neg (by omega), if_pos (by omega), h]
    congr 1; omega
  · rw [if_neg (by omega), if_neg (by omega), if_pos (by omega), h]
    congr 1; omega
  · rw [if_neg (by omega), if_neg (by omega), if_neg (by omega), h]
    congr 1; omega

/-- The block's bytes as bit vectors, byte m being that of state `4 j + m + 1` (40_generator.md R85). -/
theorem refBlock_eq_joinBytes (j : Nat) :
    refBlock j = joinBytes (BitVec.ofNat 8 (lcgByte (4 * j + 0 + 1))) (BitVec.ofNat 8 (lcgByte (4 * j + 1 + 1)))
      (BitVec.ofNat 8 (lcgByte (4 * j + 2 + 1))) (BitVec.ofNat 8 (lcgByte (4 * j + 3 + 1))) := by
  apply BitVec.eq_of_toNat_eq
  simp only [refBlock_toNat, joinBytes_toNat, BitVec.toNat_ofNat, Nat.mod_eq_of_lt (lcgByte_lt _), Nat.add_assoc,
    Nat.reduceAdd]
  omega

theorem lcgByte_testBit (t : Nat) {q : Nat} (hq : q < 8) : (lcgByte t).testBit q = (lcgState t).testBit (16 + q) := by
  have hmod := Nat.testBit_mod_two_pow (lcgState t / 2 ^ 16) 8 q
  rw [decide_eq_true hq, Bool.true_and, Nat.testBit_div_two_pow, Nat.add_comm] at hmod
  exact hmod

theorem refBlock_getLsbD (j : Nat) {p : Nat} (hp : p < 32) :
    (refBlock j).getLsbD p = (lcgState (4 * j + (3 - p / 8) + 1)).testBit (16 + p % 8) := by
  have hq : p % 8 < 8 := Nat.mod_lt p (by decide)
  rw [refBlock_eq_joinBytes, joinBytes_getLsbD (fun m => BitVec.ofNat 8 (lcgByte (4 * j + m + 1))) hp,
    BitVec.getLsbD_ofNat, decide_eq_true hq, Bool.true_and, lcgByte_testBit _ hq]

theorem State.bitRead_of_readBlock {s : State} {i : Nat} {v : Block} (h : s.mem.readBlock (i / 32) = some v) :
    s.bitRead i = v.getLsbD (i % 32) := by
  rw [State.bitRead, h]

/-- Settles O21: the blocks as numbers, and each bit by the block it is in. -/
theorem genFillsTheMemoryInClosedForm : Obligations.GenFillsTheMemoryInClosedForm := by
  unfold Obligations.GenFillsTheMemoryInClosedForm
  intro s hs
  refine ⟨s.afterGen, exec_gen_of_good hs, fun j hj => ⟨refBlock j, s.afterGen_readBlock hj, refBlock_toNat j⟩,
    fun i hi => ?_⟩
  have hread := s.afterGen_readBlock (j := i / 32) (by omega)
  rw [State.bitRead_of_readBlock hread, refBlock_getLsbD _ (Nat.mod_lt i (by decide))]

/-! ### The listed blocks -/

/-- The first six blocks of the generated sequence and the last (95_test_vectors.md V2). -/
theorem refBlock_listed :
    refBlock 0 = 0x86DF07CE#32 ∧ refBlock 1 = 0xA6F8B5E1#32 ∧ refBlock 2 = 0x24D8E8AF#32 ∧
    refBlock 3 = 0x08522C2B#32 ∧ refBlock 4 = 0xF7559C08#32 ∧ refBlock 5 = 0x65C82C37#32 ∧
    refBlock 624 = 0xA2009520#32 := by
  decide +kernel

/-- Settles O22: both memories hold the blocks of the closed form. -/
theorem everyGenLeavesTheSameBlocks : Obligations.EveryGenLeavesTheSameBlocks := by
  unfold Obligations.EveryGenLeavesTheSameBlocks
  intro s s' t t' hs hs' h h'
  obtain rfl := Host.Outcome.next.inj ((exec_gen_of_good hs).symm.trans h)
  obtain rfl := Host.Outcome.next.inj ((exec_gen_of_good hs').symm.trans h')
  have listed : ∀ {j : Nat} {v : Block}, j < 625 → refBlock j = v → s.afterGen.mem.readBlock j = some v :=
    fun hj hv => hv ▸ s.afterGen_readBlock hj
  obtain ⟨h0, h1, h2, h3, h4, h5, hlast⟩ := refBlock_listed
  refine ⟨fun j hj => ⟨?_, s.afterGen_readBlock hj⟩, listed (by decide) h0, listed (by decide) h1,
    listed (by decide) h2, listed (by decide) h3, listed (by decide) h4, listed (by decide) h5,
    listed (by decide) hlast⟩
  rw [s.afterGen_readBlock hj, s'.afterGen_readBlock hj]

end Sys2Proof.Machine
end

section
/-! SUPPORT. The bit access family (41_bit_access.md R90 to R92): each way GETBIT and RDBLK answer, as one lemma in the
order of the checks, the state GEN leaves to them, and the answer word of a bit. -/

namespace Sys2Proof.Machine

/-! ### The words -/

/-- A command's word is the number of its two fields (30_encoding.md R60). -/
theorem encode_eq_ofNat {i : Instr} (h : i.wellFormed = true) :
    encode i = BitVec.ofNat 32 ((opcodeOf i).toNat * 2 ^ 28 + operandOf i) := by
  rw [← encode_toNat h, BitVec.ofNat_toNat, BitVec.setWidth_eq]

theorem encode_getbit {idx : Nat} (h : idx < 2 ^ 28) : encode (.getbit idx) = BitVec.ofNat 32 (0x60000000 + idx) :=
  (encode_eq_ofNat (i := .getbit idx) (Instr.wellFormed_iff.mpr h)).trans (by simp [opcodeOf, operandOf])

theorem encode_rdblk {j : Nat} (h : j < 2 ^ 28) : encode (.rdblk j) = BitVec.ofNat 32 (0x70000000 + j) :=
  (encode_eq_ofNat (i := .rdblk j) (Instr.wellFormed_iff.mpr h)).trans (by simp [opcodeOf, operandOf])

theorem flagWord_toNat (b : Bool) : (flagWord b).toNat = b.toNat := by
  cases b <;> rfl

/-- R90's expression for the answer: shift the bit down and mask it. -/
theorem flagWord_bitOf (v : Block) (p : Nat) : flagWord (bitOf v p) = (v >>> p) &&& 1#32 := by
  apply BitVec.eq_of_toNat_eq
  rw [flagWord_toNat, bitOf, ← BitVec.testBit_toNat, Nat.toNat_testBit, BitVec.toNat_and, BitVec.toNat_ushiftRight,
    Nat.shiftRight_eq_div_pow]
  exact (Nat.and_one_is_mod _).symm

/-! ### The two commands on a constructed block -/

theorem exec_getbit_of_ge {s : State} {idx : Nat} (hf : s.fault = 0#4) (hv : s.valid = true) (hi : 20000 ≤ idx) :
    exec (.getbit idx) s = .next (s.raiseFault .indexOutOfBounds (BitVec.ofNat 32 idx)) := by
  rw [exec_getbit, checkReady_of_valid _ _ hf hv, checkIndex_of_ge _ hi]

theorem exec_getbit_of_lt {s : State} {idx : Nat} {v : Block} (hf : s.fault = 0#4) (hv : s.valid = true)
    (hi : idx < 20000) (hread : s.mem.readBlock (idx / 32) = some v) :
    exec (.getbit idx) s = .next (s.respond .ok (flagWord (bitOf v (idx % 32)))) := by
  rw [exec_getbit, checkReady_of_valid _ _ hf hv, checkIndex_of_lt _ hi, withBlock_of_some _ hread]

theorem exec_rdblk_of_ge {s : State} {j : Nat} (hf : s.fault = 0#4) (hv : s.valid = true) (hj : 625 ≤ j) :
    exec (.rdblk j) s = .next (s.raiseFault .indexOutOfBounds (BitVec.ofNat 32 j)) := by
  rw [exec_rdblk, checkReady_of_valid _ _ hf hv, checkIndex_of_ge _ hj]

theorem exec_rdblk_of_lt {s : State} {j : Nat} {v : Block} (hf : s.fault = 0#4) (hv : s.valid = true) (hj : j < 625)
    (hread : s.mem.readBlock j = some v) : exec (.rdblk j) s = .next (s.respond .ok v) := by
  rw [exec_rdblk, checkReady_of_valid _ _ hf hv, checkIndex_of_lt _ hj, withBlock_of_some _ hread]

/-- What GEN leaves to a read: both checks of R151 pass, and every block is that of the closed form. -/
theorem exec_gen_reads {s t : State} (hs : s.fault = 0#4) (h : exec .gen s = .next t) :
    t.fault = 0#4 ∧ t.valid = true ∧ ∀ j, j < 625 → t.mem.readBlock j = some (refBlock j) := by
  obtain rfl := Host.Outcome.next.inj ((exec_gen_of_good hs).symm.trans h)
  exact ⟨s.afterGen_fault.trans hs, s.afterGen_valid, fun _ hj => s.afterGen_readBlock hj⟩

/-! ### The obligations -/

/-- Settles O26: one case per check, then the bits of block 0 after GEN. -/
theorem getbitAnswersTheBit : Obligations.GetbitAnswersTheBit := by
  unfold Obligations.GetbitAnswersTheBit
  refine ⟨fun s idx hidx => ⟨fun hf => exec_of_halted hf (by simp), ?invalid, exec_getbit_of_ge, ?read⟩, ?afterGen⟩
  case invalid =>
    intro hf hv
    rw [← encode_getbit hidx]
    exact exec_of_invalid (.getbit idx) hf hv
  case read =>
    intro hf hv hi v hread
    rw [← flagWord_bitOf]
    exact exec_getbit_of_lt hf hv hi hread
  case afterGen =>
    intro s t hs h
    obtain ⟨hf, hv, hblocks⟩ := exec_gen_reads hs h
    have hread : t.mem.readBlock 0 = some 0x86DF07CE#32 := refBlock_listed.1 ▸ hblocks 0 (by decide)
    exact ⟨exec_getbit_of_lt (idx := 0) hf hv (by decide) hread, exec_getbit_of_lt (idx := 1) hf hv (by decide) hread,
      exec_getbit_of_lt (idx := 31) hf hv (by decide) hread, exec_getbit_of_ge hf hv le_rfl⟩

/-- Settles O27: one case per check, then the first and the last block after GEN. -/
theorem rdblkAnswersTheBlock : Obligations.RdblkAnswersTheBlock := by
  unfold Obligations.RdblkAnswersTheBlock
  refine ⟨fun s j hj => ⟨fun hf => exec_of_halted hf (by simp), ?invalid, exec_rdblk_of_ge,
    fun hf hv hlt v => exec_rdblk_of_lt hf hv hlt⟩, ?afterGen⟩
  case invalid =>
    intro hf hv
    rw [← encode_rdblk hj]
    exact exec_of_invalid (.rdblk j) hf hv
  case afterGen =>
    intro s t hs h
    obtain ⟨hf, hv, hblocks⟩ := exec_gen_reads hs h
    obtain ⟨hfirst, -, -, -, -, -, hlast⟩ := refBlock_listed
    exact ⟨exec_rdblk_of_lt hf hv (by decide) (hfirst ▸ hblocks 0 (by decide)),
      exec_rdblk_of_lt hf hv (by decide) (hlast ▸ hblocks 624 (by decide))⟩

/-- Settles O28: index `32 j + p` is position p of block j, so both commands read the same block. -/
theorem blockAndBitReadsAgree : Obligations.BlockAndBitReadsAgree := by
  unfold Obligations.BlockAndBitReadsAgree
  intro s j p hs hj hp
  obtain ⟨hf, hv, hcomplete⟩ := hs
  obtain ⟨v, hread⟩ := Option.isSome_iff_exists.mp (hcomplete j hj)
  have hdiv : (32 * j + p) / 32 = j := by omega
  have hmod : (32 * j + p) % 32 = p := by omega
  have hbit := exec_getbit_of_lt hf hv (by omega) (hdiv.symm ▸ hread)
  rw [hmod] at hbit
  exact ⟨v, flagWord (bitOf v p), exec_rdblk_of_lt hf hv hj hread, hbit, flagWord_toNat _⟩

end Sys2Proof.Machine
end

section
/-! SUPPORT. The monobit family (42_monobit.md R100, R101): the count and the two verdicts of MONO on a constructed
block, and on the generated sequence. -/

namespace Sys2Proof.Machine

/-! ### MONO on a constructed block

The sequence's length is a variable in these lemmas, so that no definitional check can run a count over 20000 bits. -/

/-- The count over the blocks, as the sum of their population counts (42_monobit.md R100). -/
theorem countOnes_sequenceOf_eq_sum (vs : List Block) : countOnes (sequenceOf vs) = (vs.map popcount).sum := by
  rw [countOnes_sequenceOf, List.sum_eq_foldl, List.foldl_map]

section
variable {bit : Nat → Bool} {n : Nat} {vs : List Block} (s : State) (hseq : sequenceOf vs = prefixOf bit n)
include hseq

theorem onesUpTo_eq_sum_popcount : onesUpTo bit n = (vs.map popcount).sum := by
  rw [← countOnes_prefixOf, ← hseq, countOnes_sequenceOf_eq_sum]

/-- The 15-bit register holds the count exactly (42_monobit.md R102). -/
theorem State.afterMono_ones_toNat (hn : n ≤ 20000) : (s.afterMono vs).ones.toNat = onesUpTo bit n := by
  have hle := onesUpTo_le bit n
  rw [State.afterMono_ones, hseq, countOnes_prefixOf, BitVec.toNat_ofNat, Nat.mod_eq_of_lt (by omega)]

/-- A count within the bounds sets MONO's VERDICT bit and answers 1. -/
theorem State.afterMono_of_pass (hpass : 9654 ≤ onesUpTo bit n ∧ onesUpTo bit n ≤ 10346) :
    s.afterMono vs = { s with
      ones := (s.afterMono vs).ones, done := s.done ||| 1#4, verdict := s.verdict ||| 1#4,
      rsp := some ⟨.ok, 1#32⟩ } := by
  have hverdict : monoPassIn bit n = true := by rwa [monoPassIn_iff, onesIn_eq_onesUpTo]
  rw [State.afterMono_of_sequence s hseq, if_pos hverdict, if_pos hverdict]

/-- A count outside the bounds clears MONO's VERDICT bit and answers 0. -/
theorem State.afterMono_of_fail (hfail : ¬ (9654 ≤ onesUpTo bit n ∧ onesUpTo bit n ≤ 10346)) :
    s.afterMono vs = { s with
      ones := (s.afterMono vs).ones, done := s.done ||| 1#4, verdict := s.verdict &&& 14#4,
      rsp := some ⟨.ok, 0#32⟩ } := by
  have hverdict : ¬ monoPassIn bit n = true := by rwa [monoPassIn_iff, onesIn_eq_onesUpTo]
  rw [State.afterMono_of_sequence s hseq, if_neg hverdict, if_neg hverdict]

end

/-- Settles O32, by MONO's effect on the sequence of the block's bits. -/
theorem monoCountsTheOneBits : Obligations.MonoCountsTheOneBits := by
  unfold Obligations.MonoCountsTheOneBits
  intro s hs n pass
  obtain ⟨vs, hseq, hexec⟩ := hs.exec_test
  exact ⟨fun _ hread => onesUpTo_eq_sum_popcount (sequenceOf_eq_prefixOf hread), s.afterMono vs, hexec .mono,
    s.afterMono_ones_toNat hseq le_rfl, s.afterMono_of_pass hseq, s.afterMono_of_fail hseq⟩

/-! ### MONO on the generated sequence -/

/-- After GEN every test completes with its unit's effect on the generated sequence (40_generator.md R85). -/
theorem exec_test_of_gen {i : Instr} {u : TestUnit} {s t : State} (hi : IsTest i u) (hs : s.fault = 0#4)
    (h : exec .gen s = .next t) : exec i t = .next (t.afterTest u refBlocks) := by
  obtain ⟨hf, hv, hblocks⟩ := exec_gen_reads hs h
  exact exec_test_of_blocks hi hf hv (Memory.readBlocks_of_refBlock hblocks)

/-- The kernel adds up the population counts of the recurrence's 625 blocks (42_monobit.md R100, 95_test_vectors.md
V4). -/
theorem countOnes_refBlocks : countOnes (sequenceOf refBlocks) = 9925 := by
  rw [refBlocks_eq_lcgBlocks, countOnes_sequenceOf]
  decide +kernel

/-- Settles O46: the count of the generated sequence, which lies within the bounds. -/
theorem monoOnTheGeneratedSequence : Obligations.MonoOnTheGeneratedSequence := by
  unfold Obligations.MonoOnTheGeneratedSequence
  intro s t hs h
  have hones : (t.afterMono refBlocks).ones.toNat = 9925 := by
    rw [State.afterMono_ones, countOnes_refBlocks, BitVec.toNat_ofNat]
  have hrsp : (t.afterMono refBlocks).rsp = some ⟨.ok, 1#32⟩ := by
    rw [State.afterMono_rsp, countOnes_refBlocks, (monoPass_iff 9925).mpr (by decide), flagWord, if_pos rfl]
  exact ⟨t.afterMono refBlocks, exec_test_of_gen .mono hs h, hones, hrsp⟩

end Sys2Proof.Machine
end

section
/-! SUPPORT. The longest-run family (43_longest_run.md R110, R111): the runs and the two verdicts of MAXRUN on a
constructed block, and its result on the generated sequence. -/

namespace Sys2Proof.Machine

/-! ### MAXRUN on a constructed block

The sequence's length is a variable in these lemmas, so that no definitional check can run a scan of 20000 bits. -/

section
variable {bit : Nat → Bool} {n : Nat} {vs : List Block} (s : State) (hseq : sequenceOf vs = prefixOf bit n)
include hseq

/-- The 15-bit register holds the longest run's length exactly (43_longest_run.md R111). -/
theorem State.afterMaxrun_maxlen_toNat (hn : n ≤ 20000) : (s.afterMaxrun vs).maxlen.toNat = maxrunIn bit n := by
  obtain ⟨-, -, hle⟩ := scanRuns_le bit n
  rw [State.afterMaxrun_maxlen, hseq, BitVec.toNat_ofNat, Nat.mod_eq_of_lt (by omega), maxrunIn, runScanIn]

/-- A longest run within the bound sets MAXRUN's VERDICT bit and answers 1. -/
theorem State.afterMaxrun_of_pass (hpass : maxrunIn bit n ≤ 36) :
    s.afterMaxrun vs = { s with
      run1 := (s.afterMaxrun vs).run1, run0 := (s.afterMaxrun vs).run0, maxlen := (s.afterMaxrun vs).maxlen,
      done := s.done ||| 2#4, verdict := s.verdict ||| 2#4, rsp := some ⟨.ok, 1#32⟩ } := by
  have hverdict : maxrunPassIn bit n = true := (maxrunPassIn_iff bit n).mpr hpass
  rw [State.afterMaxrun_of_sequence s hseq, if_pos hverdict, if_pos hverdict]

/-- A longest run above the bound clears MAXRUN's VERDICT bit and answers 0. -/
theorem State.afterMaxrun_of_fail (hfail : 36 < maxrunIn bit n) :
    s.afterMaxrun vs = { s with
      run1 := (s.afterMaxrun vs).run1, run0 := (s.afterMaxrun vs).run0, maxlen := (s.afterMaxrun vs).maxlen,
      done := s.done ||| 2#4, verdict := s.verdict &&& 13#4, rsp := some ⟨.ok, 0#32⟩ } := by
  have hverdict : ¬ maxrunPassIn bit n = true := (maxrunPassIn_iff bit n).not.mpr (by omega)
  rw [State.afterMaxrun_of_sequence s hseq, if_neg hverdict, if_neg hverdict]

end

/-- Settles O33, by MAXRUN's effect on the sequence of the block's bits, whose longest run MAXLEN holds. -/
theorem maxrunFindsTheLongestRun : Obligations.MaxrunFindsTheLongestRun := by
  unfold Obligations.MaxrunFindsTheLongestRun
  intro s hs
  obtain ⟨vs, hseq, hexec⟩ := hs.exec_test
  refine ⟨s.afterMaxrun vs, hexec .maxrun, ?_⟩
  rw [s.afterMaxrun_maxlen_toNat hseq le_rfl]
  exact ⟨maxrunIn_attained (by decide), fun a len => IsRun.le_maxrunIn, s.afterMaxrun_of_pass hseq,
    s.afterMaxrun_of_fail hseq⟩

/-! ### MAXRUN on the generated sequence -/

/-- `k n`, with `n` computed first: the kernel passes an argument on unevaluated, and after thousands of bits a counter
would be a term too deep to evaluate. -/
def withComputed {α : Type} (n : Nat) (k : Nat → α) : α :=
  match n with
  | 0 => k 0
  | m + 1 => k (m + 1)

@[simp] theorem withComputed_eq {α : Type} (n : Nat) (k : Nat → α) : withComputed n k = k n := by
  cases n <;> rfl

/-- `k c`, with the three counters computed first. -/
def withComputedRuns {α : Type} (c : RunScan) (k : RunScan → α) : α :=
  withComputed c.run1 fun run1 => withComputed c.run0 fun run0 => withComputed c.maxlen fun maxlen =>
    k { run1 := run1, run0 := run0, maxlen := maxlen }

@[simp] theorem withComputedRuns_eq {α : Type} (c : RunScan) (k : RunScan → α) : withComputedRuns c k = k c := by
  simp only [withComputedRuns, withComputed_eq]

/-- The scan of blocks, with the counters computed after each block: the form of the scan the kernel evaluates. -/
def scanRunBlocks : List Block → RunScan → RunScan
  | [], c => c
  | v :: vs, c => withComputedRuns ((bitsOf v).foldl scanRun c) (scanRunBlocks vs)

theorem scanRunBlocks_eq_foldl (vs : List Block) (c : RunScan) :
    scanRunBlocks vs c = (sequenceOf vs).foldl scanRun c := by
  induction vs generalizing c with
  | nil => rfl
  | cons v vs ih =>
    have hbits : sequenceOf (v :: vs) = bitsOf v ++ sequenceOf vs := rfl
    simp only [scanRunBlocks, withComputedRuns_eq, ih, hbits, List.foldl_append]

/-- The kernel scans the recurrence's 625 blocks (43_longest_run.md R110, 95_test_vectors.md V5). -/
theorem scanRuns_refBlocks : scanRuns (sequenceOf refBlocks) = { run1 := 1, run0 := 0, maxlen := 15 } := by
  rw [refBlocks_eq_lcgBlocks, scanRuns, ← scanRunBlocks_eq_foldl]
  decide +kernel

/-- Settles O47: the scan of the generated sequence, whose longest run is within the bound. -/
theorem maxrunOnTheGeneratedSequence : Obligations.MaxrunOnTheGeneratedSequence := by
  unfold Obligations.MaxrunOnTheGeneratedSequence
  intro s t hs h
  refine ⟨t.afterMaxrun refBlocks, exec_test_of_gen .maxrun hs h, ?_⟩
  rw [State.afterMaxrun_maxlen, State.afterMaxrun_run1, State.afterMaxrun_run0, State.afterMaxrun_rsp,
    scanRuns_refBlocks, (maxrunPass_iff 15).mpr (by decide)]
  decide

end Sys2Proof.Machine
end

section
/-! SUPPORT. The poker family (44_poker.md R120 to R126): the divisibility check, the combiner on any histogram, the
pure function of a sequence of any length, POKER on a constructed block, and its result on the generated sequence. -/

namespace Sys2Proof.Machine

/-! ### The divisibility check -/

theorem checkDivisible_of_dvd {s : State} {bitCount : Nat} (body : State → Result) (h : bitCount % 4 = 0) :
    checkDivisible s bitCount body = body s := by
  simp [checkDivisible, h]

theorem checkDivisible_of_not_dvd {s : State} {bitCount : Nat} (body : State → Result) (h : bitCount % 4 ≠ 0) :
    checkDivisible s bitCount body = .next (s.raiseFault .configAssert (BitVec.ofNat 32 (bitCount % 4))) := by
  simp [checkDivisible, h]

/-- Settles O17: one case per answer of the check. -/
theorem pokerDivisibilityCheck : Obligations.PokerDivisibilityCheck := by
  unfold Obligations.PokerDivisibilityCheck
  exact fun _ _ body => ⟨checkDivisible_of_not_dvd body, checkDivisible_of_dvd body⟩

/-! ### The combiner on any histogram (44_poker.md R123, R124) -/

/-- R124 (b), the Cauchy-Schwarz inequality. -/
theorem sq_sum_le_sumSquares (h : Vector Nat 16) : h.sum ^ 2 ≤ 16 * sumSquares h := by
  rw [sumSquares_eq, vectorSum_eq_sum_get]
  exact sq_sum_le_card_mul_sum_sq

/-- R124 (c): a square has the parity of its root, so SUMSQ has the parity of the sum of the buckets. -/
theorem sumSquares_mod_two (h : Vector Nat 16) : sumSquares h % 2 = h.sum % 2 := by
  have hsq : ∀ n : Nat, n ^ 2 % 2 = n % 2 := fun n => by
    rcases Nat.mod_two_eq_zero_or_one n with hn | hn <;> rw [Nat.pow_mod, hn]
  rw [sumSquares_eq, vectorSum_eq_sum_get, Finset.sum_nat_mod, Finset.sum_nat_mod _ _ h.get]
  simp only [hsq]

/-- The numerator is exact, because the subtraction never goes below 0 (R124). -/
theorem xi3Numerator_add_sq {h : Vector Nat 16} {k : Nat} (hsum : h.sum = k) :
    xi3Numerator k (sumSquares h) + k ^ 2 = 16 * sumSquares h := by
  rw [xi3Numerator, ← sq, Nat.sub_add_cancel (hsum ▸ sq_sum_le_sumSquares h)]

theorem pokerPass_iff (k x : Nat) : pokerPass k x = true ↔ 103 * k ≤ 100 * x ∧ 10 * x ≤ 574 * k := by
  simp [pokerPass]

/-- The comparator decides the inequality of the quotient `xi3 = xi3n / k` (R123, R126). -/
theorem pokerPass_iff_div {k : Nat} (hk : 0 < k) (x : Nat) :
    pokerPass k x = true ↔ 103 / 100 ≤ (x : ℚ) / k ∧ (x : ℚ) / k ≤ 574 / 10 := by
  have hk' : (0 : ℚ) < k := Nat.cast_pos.mpr hk
  rw [pokerPass_iff, div_le_div_iff₀ (by norm_num) hk', div_le_div_iff₀ hk' (by norm_num), mul_comm 100 x,
    mul_comm 10 x]
  norm_cast

/-- Settles O37: the numerator is exact, so every form of the comparison is the comparator's by linear arithmetic. -/
theorem pokerVerdictIsTheRealInequality : Obligations.PokerVerdictIsTheRealInequality := by
  unfold Obligations.PokerVerdictIsTheRealInequality
  intro h hsum sq x xi3
  have hx : x + 5000 ^ 2 = 16 * sq := xi3Numerator_add_sq hsum
  have hquot : (x : ℚ) / 5000 = xi3 := by
    have hxq : (x : ℚ) + 5000 ^ 2 = 16 * sq := mod_cast hx
    simp only [xi3]
    linarith
  have hpass := pokerPass_iff 5000 x
  refine ⟨by omega, hquot, ?quotient, hpass, ?numerator, ?scaledSumOfSquares, ?sumOfSquares⟩
  case quotient =>
    rw [← hquot]
    exact mod_cast pokerPass_iff_div (by decide) x
  all_goals
    rw [hpass]
    omega

/-! ### The pure function of a sequence of any length (44_poker.md R126) -/

section
variable (s : Nat → Bool) {n : Nat} (hn : n % 4 = 0)
include hn

theorem histIn_get (v : Fin 16) : (histIn s n).get v = pokerCount s (n / 4) v.val := by
  obtain ⟨k, rfl⟩ := Nat.dvd_of_mod_eq_zero hn
  rw [Nat.mul_div_cancel_left k (by decide)]
  exact pokerHist_get s k v

theorem histIn_sum : (histIn s n).sum = n / 4 := by
  obtain ⟨k, rfl⟩ := Nat.dvd_of_mod_eq_zero hn
  rw [Nat.mul_div_cancel_left k (by decide)]
  exact pokerHist_sum s k

theorem sumsqIn_eq_sum_pokerCount : sumsqIn s n = ∑ v ∈ Finset.range 16, pokerCount s (n / 4) v ^ 2 := by
  simp only [sumsqIn, sumSquares_eq, histIn_get s hn, Finset.sum_range fun v => pokerCount s (n / 4) v ^ 2]

theorem sumsqIn_le : sumsqIn s n ≤ (n / 4) ^ 2 :=
  histIn_sum s hn ▸ sumSquares_le_sq_sum (histIn s n)

theorem xi3nIn_add_sq : xi3nIn s n + (n / 4) ^ 2 = 16 * sumsqIn s n := xi3Numerator_add_sq (histIn_sum s hn)

end

/-- Settles O57, from the combiner's laws at the histogram of the sequence. -/
theorem pokerIsAPureFunction : Obligations.PokerIsAPureFunction := by
  unfold Obligations.PokerIsAPureFunction
  refine ⟨fun s n hn hk => ?_, fun n s body => checkDivisible_of_not_dvd body⟩
  intro k xi3
  have hexact : xi3nIn s n + k ^ 2 = 16 * sumsqIn s n := xi3nIn_add_sq s hn
  exact ⟨histIn_get s hn, sumSquares_eq _, by zify at hexact; linarith, pokerPass_iff _ _, pokerPass_iff_div hk _⟩

/-! ### POKER on a constructed block

The sequence's length is a variable in these lemmas, so that no definitional check can run a scan of 20000 bits. -/

/-- At 5000 poker blocks, R123's bounds on XI3N moved to the sum of squares, so that nothing is subtracted. -/
theorem pokerPassIn_iff_sumsqIn (s : Nat → Bool) {n : Nat} (hn : n % 4 = 0) (hk : n / 4 = 5000) :
    pokerPassIn s n = true ↔ 5150 + 25000000 ≤ 16 * sumsqIn s n ∧ 16 * sumsqIn s n ≤ 287000 + 25000000 := by
  have hexact := xi3nIn_add_sq s hn
  rw [hk] at hexact
  rw [pokerPassIn, pokerPass_iff, hk]
  omega

section
variable {bit : Nat → Bool} {n : Nat} {vs : List Block} (s : State) (hseq : sequenceOf vs = prefixOf bit n)
  (hk : n / 4 = 5000)
include hseq hk

/-- A statistic within the bounds sets POKER's VERDICT bit and answers 1. -/
theorem State.afterPoker_of_pass (hpass : pokerPassIn bit n = true) :
    s.afterPoker vs = { s with
      nib := 0#4, hist := (s.afterPoker vs).hist, sumsq := (s.afterPoker vs).sumsq, xi3n := (s.afterPoker vs).xi3n,
      done := s.done ||| 4#4, verdict := s.verdict ||| 4#4, rsp := some ⟨.ok, 1#32⟩ } := by
  rw [State.afterPoker_of_sequence s hseq hk, if_pos hpass, if_pos hpass]

/-- A statistic outside the bounds clears POKER's VERDICT bit and answers 0. -/
theorem State.afterPoker_of_fail (hfail : ¬ pokerPassIn bit n = true) :
    s.afterPoker vs = { s with
      nib := 0#4, hist := (s.afterPoker vs).hist, sumsq := (s.afterPoker vs).sumsq, xi3n := (s.afterPoker vs).xi3n,
      done := s.done ||| 4#4, verdict := s.verdict &&& 11#4, rsp := some ⟨.ok, 0#32⟩ } := by
  rw [State.afterPoker_of_sequence s hseq hk, if_neg hfail, if_neg hfail]

variable (hn : n % 4 = 0)
include hn

/-- The 13-bit registers hold the histogram exactly (44_poker.md R122). -/
theorem State.afterPoker_hist_toNat : (s.afterPoker vs).hist.map BitVec.toNat = histIn bit n := by
  have hsum := histIn_sum bit hn
  rw [State.afterPoker_of_sequence s hseq hk]
  exact map_toNat_map_ofNat (by omega)

/-- The 25-bit register holds the sum of squares exactly (44_poker.md R124 (a)). -/
theorem State.afterPoker_sumsq_toNat : (s.afterPoker vs).sumsq.toNat = sumsqIn bit n := by
  have hle := sumsqIn_le bit hn
  rw [hk] at hle
  rw [State.afterPoker_of_sequence s hseq hk]
  exact Nat.mod_eq_of_lt (by omega)

/-- The 29-bit register holds the numerator exactly (44_poker.md R124 (b)). -/
theorem State.afterPoker_xi3n_toNat : (s.afterPoker vs).xi3n.toNat = xi3nIn bit n := by
  have hle := sumsqIn_le bit hn
  have hexact := xi3nIn_add_sq bit hn
  rw [hk] at hle hexact
  rw [State.afterPoker_of_sequence s hseq hk]
  exact Nat.mod_eq_of_lt (by omega)

end

theorem get_toNat_eq_get_map {k w : Nat} (v : Vector (BitVec w) k) (b : Fin k) :
    (v.get b).toNat = (v.map BitVec.toNat).get b := by
  simp [Vector.get]

/-- Settles O35, by POKER's effect on the sequence of the block's bits: the registers hold its pure function exactly. -/
theorem pokerComputesTheChiSquare : Obligations.PokerComputesTheChiSquare := by
  unfold Obligations.PokerComputesTheChiSquare
  intro s hs sq pass
  obtain ⟨vs, hseq, hexec⟩ := hs.exec_test
  have hsq : sumsqIn s.bitRead 20000 = sq := sumsqIn_eq_sum_pokerCount s.bitRead (by decide)
  have hexact : xi3nIn s.bitRead 20000 + 25000000 = 16 * sumsqIn s.bitRead 20000 := xi3nIn_add_sq s.bitRead (by decide)
  have hpass : pokerPassIn s.bitRead 20000 = true ↔ pass := by
    simpa only [hsq] using pokerPassIn_iff_sumsqIn s.bitRead (n := 20000) rfl rfl
  refine ⟨s.afterPoker vs, hexec .poker, fun v => ?hist, ?sumsq, ?xi3n,
    fun h => s.afterPoker_of_pass hseq rfl (hpass.mpr h), fun h => s.afterPoker_of_fail hseq rfl (hpass.not.mpr h)⟩
  case hist =>
    rw [get_toNat_eq_get_map, s.afterPoker_hist_toNat hseq rfl rfl]
    exact histIn_get s.bitRead (by decide) v
  case sumsq => rw [s.afterPoker_sumsq_toNat hseq rfl rfl, hsq]
  case xi3n => rw [s.afterPoker_xi3n_toNat hseq rfl rfl, hexact, hsq]

/-- Settles O36: SUMSQ has the parity of the buckets' sum 5000, and XI3N is `16 × SUMSQ − 5000^2`. -/
theorem pokerBucketsSumTo5000 : Obligations.PokerBucketsSumTo5000 := by
  unfold Obligations.PokerBucketsSumTo5000
  intro s t hs h
  obtain ⟨vs, hseq, hexec⟩ := hs.exec_test
  obtain rfl : s.afterPoker vs = t := Host.Outcome.next.inj ((hexec .poker).symm.trans h)
  have hsum : (histIn s.bitRead 20000).sum = 5000 := histIn_sum s.bitRead (by decide)
  have hexact : xi3nIn s.bitRead 20000 + 25000000 = 16 * sumsqIn s.bitRead 20000 := xi3nIn_add_sq s.bitRead (by decide)
  have heven : sumsqIn s.bitRead 20000 % 2 = 0 := by rw [sumsqIn, sumSquares_mod_two, hsum]
  simp only [get_toNat_eq_get_map]
  rw [← vectorSum_eq_sum_get, s.afterPoker_hist_toNat hseq rfl rfl, s.afterPoker_sumsq_toNat hseq rfl rfl,
    s.afterPoker_xi3n_toNat hseq rfl rfl]
  exact ⟨hsum, heven, by omega⟩

/-! ### POKER on the generated sequence -/

/-- `k ns`, with each of the numbers computed first. -/
def withComputedAll {α : Type} : List Nat → (List Nat → α) → α
  | [], k => k []
  | n :: ns, k => withComputed n fun n => withComputedAll ns fun ns => k (n :: ns)

@[simp] theorem withComputedAll_eq {α : Type} (ns : List Nat) (k : List Nat → α) : withComputedAll ns k = k ns := by
  induction ns generalizing k with
  | nil => rfl
  | cons n ns ih => rw [withComputedAll, withComputed_eq, ih]

/-- `tallyNib` on the list of the buckets. -/
def tallyNibList (h : List Nat) (w : BitVec 4) : List Nat := h.modify w.toNat (· + 1)

theorem toList_tallyNib (h : Vector Nat 16) (w : BitVec 4) : (tallyNib h w).toList = tallyNibList h.toList w := by
  rw [tallyNibList, List.modify_eq_set_get _ (by simpa using w.isLt)]
  simp [tallyNib, Vector.toList]

theorem toList_foldl_tallyNib (ws : List (BitVec 4)) (h : Vector Nat 16) :
    (ws.foldl tallyNib h).toList = ws.foldl tallyNibList h.toList :=
  (List.foldl_hom Vector.toList fun h w => (toList_tallyNib h w).symm).symm

/-- The tally of blocks, with the buckets computed after each block: the form of the tally the kernel evaluates. -/
def tallyBlocks : List Block → List Nat → List Nat
  | [], h => h
  | v :: vs, h => withComputedAll ((pokerGroups (bitsOf v)).foldl tallyNibList h) (tallyBlocks vs)

theorem tallyBlocks_eq_foldl (vs : List Block) (h : List Nat) :
    tallyBlocks vs h = (pokerGroups (sequenceOf vs)).foldl tallyNibList h := by
  induction vs generalizing h with
  | nil => rfl
  | cons v vs ih =>
    have hgroups : pokerGroups (sequenceOf (v :: vs)) = pokerGroups (bitsOf v) ++ pokerGroups (sequenceOf vs) := rfl
    rw [tallyBlocks, withComputedAll_eq, ih, hgroups, List.foldl_append]

/-- The kernel tallies the poker blocks of the recurrence's 625 blocks (44_poker.md R120, 95_test_vectors.md V6). -/
theorem pokerHist_refBlocks : (pokerHist (sequenceOf refBlocks)).toList =
    [310, 328, 278, 279, 321, 332, 305, 297, 334, 327, 359, 306, 310, 308, 317, 289] := by
  rw [pokerHist, toList_foldl_tallyNib, ← tallyBlocks_eq_foldl, refBlocks_eq_lcgBlocks]
  decide +kernel

theorem sumSquares_refBlocks : sumSquares (pokerHist (sequenceOf refBlocks)) = 1569284 := by
  rw [sumSquares, pokerHist_refBlocks]
  decide

/-- Settles O48: the histogram of the generated sequence, its sum of squares and the numerator, within the bounds. -/
theorem pokerOnTheGeneratedSequence : Obligations.PokerOnTheGeneratedSequence := by
  unfold Obligations.PokerOnTheGeneratedSequence
  intro s t hs h
  have hx : xi3Numerator 5000 1569284 = 108544 := by decide
  refine ⟨t.afterPoker refBlocks, exec_test_of_gen .poker hs h, ?_⟩
  rw [State.afterPoker_hist, State.afterPoker_sumsq, State.afterPoker_xi3n, State.afterPoker_rsp,
    sumSquares_refBlocks, hx, Vector.toList_map, pokerHist_refBlocks, (pokerPass_iff 5000 108544).mpr (by decide)]
  decide

end Sys2Proof.Machine
end

section
/-! SUPPORT. The run-length family (45_run_length.md R130 to R135): the buckets, the open run and the two verdicts of
RUNS on a constructed block, and its result on the generated sequence. -/

namespace Sys2Proof.Machine

/-! ### RUNS on a constructed block

The sequence's length is a variable in these lemmas, so that no definitional check can run a scan of 20000 bits. -/

/-- The verdict of a sequence, bucket by bucket (45_run_length.md R132, R135). -/
theorem runsPassIn_iff_buckets (bit : Nat → Bool) (n : Nat) :
    runsPassIn bit n = true ↔
      (2267 ≤ terminatedRuns bit n 1 ∧ terminatedRuns bit n 1 ≤ 2733) ∧
      (1079 ≤ terminatedRuns bit n 2 ∧ terminatedRuns bit n 2 ≤ 1421) ∧
      (502 ≤ terminatedRuns bit n 3 ∧ terminatedRuns bit n 3 ≤ 748) ∧
      (223 ≤ terminatedRuns bit n 4 ∧ terminatedRuns bit n 4 ≤ 402) ∧
      (90 ≤ terminatedRuns bit n 5 ∧ terminatedRuns bit n 5 ≤ 223) ∧
      (90 ≤ terminatedRuns bit n 6 ∧ terminatedRuns bit n 6 ≤ 223) := by
  rw [runsPassIn_iff]
  simp [Fin.forall_fin_succ, Vector.get]

section
variable {bit : Nat → Bool} {n : Nat} {vs : List Block} (s : State) (hseq : sequenceOf vs = prefixOf bit n)
include hseq

/-- The 15-bit register holds the open run's length exactly (10_state.md R22). -/
theorem State.afterRuns_cur_toNat (hn : n ≤ 20000) : (s.afterRuns vs).cur.toNat = (oneRunsIn bit n).cur := by
  obtain ⟨hcur, -⟩ := scanOneRuns_bounds bit n
  rw [State.afterRuns_cur, hseq, BitVec.toNat_ofNat, Nat.mod_eq_of_lt (by omega), oneRunsIn]

/-- The 14-bit registers hold the buckets exactly (45_run_length.md R134). -/
theorem State.afterRuns_cnt_toNat (hn : n ≤ 20000) (b : Fin 6) :
    ((s.afterRuns vs).cnt.get b).toNat = (oneRunsIn bit n).cnt.get b := by
  obtain ⟨-, hcnt⟩ := scanOneRuns_bounds bit n
  rw [get_toNat_eq_get_map, State.afterRuns_cnt, hseq, map_toNat_map_ofNat (by omega), oneRunsIn]

/-- Buckets inside their bounds set RUNS's VERDICT bit and answer 1. -/
theorem State.afterRuns_of_pass (hpass : runsPassIn bit n = true) :
    s.afterRuns vs = { s with
      cur := (s.afterRuns vs).cur, cnt := (s.afterRuns vs).cnt, done := s.done ||| 8#4,
      verdict := s.verdict ||| 8#4, rsp := some ⟨.ok, 1#32⟩ } := by
  rw [State.afterRuns_of_sequence s hseq, if_pos hpass, if_pos hpass]

/-- A bucket outside its bounds clears RUNS's VERDICT bit and answers 0. -/
theorem State.afterRuns_of_fail (hfail : ¬ runsPassIn bit n = true) :
    s.afterRuns vs = { s with
      cur := (s.afterRuns vs).cur, cnt := (s.afterRuns vs).cnt, done := s.done ||| 8#4,
      verdict := s.verdict &&& 7#4, rsp := some ⟨.ok, 0#32⟩ } := by
  rw [State.afterRuns_of_sequence s hseq, if_neg hfail, if_neg hfail]

end

/-- Settles O38, by RUNS's effect on the sequence of the block's bits, whose terminated runs the buckets count. -/
theorem runsCountsTheTerminatedRuns : Obligations.RunsCountsTheTerminatedRuns := by
  unfold Obligations.RunsCountsTheTerminatedRuns
  intro s hs n pass
  obtain ⟨vs, hseq, hexec⟩ := hs.exec_test
  have hpass : runsPassIn s.bitRead 20000 = true ↔ pass := runsPassIn_iff_buckets s.bitRead 20000
  refine ⟨s.afterRuns vs, hexec .runs, fun b => ?buckets,
    fun h => s.afterRuns_of_pass hseq (hpass.mpr h), fun h => s.afterRuns_of_fail hseq (hpass.not.mpr h)⟩
  case buckets => rw [s.afterRuns_cnt_toNat hseq le_rfl, oneRunsIn_cnt]

/-- What RUNS leaves in CUR and CNT on a constructed block: the scan of the block's 20000 bits, exactly. -/
theorem State.ready.exec_runs_registers {s t : State} (hs : s.ready) (h : exec .runs s = .next t) :
    t.cur.toNat = (oneScanAt s.bitRead 20000).cur ∧
      ∀ b : Fin 6, (t.cnt.get b).toNat = (oneScanAt s.bitRead 20000).cnt.get b := by
  obtain ⟨vs, hseq, hexec⟩ := hs.exec_test
  obtain rfl : s.afterRuns vs = t := Host.Outcome.next.inj ((hexec .runs).symm.trans h)
  rw [← oneRunsIn_eq_oneScanAt]
  exact ⟨s.afterRuns_cur_toNat hseq le_rfl, s.afterRuns_cnt_toNat hseq le_rfl⟩

/-- Settles O39: the scan's open run is the trailing run of 1s. -/
theorem runsLeavesTheTrailingRunInCur : Obligations.RunsLeavesTheTrailingRunInCur := by
  unfold Obligations.RunsLeavesTheTrailingRunInCur
  intro s t hs h
  obtain ⟨hcur, -⟩ := hs.exec_runs_registers h
  rw [hcur]
  exact oneScanAt_cur s.bitRead 20000

/-- Settles O40: a counted run takes two bits at least, and a run of bucket b at least b of the 1s. -/
theorem runsBucketsAreBounded : Obligations.RunsBucketsAreBounded := by
  unfold Obligations.RunsBucketsAreBounded
  intro s t hs h
  obtain ⟨hcur, hcnt⟩ := hs.exec_runs_registers h
  obtain ⟨hbits, hones⟩ := oneScanAt_bounds s.bitRead 20000
  simp only [hcur, hcnt]
  exact ⟨by omega, hones⟩

/-! ### RUNS on the generated sequence -/

/-- The scan's registers as one list: the open run, then the buckets. -/
def OnesScan.toList (c : OnesScan) : List Nat := c.cur :: c.cnt.toList

/-- `scanOnes` on the list of the registers. -/
def scanOnesList : List Nat → Bool → List Nat
  | cur :: cnt, true => (cur + 1) :: cnt
  | 0 :: cnt, false => 0 :: cnt
  | (len + 1) :: cnt, false => 0 :: cnt.modify (bucketOf (len + 1)) (· + 1)
  | [], _ => []

theorem toList_tallyRun (cnt : Vector Nat 6) (len : Nat) :
    (tallyRun cnt len).toList = cnt.toList.modify (bucketOf len) (· + 1) := by
  have hlt : bucketOf len < 6 := by
    unfold bucketOf
    omega
  rw [List.modify_eq_set_get _ (by simpa using hlt)]
  simp [tallyRun, Vector.toList]

theorem toList_scanOnes (c : OnesScan) (b : Bool) : (scanOnes c b).toList = scanOnesList c.toList b := by
  obtain ⟨cur, cnt⟩ := c
  cases b with
  | true => rfl
  | false =>
    cases cur with
    | zero => rfl
    | succ len => exact congrArg (List.cons 0) (toList_tallyRun cnt (len + 1))

/-- The scan of blocks, with the registers computed after each block: the form of the scan the kernel evaluates. -/
def scanOnesBlocks : List Block → List Nat → List Nat
  | [], ns => ns
  | v :: vs, ns => withComputedAll ((bitsOf v).foldl scanOnesList ns) (scanOnesBlocks vs)

theorem scanOnesBlocks_eq_foldl (vs : List Block) (ns : List Nat) :
    scanOnesBlocks vs ns = (sequenceOf vs).foldl scanOnesList ns := by
  induction vs generalizing ns with
  | nil => rfl
  | cons v vs ih =>
    have hbits : sequenceOf (v :: vs) = bitsOf v ++ sequenceOf vs := rfl
    rw [scanOnesBlocks, withComputedAll_eq, ih, hbits, List.foldl_append]

theorem toList_scanOneRuns_sequenceOf (vs : List Block) :
    (scanOneRuns (sequenceOf vs)).toList = scanOnesBlocks vs [0, 0, 0, 0, 0, 0, 0] := by
  rw [scanOnesBlocks_eq_foldl, scanOneRuns]
  exact (List.foldl_hom OnesScan.toList fun c b => (toList_scanOnes c b).symm).symm

/-- The kernel scans the recurrence's 625 blocks (45_run_length.md R130, 95_test_vectors.md V7). -/
theorem scanOneRuns_refBlocks :
    scanOneRuns (sequenceOf refBlocks) = { cur := 1, cnt := #v[2630, 1222, 636, 283, 152, 147] } := by
  have hlist : (scanOneRuns (sequenceOf refBlocks)).toList = [1, 2630, 1222, 636, 283, 152, 147] := by
    rw [toList_scanOneRuns_sequenceOf, refBlocks_eq_lcgBlocks]
    decide +kernel
  generalize scanOneRuns (sequenceOf refBlocks) = c at hlist
  obtain ⟨cur, cnt⟩ := c
  obtain ⟨rfl, hcnt⟩ := List.cons.inj hlist
  congr 1
  exact Vector.toList_inj.mp hcnt

/-- Settles O49: the scan of the generated sequence, whose buckets are inside their bounds. -/
theorem runsOnTheGeneratedSequence : Obligations.RunsOnTheGeneratedSequence := by
  unfold Obligations.RunsOnTheGeneratedSequence
  intro s t hs h
  have hpass : runsPass #v[2630, 1222, 636, 283, 152, 147] = true := by decide
  refine ⟨t.afterRuns refBlocks, exec_test_of_gen .runs hs h, ?_⟩
  rw [State.afterRuns_cnt, State.afterRuns_cur, State.afterRuns_rsp, scanOneRuns_refBlocks, hpass, Vector.toList_map]
  decide

end Sys2Proof.Machine
end

section
/-! SUPPORT. The register map read by RDREG (10_state.md R24, 46_register_read.md R140): the numbers of the register
groups, the values of the constant registers, and the two answers to a number that is not in the map. -/

namespace Sys2Proof.Machine

/-! ### The register groups and the constant registers -/

theorem regOf_hist : ∀ v : Fin 16, regOf (0x10 + v.val) = some (.hist v) := by decide

theorem regOf_cnt : ∀ b : Fin 6, regOf (0x21 + b.val) = some (.cnt b) := by decide

theorem regOf_runLo : ∀ b : Fin 6, regOf (0x31 + b.val) = some (.runLo b) := by decide

theorem regOf_runHi : ∀ b : Fin 6, regOf (0x41 + b.val) = some (.runHi b) := by decide

theorem State.regValue_runLo (s : State) :
    ∀ b : Fin 6, s.regValue (.runLo b) = (#v[2267#32, 1079#32, 502#32, 223#32, 90#32, 90#32]).get b := by
  simp only [State.regValue]
  decide

theorem State.regValue_runHi (s : State) :
    ∀ b : Fin 6, s.regValue (.runHi b) = (#v[2733#32, 1421#32, 748#32, 402#32, 223#32, 223#32]).get b := by
  simp only [State.regValue]
  decide

/-- Settles O29: each number is looked up in the map, and the bounds of RUNS are narrowed constants. -/
theorem rdregReadsTheRegisterMap : Obligations.RdregReadsTheRegisterMap := by
  unfold Obligations.RdregReadsTheRegisterMap
  intro s
  have read : ∀ {r : Nat} (reg : Reg), regOf r = some reg →
      exec (.rdreg r) s = .next { s with rsp := some ⟨.ok, s.regValue reg⟩ } :=
    fun _ h => exec_rdreg_of_mapped s h
  refine ⟨read .fault rfl, read .finfo rfl, read .ones rfl, read .maxlen rfl, read .run1 rfl, read .run0 rfl,
    read .sumsq rfl, read .xi3n rfl, read .nib rfl, read .cur rfl, fun v => read (.hist v) (regOf_hist v),
    fun b => read (.cnt b) (regOf_cnt b), fun b => ?runLo, fun b => ?runHi, read .bitCount rfl, read .nBlocks rfl⟩
  case runLo => rw [read (.runLo b) (regOf_runLo b), s.regValue_runLo]
  case runHi => rw [read (.runHi b) (regOf_runHi b), s.regValue_runHi]

/-! ### Numbers outside the map -/

theorem regOf_eq_none_iff (r : Nat) : regOf r = none ↔ ¬ registerMapped r := by
  rw [← regOf_isSome_iff, Bool.not_eq_true, Option.isSome_eq_false_iff, Option.isNone_iff_eq_none]

theorem encode_rdreg {r : Nat} (h : r < 2 ^ 28) : encode (.rdreg r) = BitVec.ofNat 32 (0x80000000 + r) :=
  (encode_eq_ofNat (i := .rdreg r) (Instr.wellFormed_iff.mpr h)).trans (by simp [opcodeOf, operandOf])

/-- Settles O31: the map has no register at the number, so RDREG is any other command to a halted block and a fault with
its own word to one that is not. -/
theorem rdregOfAnUnmappedNumber : Obligations.RdregOfAnUnmappedNumber := by
  unfold Obligations.RdregOfAnUnmappedNumber
  intro s r hr hmap
  have hnone : regOf r = none := (regOf_eq_none_iff r).mpr hmap
  constructor
  · intro hgood
    rw [exec_rdreg_of_unmapped s hnone, unlessHalted_of_good _ hgood, encode_rdreg hr]
    rfl
  · intro hhalted
    rw [exec_rdreg_of_unmapped s hnone, unlessHalted_of_halted _ hhalted]
    rfl

end Sys2Proof.Machine
end

section
/-! SUPPORT. The registers after all four tests, in any order and with any repetition (46_register_read.md R143): each
unit's registers are those its test alone would leave, so the laws of the single tests give every relation of the
rule. -/

namespace Sys2Proof.Machine

/-! ### A run of tests -/

section
variable {s t : State} {us : List TestUnit} {vs : List Block} (hf : s.fault = 0#4) (hv : s.valid = true)
  (hb : s.mem.readBlocks 0 625 = some vs)
include hf hv hb

/-- A run of tests keeps all that a test reads (20_memory.md R50). -/
theorem TestsRun.keeps_sequence (h : TestsRun s us t) :
    t.fault = 0#4 ∧ t.valid = true ∧ t.mem.readBlocks 0 625 = some vs := by
  induction h with
  | nil => exact ⟨hf, hv, hb⟩
  | @cons _ i u t _ _ hi h ih =>
    obtain ⟨hf, hv, hb⟩ := ih
    obtain rfl := Host.Outcome.next.inj ((exec_test_of_blocks hi hf hv hb).symm.trans h)
    rw [State.afterTest_fault, State.afterTest_valid, State.afterTest_mem]
    exact ⟨hf, hv, hb⟩

/-- Every unit whose test was run shows its results: a later test sets them again or leaves them alone. -/
theorem TestsRun.shows (h : TestsRun s us t) : ∀ u ∈ us, t.Shows vs u := by
  induction h with
  | nil => simp
  | @cons us i last t _ before hi h ih =>
    obtain ⟨hf, hv, hb⟩ := before.keeps_sequence hf hv hb
    obtain rfl := Host.Outcome.next.inj ((exec_test_of_blocks hi hf hv hb).symm.trans h)
    intro u hu
    by_cases hlast : last = u
    · subst hlast
      exact t.afterTest_shows last vs
    · rw [t.afterTest_shows_other vs vs hlast]
      exact ih u ((List.mem_cons.mp hu).resolve_left (Ne.symm hlast))

end

/-! ### What the registers of a unit show

The sequence's length is a variable in these lemmas, so that no definitional check can run a scan of 20000 bits. -/

theorem onesUpTo_eq_sum (bit : Nat → Bool) (n : Nat) : onesUpTo bit n = ∑ i ∈ Finset.range n, (bit i).toNat := by
  rw [onesUpTo, Finset.card_filter]
  refine Finset.sum_congr rfl fun i _ => ?_
  cases bit i <;> rfl

section
variable {t : State} {bit : Nat → Bool} {n : Nat} {vs : List Block} (hseq : sequenceOf vs = prefixOf bit n)
include hseq

theorem State.Shows.ones_eq_sum (h : t.Shows vs .mono) (hn : n ≤ 20000) :
    t.ones.toNat = ∑ i ∈ Finset.range n, (bit i).toNat := by
  have hones : t.ones = (t.afterMono vs).ones := h.trans (t.afterMono_ones vs).symm
  rw [hones, t.afterMono_ones_toNat hseq hn, onesUpTo_eq_sum]

/-- Neither trailing run is longer than the longest run. -/
theorem State.Shows.run_le_maxlen (h : t.Shows vs .maxrun) (hn : n ≤ 20000) :
    max t.run1.toNat t.run0.toNat ≤ t.maxlen.toNat := by
  obtain ⟨hmaxlen, hrun1, hrun0⟩ := h
  obtain ⟨h1, h0, hle⟩ := scanRuns_le bit n
  rw [hmaxlen, hrun1, hrun0, hseq]
  simp only [BitVec.toNat_ofNat]
  omega

theorem State.Shows.run1_trailing (h : t.Shows vs .maxrun) (hpos : 1 ≤ n) (hn : n < 2 ^ 15) :
    IsTrailing bit true n t.run1.toNat := by
  obtain ⟨-, hrun1, -⟩ := h
  obtain ⟨htrailing, -⟩ := t.afterMaxrun_trailing hseq hpos hn
  rwa [hrun1, ← t.afterMaxrun_run1 vs]

theorem State.Shows.cur_trailing (h : t.Shows vs .runs) (hn : n ≤ 20000) : IsTrailing bit true n t.cur.toNat := by
  obtain ⟨hcur, -⟩ := h
  rw [hcur, ← t.afterRuns_cur vs, t.afterRuns_cur_toNat hseq hn]
  exact oneScanAt_cur bit n

theorem State.Shows.hist_sum (h : t.Shows vs .poker) (hk : n / 4 = 5000) (hn : n % 4 = 0) :
    ∑ v : Fin 16, (t.hist.get v).toNat = 5000 := by
  obtain ⟨hhist, -⟩ := h
  simp only [get_toNat_eq_get_map]
  rw [← vectorSum_eq_sum_get, hhist, ← t.afterPoker_hist vs, t.afterPoker_hist_toNat hseq hk hn, histIn_sum bit hn,
    hk]

theorem State.Shows.xi3n_exact (h : t.Shows vs .poker) (hk : n / 4 = 5000) (hn : n % 4 = 0) :
    t.xi3n.toNat + 5000 ^ 2 = 16 * t.sumsq.toNat := by
  obtain ⟨-, hsumsq, hxi3n⟩ := h
  rw [hsumsq, hxi3n, ← t.afterPoker_sumsq vs, ← t.afterPoker_xi3n vs, t.afterPoker_sumsq_toNat hseq hk hn,
    t.afterPoker_xi3n_toNat hseq hk hn, ← hk, xi3nIn_add_sq bit hn]

end

/-- Settles O45: every unit shows its results, and RUNS's open run and MAXRUN's run of 1s are both the trailing run. -/
theorem statisticsAreConsistent : Obligations.StatisticsAreConsistent := by
  unfold Obligations.StatisticsAreConsistent
  intro s t us hs hrun hall
  obtain ⟨vs, hblocks⟩ := hs.blocks
  obtain ⟨hgood, hvalid, -⟩ := hs
  have hseq : sequenceOf vs = prefixOf s.bitRead 20000 := sequenceOf_eq_prefixOf hblocks
  have hshows : ∀ u, t.Shows vs u := fun u => hrun.shows hgood hvalid hblocks u (hall u)
  have hrun1 := (hshows .maxrun).run1_trailing hseq (by decide) (by decide)
  have hcur := (hshows .runs).cur_trailing hseq le_rfl
  have hxi3n := (hshows .poker).xi3n_exact hseq rfl rfl
  exact ⟨(hshows .mono).ones_eq_sum hseq le_rfl, (hshows .maxrun).run_le_maxlen hseq le_rfl,
    (hshows .poker).hist_sum hseq rfl rfl, by omega, BitVec.eq_of_toNat_eq (hcur.unique hrun1), hcur⟩

end Sys2Proof.Machine
end

section
/-! SUPPORT. Halting, fault entry and reset (60_exceptions.md R150 to R156, R170, 70_reset_and_hazards.md R180, R191): what
an illegal word, a halted block, a reset and an idle port answer, which faults a command can raise, and that a verdict is
none of them. -/

namespace Sys2Proof.Machine

/-! ### The step by what is on the port -/

theorem step_of_no_event {s : State} (h : s.port = []) : step s = .next s.idle := by
  unfold step
  rw [h]

/-- Both reset events load the same state (70_reset_and_hazards.md R180, R188). -/
theorem step_of_reset {s : State} {rest : List PortEvent}
    (h : s.port = .reset :: rest ∨ ∃ w, s.port = .resetDuring w :: rest) : step s = .next (resetEvent rest) := by
  unfold step
  rcases h with h | ⟨w, h⟩
  · rw [h]
  · rw [h]

theorem runWord_of_illegal {w : Word} {why : IllegalReason} (h : decode w = .illegal why) (s : State) :
    runWord w s = unlessHalted s fun s => .next (s.raiseFault .illegalCommand w) := by
  unfold runWord
  rw [h]
  rfl

/-- Settles O6: the fault entry of IllegalCommand on a block that is not halted. -/
theorem illegalWordRaisesIllegalCommand : Obligations.IllegalWordRaisesIllegalCommand := by
  unfold Obligations.IllegalWordRaisesIllegalCommand
  intro s w rest why hport hdecode hgood
  rw [step_of_word hport, runWord_of_illegal hdecode]
  exact unlessHalted_of_good (s := s.withPort rest) _ hgood

/-- Settles O7: the step on an empty port is the idle block. -/
theorem idleBlockRetainsAllState : Obligations.IdleBlockRetainsAllState := by
  unfold Obligations.IdleBlockRetainsAllState
  intro s hport
  exact step_of_no_event hport

/-- Settles O8: both events load the reset state, whose registers O9 gives. -/
theorem resetEventLoadsTheResetValues : Obligations.ResetEventLoadsTheResetValues := by
  unfold Obligations.ResetEventLoadsTheResetValues
  intro s rest hport
  obtain ⟨hvalid, hfault, hfinfo, hdone, hverdict, hones, hrun1, hrun0, hmaxlen, hnib, hhist, hsumsq, hxi3n, hcur, hcnt,
    hrsp⟩ := machineStartsAtTheResetValues
  exact ⟨resetEvent rest, step_of_reset hport, hvalid, hfault, hfinfo, hdone, hverdict, hones, hrun1, hrun0, hmaxlen,
    hnib, hhist, hsumsq, hxi3n, hcur, hcnt, hrsp, rfl⟩

/-! ### The halted block -/

/-- Step 1 of 60_exceptions.md R151 for every word, command or not. -/
theorem runWord_of_halted {w : Word} {s : State} (hf : s.fault ≠ 0#4)
    (hw : ∀ r, registerMapped r → decode w ≠ .command (.rdreg r)) : runWord w s = .next s.refuseHalted := by
  cases hd : decode w with
  | command i =>
    rw [runWord_of_command hd]
    exact exec_of_halted hf fun r hr hi => hw r hr (hi ▸ hd)
  | illegal why => rw [runWord_of_illegal hd, unlessHalted_of_halted _ hf]

/-- Settles O10: the answer of a halted block is `refuseHalted`, which writes the response only. -/
theorem haltedBlockRefusesEveryOtherWord : Obligations.HaltedBlockRefusesEveryOtherWord := by
  unfold Obligations.HaltedBlockRefusesEveryOtherWord
  intro s w hf hw
  exact runWord_of_halted hf hw

/-- A halted block answers a read of a mapped register, and refuses every other word (60_exceptions.md R153). -/
theorem runWord_of_halted_answers (w : Word) {s : State} (hf : s.fault ≠ 0#4) :
    ∃ r, runWord w s = .next { s with rsp := some r } := by
  by_cases hread : ∃ r, registerMapped r ∧ decode w = .command (.rdreg r)
  · obtain ⟨r, hr, hd⟩ := hread
    obtain ⟨reg, hreg⟩ := Option.isSome_iff_exists.mp ((regOf_isSome_iff r).mpr hr)
    exact ⟨⟨.ok, s.regValue reg⟩, by rw [runWord_of_command hd, exec_rdreg_of_mapped s hreg]; rfl⟩
  · exact ⟨_, runWord_of_halted hf fun r hr hd => hread ⟨r, hr, hd⟩⟩

/-- Settles O11: each of the two answers of a halted block writes the response only. -/
theorem haltedBlockAnswersAndKeepsItsState : Obligations.HaltedBlockAnswersAndKeepsItsState := by
  unfold Obligations.HaltedBlockAnswersAndKeepsItsState
  intro s w hf
  exact runWord_of_halted_answers w hf

/-- Settles O12: an idle step and a word keep FAULT on a halted block, so the step was a reset. -/
theorem onlyResetLeavesTheHaltedState : Obligations.OnlyResetLeavesTheHaltedState := by
  unfold Obligations.OnlyResetLeavesTheHaltedState
  intro s t h hf ht
  cases step_next h with
  | idle _ e =>
    subst e
    exact absurd ht hf
  | reset rest hport e => exact ⟨⟨rest, hport⟩, e ▸ rfl⟩
  | word w rest _ hw =>
    obtain ⟨r, hr⟩ := runWord_of_halted_answers (s := s.withPort rest) w hf
    obtain rfl := Host.Outcome.next.inj (hr.symm.trans hw)
    exact absurd ht hf

/-! ### Faults -/

/-- The status of a fault has the fault's own code (30_encoding.md R61, 60_exceptions.md R150). -/
theorem Cause.status_code (c : Cause) : c.status.code = c.code := by
  cases c <;> rfl

theorem Cause.code_pos (c : Cause) : 1 ≤ c.code.toNat := by
  cases c <;> decide

/-- Fault entry in terms of the response's status (60_exceptions.md R152). -/
theorem State.raiseFault_eq (s : State) (c : Cause) (info : Word) :
    s.raiseFault c info = { s with fault := c.status.code, finfo := info, rsp := some ⟨c.status, info⟩ } := by
  rw [Cause.status_code]
  rfl

/-- Settles O14: of the four things a command can do, only fault entry writes FAULT. -/
theorem faultsArePrecise : Obligations.FaultsArePrecise := by
  unfold Obligations.FaultsArePrecise
  intro i s t h hgood hfault
  cases exec_next h with
  | answer e => exact absurd (e ▸ hgood) hfault
  | faulted _ c info _ e =>
    refine ⟨c.status, info, e.trans (s.raiseFault_eq c info), ?_⟩
    rw [c.status_code]
    exact ⟨c.code_pos, c.code_le⟩
  | constructed _ _ e => exact absurd (e ▸ s.afterGen_fault.trans hgood) hfault
  | tested _ _ u vs _ _ e => exact absurd (e ▸ (s.afterTest_fault u vs).trans hgood) hfault

/-- A test raises NotGenerated or nothing (60_exceptions.md R156). -/
theorem exec_test_fault {i : Instr} {u : TestUnit} {s t : State} (hi : IsTest i u) (h : exec i s = .next t)
    (hgood : s.fault = 0#4) : t.fault = 0#4 ∨ t.fault = 4#4 := by
  rcases exec_test_next hi h with ⟨hf, -⟩ | ⟨-, -, rfl⟩ | ⟨-, -, vs, -, rfl⟩
  · exact absurd hgood hf
  · exact .inr rfl
  · exact .inl ((s.afterTest_fault u vs).trans hgood)

/-- Settles O15, over the ways each command can end on a block that is not halted. -/
theorem commandsRaiseOnlyTheirFaults : Obligations.CommandsRaiseOnlyTheirFaults := by
  unfold Obligations.CommandsRaiseOnlyTheirFaults
  intro i s t h hgood
  cases i with
  | gen =>
    obtain rfl := Host.Outcome.next.inj ((exec_gen_of_good hgood).symm.trans h)
    exact s.afterGen_fault.trans hgood
  | mono => exact exec_test_fault .mono h hgood
  | maxrun => exact exec_test_fault .maxrun h hgood
  | poker => exact exec_test_fault .poker h hgood
  | runs => exact exec_test_fault .runs h hgood
  | getbit idx =>
    rcases exec_getbit_next h with ⟨hf, -⟩ | ⟨-, -, rfl⟩ | ⟨-, -, -, rfl⟩ | ⟨-, -, -, v, -, rfl⟩
    · exact absurd hgood hf
    · exact .inr (.inr rfl)
    · exact .inr (.inl rfl)
    · exact .inl hgood
  | rdblk j =>
    rcases exec_rdblk_next h with ⟨hf, -⟩ | ⟨-, -, rfl⟩ | ⟨-, -, -, rfl⟩ | ⟨-, -, -, v, -, rfl⟩
    · exact absurd hgood hf
    · exact .inr (.inr rfl)
    · exact .inr (.inl rfl)
    · exact .inl hgood
  | rdreg r =>
    rcases exec_rdreg_next h with ⟨reg, -, rfl⟩ | ⟨-, hf, -⟩ | ⟨-, -, rfl⟩
    · exact .inl hgood
    · exact absurd hgood hf
    · exact .inr rfl

/-! ### Verdicts are no faults -/

theorem flagWord_eq (b : Bool) : flagWord b = if b = true then 1#32 else 0#32 := rfl

/-- A test's own bit after it is written. -/
theorem setBits_and_mask {w : Nat} (v m : BitVec w) (p : Bool) :
    (if p then v ||| m else v &&& ~~~m) &&& m = if p = true then m else 0#w := by
  cases p
  · simp [BitVec.and_assoc]
  · exact or_and_mask v m

/-- Settles O42: the test's effect on the block's sequence, with the verdict as both answer and latched bit. -/
theorem statisticalFailureIsNoFault : Obligations.StatisticalFailureIsNoFault := by
  unfold Obligations.StatisticalFailureIsNoFault
  intro i u s hi hs
  obtain ⟨vs, -, hexec⟩ := hs.exec_test
  obtain ⟨hgood, -, -⟩ := hs
  refine ⟨s.afterTest u vs, u.pass vs, hexec hi, ?_⟩
  rw [State.afterTest_fault, State.afterTest_rsp, State.afterTest_done, State.afterTest_verdict, flagWord_eq]
  exact ⟨hgood, rfl, or_and_mask _ _, setBits_and_mask _ _ _⟩

/-- The generated sequence passes every test (95_test_vectors.md V4 to V7). -/
theorem TestUnit.pass_refBlocks (u : TestUnit) : u.pass refBlocks = true := by
  cases u with
  | mono => rw [TestUnit.pass, countOnes_refBlocks]; decide
  | maxrun => rw [TestUnit.pass, scanRuns_refBlocks]; decide
  | poker =>
    have hx : xi3Numerator 5000 1569284 = 108544 := by decide
    rw [TestUnit.pass, sumSquares_refBlocks, hx]
    decide
  | runs => rw [TestUnit.pass, scanOneRuns_refBlocks]; decide

theorem TestUnit.exists_index_eq {k : Nat} (hk : k < 4) : ∃ u : TestUnit, u.index = k := by
  match k, hk with
  | 0, _ => exact ⟨.mono, rfl⟩
  | 1, _ => exact ⟨.maxrun, rfl⟩
  | 2, _ => exact ⟨.poker, rfl⟩
  | 3, _ => exact ⟨.runs, rfl⟩

/-- Settles O55: the verdict of a test that is done is the one of the generated sequence. -/
theorem noDoneTestHasFailed : Obligations.NoDoneTestHasFailed := by
  unfold Obligations.NoDoneTestHasFailed
  intro s hs k hk hdone
  obtain ⟨u, rfl⟩ := TestUnit.exists_index_eq hk
  obtain ⟨-, -, hresults⟩ := State.refInv_iff.mp hs
  obtain ⟨-, hverdict⟩ := hresults u hdone
  rw [hverdict, u.pass_refBlocks]

end Sys2Proof.Machine
end

section
/-! SUPPORT. Progress (70_reset_and_hazards.md R191): behind a complete memory no command stops the machine, and every
accepted word gets a response. -/

namespace Sys2Proof.Machine

/-- On a constructed block each of the six commands that read the sequence finds every block it reads. -/
theorem NeedsValid.answers_of_ready {i : Instr} {s : State} (hi : NeedsValid i) (hs : s.ready) :
    ∃ t, exec i s = .next t ∧ t.rsp.isSome = true := by
  obtain ⟨vs, -, hexec⟩ := hs.exec_test
  obtain ⟨hf, hv, hcomplete⟩ := hs
  have test : ∀ {i : Instr} {u : TestUnit}, IsTest i u → ∃ t, exec i s = .next t ∧ t.rsp.isSome = true :=
    fun {_ u} hi => ⟨s.afterTest u vs, hexec hi, Option.isSome_of_eq_some (s.afterTest_rsp u vs)⟩
  cases hi with
  | mono => exact test .mono
  | maxrun => exact test .maxrun
  | poker => exact test .poker
  | runs => exact test .runs
  | getbit idx =>
    rcases Nat.lt_or_ge idx 20000 with hlt | hge
    · obtain ⟨v, hread⟩ := Option.isSome_iff_exists.mp (hcomplete (idx / 32) (by omega))
      exact ⟨_, exec_getbit_of_lt hf hv hlt hread, rfl⟩
    · exact ⟨_, exec_getbit_of_ge hf hv hge, rfl⟩
  | rdblk j =>
    rcases Nat.lt_or_ge j 625 with hlt | hge
    · obtain ⟨v, hread⟩ := Option.isSome_iff_exists.mp (hcomplete j hlt)
      exact ⟨_, exec_rdblk_of_lt hf hv hlt hread, rfl⟩
    · exact ⟨_, exec_rdblk_of_ge hf hv hge, rfl⟩

section
variable {s : State} (hcomplete : s.valid = true → s.mem.complete)
include hcomplete

/-- A command that needs VALID faults without it, so the memory it reads is complete. -/
theorem NeedsValid.answers {i : Instr} (hi : NeedsValid i) (hf : s.fault = 0#4) :
    ∃ t, exec i s = .next t ∧ t.rsp.isSome = true := by
  cases hv : s.valid with
  | false => exact ⟨_, exec_of_invalid hi hf hv, rfl⟩
  | true => exact hi.answers_of_ready ⟨hf, hv, hcomplete hv⟩

theorem exec_answers (i : Instr) (hf : s.fault = 0#4) : ∃ t, exec i s = .next t ∧ t.rsp.isSome = true := by
  cases i with
  | gen => exact ⟨s.afterGen, exec_gen_of_good hf, Option.isSome_of_eq_some s.afterGen_rsp⟩
  | mono => exact NeedsValid.mono.answers hcomplete hf
  | maxrun => exact NeedsValid.maxrun.answers hcomplete hf
  | poker => exact NeedsValid.poker.answers hcomplete hf
  | runs => exact NeedsValid.runs.answers hcomplete hf
  | getbit idx => exact (NeedsValid.getbit idx).answers hcomplete hf
  | rdblk j => exact (NeedsValid.rdblk j).answers hcomplete hf
  | rdreg r =>
    cases hr : regOf r with
    | some reg => exact ⟨_, exec_rdreg_of_mapped s hr, rfl⟩
    | none => exact ⟨_, (exec_rdreg_of_unmapped s hr).trans (unlessHalted_of_good _ hf), rfl⟩

/-- Every accepted word gets a response (30_encoding.md R61): from a halted block, from a command, or as an illegal
word. -/
theorem runWord_answers (w : Word) : ∃ t, runWord w s = .next t ∧ t.rsp.isSome = true := by
  by_cases hf : s.fault = 0#4
  · cases hd : decode w with
    | command i =>
      rw [runWord_of_command hd]
      exact exec_answers hcomplete i hf
    | illegal why => exact ⟨_, (runWord_of_illegal hd s).trans (unlessHalted_of_good _ hf), rfl⟩
  · obtain ⟨r, hr⟩ := runWord_of_halted_answers w hf
    exact ⟨_, hr, rfl⟩

end

/-- Settles O52, by what is on the port: only a word needs the invariant, which has a complete memory behind VALID. -/
theorem everyStepAnswers : Obligations.EveryStepAnswers := by
  unfold Obligations.EveryStepAnswers
  intro s hs
  match hport : s.port with
  | [] => exact ⟨s.idle, step_of_no_event hport, fun w rest h => nomatch h⟩
  | .reset :: rest => exact ⟨_, step_of_reset (.inl hport), fun w rest h => nomatch h⟩
  | .resetDuring w :: rest => exact ⟨_, step_of_reset (.inr ⟨w, hport⟩), fun w rest h => nomatch h⟩
  | .command w :: rest =>
    obtain ⟨t, ht, hrsp⟩ := runWord_answers (s := s.withPort rest) hs.complete w
    exact ⟨t, (step_of_word hport).trans ht, fun _ _ _ => hrsp⟩

end Sys2Proof.Machine
end

section
/-! SUPPORT. Repetition and order (70_reset_and_hazards.md R184, R187): a construction in a canonical memory does not
depend on the state before it, and a unit's registers depend only on whether its test was run. -/

namespace Sys2Proof.Machine

/-! ### A second GEN -/

/-- Canonical memories with the same 625 blocks are equal: the canonical form lists no other cell (log entry 3). -/
theorem Memory.eq_of_readBlock_eq {m m' : Memory} {b : Nat → Block} (h : m.wf = true) (h' : m'.wf = true)
    (hb : ∀ j, j < 625 → m.readBlock j = some (b j)) (hb' : ∀ j, j < 625 → m'.readBlock j = some (b j)) : m = m' := by
  refine Memory.ext_of_wf h h' fun a => ?_
  rcases Nat.lt_or_ge a 2500 with hlt | hge
  · exact Memory.readByte_eq_of_readBlock (hb (a / 4) (by omega)) (hb' (a / 4) (by omega))
  · rw [Memory.readByte_ge_of_wf h hge, Memory.readByte_ge_of_wf h' hge]

theorem GenUnit.ext_fields {g g' : GenUnit} (hseed : g.seed.toNat = g'.seed.toNat) (hblk : g.blk = g'.blk)
    (hmem : g.mem = g'.mem) : g = g' := by
  obtain ⟨seed, blk, mem⟩ := g
  obtain rfl := BitVec.eq_of_toNat_eq hseed
  obtain rfl := hblk
  obtain rfl := hmem
  rfl

/-- A construction in a canonical memory does not depend on what was there (40_generator.md R83). -/
theorem construct_eq_of_wf {m m' : Memory} (blk blk' : BitVec 32) (h : m.wf = true) (h' : m'.wf = true) :
    construct blk m = construct blk' m' := by
  obtain ⟨hseed, hblk, hblocks, -⟩ := construct_spec blk m
  obtain ⟨hseed', hblk', hblocks', -⟩ := construct_spec blk' m'
  exact GenUnit.ext_fields (hseed.trans hseed'.symm) (hblk.trans hblk'.symm)
    (Memory.eq_of_readBlock_eq (construct_wf blk h) (construct_wf blk' h') hblocks hblocks')

theorem State.afterGen_eq (s : State) :
    s.afterGen = ((s.setGenerator (construct s.blk s.mem)).setValid).respond .ok 0#32 := by
  rw [State.afterGen]

/-- The construction is a variable, so that no definitional check can run it. -/
theorem State.setGenerator_setValid_respond_idem (s : State) (g : GenUnit) (st : Status) (v : Word) :
    ((((s.setGenerator g).setValid).respond st v).setGenerator g).setValid.respond st v =
      ((s.setGenerator g).setValid).respond st v := rfl

theorem State.afterGen_afterGen {s : State} (h : s.mem.wf = true) : s.afterGen.afterGen = s.afterGen := by
  have hwf : s.afterGen.mem.wf = true := by
    rw [State.afterGen_mem]
    exact construct_wf s.blk h
  have hsame : construct s.afterGen.blk s.afterGen.mem = construct s.blk s.mem := construct_eq_of_wf _ _ hwf h
  rw [State.afterGen_eq s.afterGen, hsame, State.afterGen_eq s, State.setGenerator_setValid_respond_idem]

/-- Settles O23: the second construction is the first one. -/
theorem secondGenChangesNothing : Obligations.SecondGenChangesNothing := by
  unfold Obligations.SecondGenChangesNothing
  intro s t hwf hgood h
  obtain rfl := Host.Outcome.next.inj ((exec_gen_of_good hgood).symm.trans h)
  rw [exec_gen_of_good (s.afterGen_fault.trans hgood), State.afterGen_afterGen hwf]

/-! ### The part of the state that a test owns -/

/-- The registers of a test's unit (10_state.md R19 to R22). -/
abbrev TestUnit.Registers : TestUnit → Type
  | .mono => BitVec 15
  | .maxrun => BitVec 15 × BitVec 15 × BitVec 15
  | .poker => BitVec 4 × Vector (BitVec 13) 16 × BitVec 25 × BitVec 29
  | .runs => BitVec 15 × Vector (BitVec 14) 6

def State.registers (s : State) : (u : TestUnit) → u.Registers
  | .mono => s.ones
  | .maxrun => (s.run1, s.run0, s.maxlen)
  | .poker => (s.nib, s.hist, s.sumsq, s.xi3n)
  | .runs => (s.cur, s.cnt)

/-- All that a test owns: its unit's registers and its bits of DONE and VERDICT (10_state.md R17). -/
def State.part (s : State) (u : TestUnit) : u.Registers × Bool × Bool :=
  (s.registers u, s.done.getLsbD u.index, s.verdict.getLsbD u.index)

/-- The registers of no test. -/
def State.common (s : State) : BitVec 64 × BitVec 32 × Memory × Bool × BitVec 4 × BitVec 32 × List PortEvent :=
  (s.seed, s.blk, s.mem, s.valid, s.fault, s.finfo, s.port)

/-- A test's registers are set to values that do not depend on the state before it. -/
theorem State.afterTest_registers_eq (s s' : State) (u : TestUnit) (vs : List Block) :
    (s.afterTest u vs).registers u = (s'.afterTest u vs).registers u := by
  cases u <;> simp [State.registers]

theorem State.afterTest_registers_other (s : State) {u u' : TestUnit} (vs : List Block) (hu : u ≠ u') :
    (s.afterTest u vs).registers u' = s.registers u' := by
  cases u' with
  | mono => cases u <;> simp [State.registers] at hu ⊢
  | maxrun => cases u <;> simp [State.registers] at hu ⊢
  | poker => cases u <;> simp [State.registers] at hu ⊢
  | runs => cases u <;> simp [State.registers] at hu ⊢

theorem State.afterTest_part_eq (s s' : State) (u : TestUnit) (vs : List Block) :
    (s.afterTest u vs).part u = (s'.afterTest u vs).part u := by
  simp only [State.part, State.afterTest_done_getLsbD, State.afterTest_verdict_getLsbD, if_true, decide_true,
    Bool.or_true, s.afterTest_registers_eq s']

theorem State.afterTest_part_other (s : State) {u u' : TestUnit} (vs : List Block) (hu : u ≠ u') :
    (s.afterTest u vs).part u' = s.part u' := by
  simp only [State.part, State.afterTest_done_getLsbD, State.afterTest_verdict_getLsbD, if_neg hu, decide_eq_false hu,
    Bool.or_false, s.afterTest_registers_other vs hu]

theorem State.afterTest_common (s : State) (u : TestUnit) (vs : List Block) : (s.afterTest u vs).common = s.common := by
  simp only [State.common, State.afterTest_seed, State.afterTest_blk, State.afterTest_mem, State.afterTest_valid,
    State.afterTest_fault, State.afterTest_finfo, State.afterTest_port]

theorem TestUnit.eq_of_getLsbD {x y : BitVec 4} (h : ∀ u : TestUnit, x.getLsbD u.index = y.getLsbD u.index) : x = y := by
  refine BitVec.eq_of_getLsbD_eq fun k hk => ?_
  obtain ⟨u, rfl⟩ := TestUnit.exists_index_eq hk
  exact h u

/-- The parts of the four tests and the registers of no test make up the state, the response left out. -/
theorem State.idle_eq_of_parts {s t : State} (hcommon : s.common = t.common) (hparts : ∀ u, s.part u = t.part u) :
    s.idle = t.idle := by
  have hflags : ∀ u : TestUnit, s.done.getLsbD u.index = t.done.getLsbD u.index ∧
      s.verdict.getLsbD u.index = t.verdict.getLsbD u.index := fun u => Prod.mk.inj (congrArg Prod.snd (hparts u))
  have hregs : ∀ u, s.registers u = t.registers u := fun u => congrArg Prod.fst (hparts u)
  have hones : s.ones = t.ones := hregs .mono
  have hmaxrun := hregs .maxrun
  have hpoker := hregs .poker
  have hruns := hregs .runs
  simp only [State.common, State.registers, Prod.mk.injEq] at hcommon hmaxrun hpoker hruns
  obtain ⟨hseed, hblk, hmem, hvalid, hfault, hfinfo, hport⟩ := hcommon
  obtain ⟨hrun1, hrun0, hmaxlen⟩ := hmaxrun
  obtain ⟨hnib, hhist, hsumsq, hxi3n⟩ := hpoker
  obtain ⟨hcur, hcnt⟩ := hruns
  exact State.ext_fields hseed hblk hmem hvalid hfault hfinfo (TestUnit.eq_of_getLsbD fun u => (hflags u).1)
    (TestUnit.eq_of_getLsbD fun u => (hflags u).2) hones hrun1 hrun0 hmaxlen hnib hhist hsumsq hxi3n hcur hcnt rfl hport

/-! ### Runs of tests -/

section
variable {s t : State} {us : List TestUnit} {vs : List Block} (hf : s.fault = 0#4) (hv : s.valid = true)
  (hb : s.mem.readBlocks 0 625 = some vs)
include hf hv hb

theorem TestsRun.common_eq (h : TestsRun s us t) : t.common = s.common := by
  induction h with
  | nil => rfl
  | @cons us i u t _ before hi h ih =>
    obtain ⟨hf, hv, hb⟩ := before.keeps_sequence hf hv hb
    obtain rfl := Host.Outcome.next.inj ((exec_test_of_blocks hi hf hv hb).symm.trans h)
    exact (t.afterTest_common u vs).trans ih

/-- A test's part after a run of tests is the one its test alone leaves, if it is among them, and else as it was. -/
theorem TestsRun.part_eq (h : TestsRun s us t) (u : TestUnit) :
    t.part u = if u ∈ us then (s.afterTest u vs).part u else s.part u := by
  induction h with
  | nil => rfl
  | @cons us i last t _ before hi h ih =>
    obtain ⟨hf, hv, hb⟩ := before.keeps_sequence hf hv hb
    obtain rfl := Host.Outcome.next.inj ((exec_test_of_blocks hi hf hv hb).symm.trans h)
    by_cases hlast : last = u
    · subst hlast
      rw [if_pos List.mem_cons_self, t.afterTest_part_eq s]
    · rw [t.afterTest_part_other vs hlast, ih]
      simp only [List.mem_cons, Ne.symm hlast, false_or]

/-- Runs of the same set of tests leave the same state but for the response. -/
theorem TestsRun.idle_eq {t' : State} {us' : List TestUnit} (h : TestsRun s us t) (h' : TestsRun s us' t')
    (hsame : ∀ u, u ∈ us ↔ u ∈ us') : t.idle = t'.idle := by
  refine State.idle_eq_of_parts ((h.common_eq hf hv hb).trans (h'.common_eq hf hv hb).symm) fun u => ?_
  rw [h.part_eq hf hv hb, h'.part_eq hf hv hb]
  simp only [hsame]

/-- A test after a run of tests gives the response it gives on its own: the verdict depends on the sequence only. -/
theorem TestsRun.rsp_eq (h : TestsRun s us t) {i : Instr} {u : TestUnit} {a b : State} (hi : IsTest i u)
    (ha : exec i s = .next a) (hb' : exec i t = .next b) : b.rsp = a.rsp := by
  obtain ⟨hft, hvt, hbt⟩ := h.keeps_sequence hf hv hb
  obtain rfl := Host.Outcome.next.inj ((exec_test_of_blocks hi hf hv hb).symm.trans ha)
  obtain rfl := Host.Outcome.next.inj ((exec_test_of_blocks hi hft hvt hbt).symm.trans hb')
  rw [State.afterTest_rsp, State.afterTest_rsp]

end

/-- Settles O44, by the parts of the state that the tests own. -/
theorem testOrderAndRepetitionDoNotMatter : Obligations.TestOrderAndRepetitionDoNotMatter := by
  unfold Obligations.TestOrderAndRepetitionDoNotMatter
  intro s t t' us us' hs hrun hrun'
  obtain ⟨vs, hblocks⟩ := hs.blocks
  obtain ⟨hgood, hvalid, -⟩ := hs
  exact ⟨hrun.idle_eq hgood hvalid hblocks hrun', fun i u a b hi => hrun.rsp_eq hgood hvalid hblocks hi⟩

end Sys2Proof.Machine
end
